-- ==== Sys2Proof/Word.lean ====
section
/-! DEFINITION. The bit-vector types of the block: the bus word, the byte, the 24-bit symbol and the bit string. -/

namespace Sys2Proof

/-- A register or bus word: 32 bits (00_scope.md R8). -/
abbrev Word := BitVec 32

/-- A byte of PAY or CONT. -/
abbrev Byte := BitVec 8

/-- A symbol value (00_scope.md R8, 30_encoding.md R94). -/
abbrev Symbol := BitVec 24

/-- A bit string, first bit at the head (00_scope.md R10). -/
abbrev Bits := List Bool

end Sys2Proof
end

