-- ==== Sys2Proof/Syntax.lean ====
section
/-! DEFINITION. The ten commands, one constructor per row of spec/opcode_table.json. -/

namespace Sys2Proof

/-- A command of the block (30_encoding.md R91). No command has an operand field: "Every operand is implicit" (R90). -/
inductive Instr where
  /-- NOP, 46_control.md R250. -/
  | nop
  /-- COUNT, 41_frequency.md R120. -/
  | count
  /-- BUILD, 42_tree_builder.md R140. -/
  | build
  /-- PACK, 43_bit_packer.md R170. -/
  | pack
  /-- SERIALIZE, 45_container.md R210. -/
  | serialize
  /-- PARSE, 45_container.md R220. -/
  | parse
  /-- UNPACK, 44_bit_unpacker.md R190. -/
  | unpack
  /-- COMPRESS, 46_control.md R252. -/
  | compress
  /-- DECOMPRESS, 46_control.md R253. -/
  | decompress
  /-- CLEAR, 46_control.md R251. -/
  | clear
  deriving DecidableEq, Repr

end Sys2Proof
end

