-- ==== Sys2Proof/Decode.lean ====
section
/-! DEFINITION. The command word: decoder, total and rejecting by name, and encoder (30_encoding.md R90 to R93). -/

namespace Sys2Proof

/-- Why a word names no command (30_encoding.md R92). -/
inductive DecodeReject where
  /-- `w[31:8] ≠ 0`. -/
  | reservedBits
  /-- `w[31:8] = 0` and the opcode is in 0x09 to 0x0E or 0x10 to 0xFF. -/
  | unassignedOpcode
  deriving DecidableEq, Repr

/-- The OP field `w[7:0]` (30_encoding.md R90). -/
def opField (w : Word) : Byte := w.extractLsb' 0 8

/-- The RSV field `w[31:8]` (30_encoding.md R90). -/
def rsvField (w : Word) : BitVec 24 := w.extractLsb' 8 24

/-- The opcode assignment (30_encoding.md R91), in the table's order. -/
def opcodeRows : List (Byte × Instr) :=
  [ (0x00#8, .nop), (0x01#8, .count), (0x02#8, .build), (0x03#8, .pack), (0x04#8, .serialize),
    (0x05#8, .parse), (0x06#8, .unpack), (0x07#8, .compress), (0x08#8, .decompress), (0x0F#8, .clear) ]

/-- Decode a command word from its 32 bits alone (30_encoding.md R91 to R93). -/
def decode (w : Word) : Except DecodeReject Instr :=
  if rsvField w ≠ 0#24 then .error .reservedBits
  else
    match opcodeRows.find? (fun r => r.1 == opField w) with
    | some r => .ok r.2
    | none => .error .unassignedOpcode

/-- The opcode of a command (30_encoding.md R91); also the ERR_OP of a stage (10_state.md R29). -/
def opcode : Instr → Byte
  | .nop => 0x00#8
  | .count => 0x01#8
  | .build => 0x02#8
  | .pack => 0x03#8
  | .serialize => 0x04#8
  | .parse => 0x05#8
  | .unpack => 0x06#8
  | .compress => 0x07#8
  | .decompress => 0x08#8
  | .clear => 0x0F#8

/-- The command word `zext_32(OP)` (30_encoding.md R91, R110). -/
def encode (i : Instr) : Word := (opcode i).setWidth 32

/-- The command that the decoder reads from `nbits` bits `w`, all further bits 0. A command word travels whole on the
bus (20_memory.md R64), so bit numbers are the word's own; a number that needs more than 32 bits is no command. -/
def decodeTableWord (nbits w : Nat) : Option Instr :=
  if w % 2 ^ nbits < 2 ^ 32 then
    match decode (BitVec.ofNat 32 (w % 2 ^ nbits)) with
    | .ok i => some i
    | .error _ => none
  else none

end Sys2Proof
end

