-- ==== Sys2Proof/Config.lean ====
section
/-! DEFINITION. What an implementation fixes: the five capacities (00_scope.md R7) and the two identity constants (R1). -/

namespace Sys2Proof

/-- The five capacities, open named parameters of the block (00_scope.md R7). -/
structure Config where
  /-- MAX_N: capacity of SYM and OUT, in symbols. -/
  maxN : Nat
  /-- MAX_K: capacity of FREQ and CODE, in entries. -/
  maxK : Nat
  /-- MAX_CODE_LEN: longest codeword the block holds, in bits. -/
  maxCodeLen : Nat
  /-- MAX_PAY: capacity of PAY, in bytes. -/
  maxPay : Nat
  /-- MAX_CONT: capacity of CONT, in bytes. -/
  maxCont : Nat
  deriving DecidableEq, Repr

/-- DESIGN CHOICE (log entry 4): the example capacities of 95_test_vectors.md, which the reset state carries. -/
def Config.example : Config :=
  { maxN := 1048576, maxK := 65536, maxCodeLen := 64, maxPay := 1048576, maxCont := 1048576 }

/-- The identity register's constant, ASCII "HUFZ" (00_scope.md R1, 10_state.md R23). -/
def blockId : Word := 0x4855465A#32

/-- The version register's constant, equal to the container's VER (10_state.md R23, 30_encoding.md R100). -/
def blockVersion : Word := 0x00000001#32

end Sys2Proof
end

