-- ==== Sys2Proof/Machine/State.lean ====
section
/-! DEFINITION. The block's state as plain data (10_state.md R55), the events of its outside world, and reset. -/

namespace Sys2Proof.Machine

/-- An entry of FREQ: `(sym: 24 bits, count: 32 bits)` (10_state.md R49). -/
structure FreqEntry where
  sym : Symbol
  count : Word
  deriving DecidableEq, Repr, Inhabited

/-- An entry of CODE: `(sym: 24 bits, len: 7 bits, val: 64 bits)` (10_state.md R50). -/
structure CodeEntry where
  sym : Symbol
  len : BitVec 7
  val : BitVec 64
  deriving DecidableEq, Repr, Inhabited

/-- An on-block memory by element index: pairs (index, element), indexes strictly rising, no element equal to what an
unlisted index reads as (`Mem.wf`, Machine/Ops.lean). For the byte memories a pair is a `Host.Cell`. -/
abbrev Mem (α : Type) := List (Nat × α)

/-- The error codes 1 to 8 (60_exceptions.md R270); code 0 is success, codes 9 to 15 are never written. -/
inductive ErrCode where
  | emptyInput
  | unencodableSymbol
  | corruptContainer
  | unsupportedFormat
  | invalidSymbol
  | capacity
  | sequenceError
  | illegalCommand
  deriving DecidableEq, Repr

/-- What `raise Fail(c, info)` carries (60_exceptions.md R272, R273). -/
structure Reason where
  code : ErrCode
  info : Word
  deriving DecidableEq, Repr

/-- A failure as a completion reports it: the opcode of the failing command or stage, and why (10_state.md R29). -/
structure Failure where
  op : Byte
  why : Reason
  deriving DecidableEq, Repr

/-- The 26 registers of the register map (10_state.md R22). -/
inductive Reg where
  | id | version | capN | capK | capClen | capPay | capCont
  | cmd | status | irqEn | irqStat | errInfo
  | format | nLen | shape0 | shape1 | shape2 | contLen
  | kCnt | payLen | pad | encBits | outLen
  | winSel | winIdx | winData
  deriving DecidableEq, Repr

/-- One HOST step: a bus read or a bus write (20_memory.md R61). -/
inductive HostAccess where
  | read (off : BitVec 12)
  | write (off : BitVec 12) (data : Word)
  deriving DecidableEq, Repr

/-- What the six memories hold after a reset, as raw (index, element) pairs: the spec leaves it arbitrary
(70_reset_and_hazards.md R302), so it is an argument of the reset event. -/
structure Contents where
  sym : List (Nat × Word)
  freq : List (Nat × FreqEntry)
  code : List (Nat × CodeEntry)
  pay : List (Nat × Byte)
  cont : List (Nat × Byte)
  out : List (Nat × Word)
  deriving DecidableEq, Repr

/-- One entry of the schedule (20_memory.md R80, 70_reset_and_hazards.md R300, R311). DESIGN CHOICE: log entries 1, 2. -/
inductive Event where
  /-- a host bus access -/
  | host (a : HostAccess)
  /-- a slot in which the engine takes its step, if it is enabled -/
  | engine
  /-- the reset input is asserted; the memories then hold `c` -/
  | reset (c : Contents)
  deriving DecidableEq, Repr

/-- Faults: the block has none. "Nothing in the block is stuck or refuse: every command word completes, and every host
access has a defined result" (93_implementation_defined.md). A failed command completes (60_exceptions.md R272). -/
inductive Fault where
  deriving DecidableEq, Repr

/-- Refusals. -/
inductive Refusal where
  /-- Raised by `exec` for an instruction without a meaning; no arm raises it. Safe: the machine stops. -/
  | notModelled (mnemonic : String)
  deriving DecidableEq, Repr

/-- The state of the block. Fields `cfg`, `rdata` and `input` are the model's own (log entries 4, 5, 1). -/
structure State where
  /-- the capacities (00_scope.md R7); parameters, written by no step -/
  cfg : Config
  /-- STATUS.BUSY (10_state.md R27) -/
  busy : Bool
  /-- STATUS.DONE (10_state.md R28) -/
  done : Bool
  /-- STATUS.ERR (10_state.md R29) -/
  err : Bool
  /-- STATUS.OVR (10_state.md R30) -/
  ovr : Bool
  /-- STATUS.ERRCODE (10_state.md R29) -/
  errcode : BitVec 4
  /-- STATUS.ERR_OP (10_state.md R29) -/
  errOp : Byte
  /-- STATUS.FV: FREQ and K_CNT are valid (10_state.md R31) -/
  fv : Bool
  /-- STATUS.CV: CODE is valid (10_state.md R31) -/
  cv : Bool
  /-- STATUS.PV: PAY, PAY_LEN and PAD are valid (10_state.md R31) -/
  pv : Bool
  /-- STATUS.OV: OUT and OUT_LEN are valid (10_state.md R31) -/
  ov : Bool
  /-- PEND, hidden: the command word accepted last (10_state.md R21) -/
  pend : Word
  /-- IRQ_EN.DONE_EN (10_state.md R32) -/
  doneEn : Bool
  /-- IRQ_STAT.DONE_PEND (10_state.md R33) -/
  donePend : Bool
  /-- ERR_INFO (10_state.md R35) -/
  errInfo : Word
  /-- FORMAT.TAG (10_state.md R36) -/
  tag : Byte
  /-- N_LEN (10_state.md R37) -/
  nLen : Word
  /-- SHAPE0, the width (10_state.md R38) -/
  shape0 : Word
  /-- SHAPE1, the height (10_state.md R38) -/
  shape1 : Word
  /-- SHAPE2, the channel count (10_state.md R38) -/
  shape2 : Word
  /-- CONT_LEN (10_state.md R39) -/
  contLen : Word
  /-- K_CNT (10_state.md R40) -/
  kCnt : Word
  /-- PAY_LEN (10_state.md R41) -/
  payLen : Word
  /-- PAD (10_state.md R42) -/
  pad : Byte
  /-- ENC_BITS (10_state.md R43) -/
  encBits : Word
  /-- OUT_LEN (10_state.md R44) -/
  outLen : Word
  /-- WIN_SEL (10_state.md R45) -/
  winSel : BitVec 3
  /-- WIN_IDX (10_state.md R45) -/
  winIdx : Word
  /-- SYM, the input symbol words (20_memory.md R60, R66) -/
  sym : Mem Word
  /-- FREQ, the frequency table (10_state.md R49) -/
  freq : Mem FreqEntry
  /-- CODE, the code table (10_state.md R50) -/
  code : Mem CodeEntry
  /-- PAY, the payload bytes (20_memory.md R69) -/
  pay : Mem Byte
  /-- CONT, the container bytes (20_memory.md R70) -/
  cont : Mem Byte
  /-- OUT, the decoded symbol words (20_memory.md R71) -/
  out : Mem Word
  /-- the bus read data of the last host read (20_memory.md R61) -/
  rdata : Word
  /-- the events still to come (70_reset_and_hazards.md R311) -/
  input : List Event
  deriving DecidableEq, Repr

/-- The block right after reset (10_state.md R55, 70_reset_and_hazards.md R300): every register and flag 0. The memories
list nothing (DESIGN CHOICE, log entry 3); the reset event gives them any contents. -/
def State.reset : State where
  cfg := Config.example
  busy := false
  done := false
  err := false
  ovr := false
  errcode := 0#4
  errOp := 0#8
  fv := false
  cv := false
  pv := false
  ov := false
  pend := 0#32
  doneEn := false
  donePend := false
  errInfo := 0#32
  tag := 0#8
  nLen := 0#32
  shape0 := 0#32
  shape1 := 0#32
  shape2 := 0#32
  contLen := 0#32
  kCnt := 0#32
  payLen := 0#32
  pad := 0#8
  encBits := 0#32
  outLen := 0#32
  winSel := 0#3
  winIdx := 0#32
  sym := []
  freq := []
  code := []
  pay := []
  cont := []
  out := []
  rdata := 0#32
  input := []

end Sys2Proof.Machine
end

