-- ==== Sys2Proof/Machine/Ops.lean ====
section
/-! DEFINITION. The shared operations: memory by element, acceptance, the invalidation and commit sets, the stage of a
command, and the completion step, which is also the block's way of reporting an error. -/

namespace Sys2Proof.Machine

/-! ## On-block memory: `MemRead` and `MemWrite` (00_scope.md R11, 20_memory.md R84) -/

/-- What an element that nothing has written reads as: all bits 0. DESIGN CHOICE, log entry 3. -/
def unlisted {α : Type} [Inhabited α] : α := default

/-- The canonical form: indexes strictly rising, no element equal to `unlisted`. -/
abbrev Mem.wf {α : Type} [Inhabited α] (m : Mem α) : Prop :=
  (m.map Prod.fst).Pairwise (· < ·) ∧ ∀ c ∈ m, c.2 ≠ unlisted

/-- `MemRead(SPACE, i)`. -/
def Mem.read {α : Type} [Inhabited α] : Mem α → Nat → α
  | [], _ => unlisted
  | (a, v) :: m, i => if i = a then v else Mem.read m i

/-- `MemWrite(SPACE, i, v)`, keeping the canonical form. -/
def Mem.write {α : Type} [Inhabited α] [DecidableEq α] : Mem α → Nat → α → Mem α
  | [], i, v => if v = unlisted then [] else [(i, v)]
  | (a, w) :: m, i, v =>
    if i < a then (if v = unlisted then (a, w) :: m else (i, v) :: (a, w) :: m)
    else if i = a then (if v = unlisted then m else (i, v) :: m)
    else (a, w) :: Mem.write m i v

/-- `for j in 0 .. |xs|-1: MemWrite(SPACE, base + j, xs[j])`. -/
def Mem.writeFrom {α : Type} [Inhabited α] [DecidableEq α] (m : Mem α) (base : Nat) : List α → Mem α
  | [] => m
  | x :: xs => (Mem.write m base x).writeFrom (base + 1) xs

/-- The elements `MemRead(SPACE, j) for j in 0 .. n-1`, in index order. -/
def Mem.slice {α : Type} [Inhabited α] (m : Mem α) (n : Nat) : List α := (List.range n).map m.read

/-- A memory of capacity `cap` holding the given elements; pairs outside the capacity name no element. -/
def Mem.ofPairs {α : Type} [Inhabited α] [DecidableEq α] (cap : Nat) (l : List (Nat × α)) : Mem α :=
  l.foldl (fun m c => if c.1 < cap then Mem.write m c.1 c.2 else m) []

/-! ## Acceptance (10_state.md R47) -/

/-- A CMD write while BUSY = 0: `PEND <- w; BUSY <- 1; DONE, ERR, ERRCODE, ERR_OP <- 0`, and nothing else. -/
def State.accept (s : State) (w : Word) : State :=
  { s with pend := w, busy := true, done := false, err := false, errcode := 0#4, errOp := 0#8 }

/-- The command word that the engine completes: PEND (10_state.md R21, R27). -/
def State.fetch (s : State) : Word := s.pend

/-! ## Invalidation sets (10_state.md R48) -/

/-- PV; PAY_LEN, PAD, ENC_BITS: the invalidation set of PACK. -/
def State.invalidatePay (s : State) : State :=
  { s with pv := false, payLen := 0#32, pad := 0#8, encBits := 0#32 }

/-- CV, PV; PAY_LEN, PAD, ENC_BITS: the invalidation set of BUILD. -/
def State.invalidateCode (s : State) : State :=
  { s with cv := false, pv := false, payLen := 0#32, pad := 0#8, encBits := 0#32 }

/-- FV, CV, PV; K_CNT, PAY_LEN, PAD, ENC_BITS: the invalidation set of COUNT and of PARSE. -/
def State.invalidateFreq (s : State) : State :=
  { s with fv := false, cv := false, pv := false, kCnt := 0#32, payLen := 0#32, pad := 0#8, encBits := 0#32 }

/-- CONT_LEN: the invalidation set of SERIALIZE, and the macro COMPRESS's own. -/
def State.invalidateCont (s : State) : State :=
  { s with contLen := 0#32 }

/-- OV; OUT_LEN: the invalidation set of UNPACK, and the macro DECOMPRESS's own. -/
def State.invalidateOut (s : State) : State :=
  { s with ov := false, outLen := 0#32 }

/-! ## Commit sets (10_state.md R48) -/

/-- COUNT's commit set: FREQ[0..K-1], K_CNT, FV <- 1 (41_frequency.md R120). -/
def State.commitFreq (s : State) (t : List FreqEntry) : State :=
  { s with freq := s.freq.writeFrom 0 t, kCnt := BitVec.ofNat 32 t.length, fv := true }

/-- BUILD's commit set: CODE[0..K-1], CV <- 1 (42_tree_builder.md R140). -/
def State.commitCode (s : State) (t : List CodeEntry) : State :=
  { s with code := s.code.writeFrom 0 t, cv := true }

/-- PACK's commit set: PAY[0..P-1], PAY_LEN, PAD, ENC_BITS, PV <- 1 (43_bit_packer.md R170). -/
def State.commitPay (s : State) (bytes : List Byte) (padding encLen : Nat) : State :=
  { s with
    pay := s.pay.writeFrom 0 bytes, payLen := BitVec.ofNat 32 bytes.length, pad := BitVec.ofNat 8 padding,
    encBits := BitVec.ofNat 32 encLen, pv := true }

/-- SERIALIZE's commit set: CONT[0..L-1], CONT_LEN (45_container.md R210). -/
def State.commitCont (s : State) (bytes : List Byte) : State :=
  { s with cont := s.cont.writeFrom 0 bytes, contLen := BitVec.ofNat 32 bytes.length }

/-- UNPACK's commit set: OUT[0..M-1], OUT_LEN, OV <- 1 (44_bit_unpacker.md R190). -/
def State.commitOut (s : State) (words : List Word) : State :=
  { s with out := s.out.writeFrom 0 words, outLen := BitVec.ofNat 32 words.length, ov := true }

/-! ## Stages and completion -/

/-- What a command or a stage leaves: the state after its effects, and its failure if it failed: the `(c, op, info,
effects)` of 10_state.md R47. -/
structure Completion where
  state : State
  failure : Option Failure
  deriving DecidableEq, Repr

/-- One stage: its invalidation set on both outcomes, its commit set on success only (10_state.md R48); on failure the
stage's opcode, the code and the information are reported and every intermediate value is discarded (60_exceptions.md
R272). `result` is computed from the state before the invalidation. -/
def stage {α : Type} (op : Byte) (invalidate : State → State) (result : Except Reason α)
    (commit : State → α → State) (s : State) : Completion :=
  match result with
  | .error why => { state := invalidate s, failure := some { op := op, why := why } }
  | .ok a => { state := commit (invalidate s) a, failure := none }

/-- The next stage of a macro runs on the state as the earlier stage left it, and not at all after a failure
(46_control.md R252). -/
def Completion.andThen (c : Completion) (next : State → Completion) : Completion :=
  match c.failure with
  | none => next c.state
  | some _ => c

/-- The number of an error code (60_exceptions.md R270). -/
def ErrCode.number : ErrCode → BitVec 4
  | .emptyInput => 1#4
  | .unencodableSymbol => 2#4
  | .corruptContainer => 3#4
  | .unsupportedFormat => 4#4
  | .invalidSymbol => 5#4
  | .capacity => 6#4
  | .sequenceError => 7#4
  | .illegalCommand => 8#4

/-- The completion step (10_state.md R47), which is also how the block reports an error (60_exceptions.md R272): the
effects, then `ERRCODE <- c; ERR <- (c ≠ 0); ERR_OP <- (c ≠ 0 ? op : 0); ERR_INFO <- info; BUSY <- 0; DONE <- 1;
DONE_PEND <- 1`. No register is saved, no mode changes, no vector is taken. -/
def complete (c : Completion) : State :=
  match c.failure with
  | none =>
    { c.state with
      err := false, errcode := 0#4, errOp := 0#8, errInfo := 0#32, busy := false, done := true, donePend := true }
  | some f =>
    { c.state with
      err := true, errcode := f.why.code.number, errOp := f.op, errInfo := f.why.info,
      busy := false, done := true, donePend := true }

/-- The counterpart of a return from an exception: the host's acknowledgement `W IRQ_STAT` (60_exceptions.md R277)
clears DONE_PEND if bit 0 of the data is 1 (10_state.md R33). There is nothing to restore. -/
def State.acknowledge (s : State) (data : Word) : State :=
  { s with donePend := s.donePend && !data.getLsbD 0 }

end Sys2Proof.Machine
end

