-- ==== Sys2Proof/Machine/Flags.lean ====
section
/-! DEFINITION. The flag words the host reads, and the irq output. -/

namespace Sys2Proof.Machine

/-- A field at bit `lo` of a register word, all other bits 0. -/
def fieldAt (lo : Nat) {n : Nat} (v : BitVec n) : Word := v.setWidth 32 <<< lo

/-- The STATUS word, reserved bits 0 (10_state.md R26). -/
def State.statusWord (s : State) : Word :=
  fieldAt 0 (BitVec.ofBool s.busy) ||| fieldAt 1 (BitVec.ofBool s.done) ||| fieldAt 2 (BitVec.ofBool s.err) |||
  fieldAt 3 (BitVec.ofBool s.ovr) ||| fieldAt 8 s.errcode ||| fieldAt 16 s.errOp |||
  fieldAt 24 (BitVec.ofBool s.fv) ||| fieldAt 25 (BitVec.ofBool s.cv) ||| fieldAt 26 (BitVec.ofBool s.pv) |||
  fieldAt 27 (BitVec.ofBool s.ov)

/-- The IRQ_EN word: bit 0 DONE_EN (10_state.md R32). -/
def State.irqEnWord (s : State) : Word := (BitVec.ofBool s.doneEn).setWidth 32

/-- The IRQ_STAT word: bit 0 DONE_PEND (10_state.md R33). -/
def State.irqStatWord (s : State) : Word := (BitVec.ofBool s.donePend).setWidth 32

/-- The level output irq (10_state.md R34, 60_exceptions.md R276). -/
def State.irq (s : State) : Bool := s.donePend && s.doneEn

/-- A write of STATUS: bit 3 = 1 clears OVR, nothing else changes (10_state.md R26, R30). -/
def State.clearOverrun (s : State) (data : Word) : State :=
  { s with ovr := s.ovr && !data.getLsbD 3 }

/-- A dropped write of a B register while BUSY = 1 sets OVR (10_state.md R30). -/
def State.flagOverrun (s : State) : State := { s with ovr := true }

end Sys2Proof.Machine
end

