-- ==== Sys2Proof/Machine/Operands.lean ====
section
/-! DEFINITION. The operand forms: bit strings and codewords, symbol words and format tags, big-endian byte fields, the
on-block operands of a command, and the host's views of the memories. -/

namespace Sys2Proof.Machine

/-! ## Bit strings (00_scope.md R10) -/

/-- The number whose binary digits, most significant first, are the string (30_encoding.md R98). -/
def bitsVal (b : Bits) : Nat := b.foldl (fun acc x => 2 * acc + x.toNat) 0

/-- `code_of(len, val)`: the `len`-bit string of `val`, most significant bit first (30_encoding.md R98). -/
def codeOf (len val : Nat) : Bits := (List.range len).map (fun k => val.testBit (len - 1 - k))

/-- `bits8(b)`: the 8-bit string of a byte, most significant bit first (00_scope.md R10, 20_memory.md R65). -/
def bits8 (b : Byte) : Bits := codeOf 8 b.toNat

/-- `bytes_of(s)`: each 8 bits, most significant first, into one byte (00_scope.md R10). -/
def bytesOf : Bits → List Byte
  | b0 :: b1 :: b2 :: b3 :: b4 :: b5 :: b6 :: b7 :: rest =>
    BitVec.ofNat 8 (bitsVal [b0, b1, b2, b3, b4, b5, b6, b7]) :: bytesOf rest
  | _ => []

/-- `zeros(n)` (00_scope.md R10). -/
def zeros (n : Nat) : Bits := List.replicate n false

/-! ## Codewords in CODE (30_encoding.md R98, 10_state.md R50) -/

/-- The codeword that an entry holds. -/
def CodeEntry.bits (e : CodeEntry) : Bits := codeOf e.len.toNat e.val.toNat

/-- The entry that holds codeword `c` for symbol `s`. -/
def codeEntry (s : Symbol) (c : Bits) : CodeEntry :=
  { sym := s, len := BitVec.ofNat 7 c.length, val := BitVec.ofNat 64 (bitsVal c) }

/-- symbol → code: the first entry whose zero-extended symbol equals all 32 bits of the word (43_bit_packer.md R171). -/
def findBySym (table : List CodeEntry) (w : Word) : Option CodeEntry :=
  table.find? (fun e => e.sym.setWidth 32 == w)

/-- code → symbol: the first entry with the string's length and value (44_bit_unpacker.md R193). -/
def findByCode (table : List CodeEntry) (c : Bits) : Option CodeEntry :=
  table.find? (fun e => e.len.toNat == c.length && e.val.toNat == bitsVal c)

/-! ## Symbol words and format tags (30_encoding.md R94 to R97) -/

/-- The symbol value `w[23:0]`. -/
def symbolOf (w : Word) : Symbol := w.extractLsb' 0 24

/-- `w[31:24] = 0` (30_encoding.md R94). -/
def wellFormedSymbolWord (w : Word) : Bool := w.extractLsb' 24 8 == 0#8

/-- The text tag (30_encoding.md R97). -/
def tagText : Byte := 0x00#8

/-- The pixel tag (30_encoding.md R97). -/
def tagPixels : Byte := 0x01#8

/-- A recognised format tag (30_encoding.md R97). -/
def knownTag (t : Byte) : Bool := t == tagText || t == tagPixels

/-- A symbol value is valid for a tag: text symbols are at most 0x10FFFF, every pixel is valid (30_encoding.md R95, R96). -/
def validSymbol (t : Byte) (s : Symbol) : Bool := !(t == tagText && decide (0x10FFFF < s.toNat))

/-- What COUNT's validation pass asks of a SYM word (41_frequency.md R120). -/
def validSymbolWord (t : Byte) (w : Word) : Bool := wellFormedSymbolWord w && validSymbol t (symbolOf w)

/-! ## Big-endian fields (30_encoding.md R99, 20_memory.md R64) -/

/-- `be_n(v)`: the n-byte big-endian encoding. -/
def beBytes (n v : Nat) : List Byte := (List.range n).map (fun i => BitVec.ofNat 8 (v / 256 ^ (n - 1 - i)))

/-- `be(bytes)`: the big-endian unsigned value. -/
def beVal (bs : List Byte) : Nat := bs.foldl (fun acc b => 256 * acc + b.toNat) 0

/-- `xor(bytes)` (45_container.md). -/
def xorBytes (bs : List Byte) : Byte := bs.foldl (· ^^^ ·) 0#8

/-- `ceil(a/8)` (00_scope.md R9). -/
def ceilDiv8 (a : Nat) : Nat := (a + 7) / 8

/-! ## The implicit operands of the commands -/

/-- SYM[0 .. N_LEN-1]. -/
def State.symbols (s : State) : List Word := s.sym.slice s.nLen.toNat

/-- FREQ[0 .. K_CNT-1]. -/
def State.freqTable (s : State) : List FreqEntry := s.freq.slice s.kCnt.toNat

/-- CODE[0 .. K_CNT-1]. -/
def State.codeTable (s : State) : List CodeEntry := s.code.slice s.kCnt.toNat

/-- PAY[0 .. PAY_LEN-1]. -/
def State.payload (s : State) : List Byte := s.pay.slice s.payLen.toNat

/-- CONT[0 .. CONT_LEN-1]. -/
def State.container (s : State) : List Byte := s.cont.slice s.contLen.toNat

/-- OUT[0 .. OUT_LEN-1]. -/
def State.decoded (s : State) : List Word := s.out.slice s.outLen.toNat

/-! ## The host's views of the memories (20_memory.md R66 to R71) -/

/-- The SYM view: all 32 bits of an element, 0 beyond the capacity (20_memory.md R66). -/
def viewSym (s : State) (j : Nat) : Word := if j < s.cfg.maxN then s.sym.read j else 0#32

/-- The FREQ view: two words an entry, masked by FV and K_CNT (20_memory.md R67). -/
def viewFreq (s : State) (j : Nat) : Word :=
  if s.fv && decide (j / 2 < s.kCnt.toNat) then
    (if j % 2 = 0 then (s.freq.read (j / 2)).sym.setWidth 32 else (s.freq.read (j / 2)).count)
  else 0#32

/-- The CODE view: four words an entry, masked by CV and K_CNT (20_memory.md R68). -/
def viewCode (s : State) (j : Nat) : Word :=
  if s.cv && decide (j / 4 < s.kCnt.toNat) then
    match j % 4 with
    | 0 => (s.code.read (j / 4)).sym.setWidth 32
    | 1 => (s.code.read (j / 4)).len.setWidth 32
    | 2 => (s.code.read (j / 4)).val.extractLsb' 32 32
    | _ => (s.code.read (j / 4)).val.extractLsb' 0 32
  else 0#32

/-- The PAY view: a byte in bits 7:0, masked by PV and PAY_LEN (20_memory.md R64, R69). -/
def viewPay (s : State) (j : Nat) : Word :=
  if s.pv && decide (j < s.payLen.toNat) then (s.pay.read j).setWidth 32 else 0#32

/-- The CONT view: a byte in bits 7:0, unmasked, 0 beyond the capacity (20_memory.md R64, R70). -/
def viewCont (s : State) (j : Nat) : Word := if j < s.cfg.maxCont then (s.cont.read j).setWidth 32 else 0#32

/-- The OUT view: a symbol word, masked by OV and OUT_LEN (20_memory.md R71). -/
def viewOut (s : State) (j : Nat) : Word :=
  if s.ov && decide (j < s.outLen.toNat) then s.out.read j else 0#32

/-- `view(WIN_SEL, WIN_IDX)` (20_memory.md R74); WIN_SEL 6 and 7 select no memory (R71). -/
def State.windowView (s : State) : Word :=
  match s.winSel.toNat with
  | 0 => viewSym s s.winIdx.toNat
  | 1 => viewFreq s s.winIdx.toNat
  | 2 => viewCode s s.winIdx.toNat
  | 3 => viewPay s s.winIdx.toNat
  | 4 => viewCont s s.winIdx.toNat
  | 5 => viewOut s s.winIdx.toNat
  | _ => 0#32

/-- The store of a WIN_DATA write (20_memory.md R75): SYM takes all 32 bits, CONT takes `data[7:0]`, nothing else stores. -/
def State.windowStore (s : State) (data : Word) : State :=
  match s.winSel.toNat with
  | 0 => if s.winIdx.toNat < s.cfg.maxN then { s with sym := s.sym.write s.winIdx.toNat data } else s
  | 4 => if s.winIdx.toNat < s.cfg.maxCont then { s with cont := s.cont.write s.winIdx.toNat (data.setWidth 8) } else s
  | _ => s

end Sys2Proof.Machine
end

