-- ==== Sys2Proof/Machine/Bus.lean ====
section
/-! DEFINITION. The register bus: the register map, host reads and writes, and the reset input. -/

namespace Sys2Proof.Machine

/-- The registers, in the map's order (10_state.md R22). -/
def Reg.all : List Reg :=
  [ .id, .version, .capN, .capK, .capClen, .capPay, .capCont, .cmd, .status, .irqEn, .irqStat, .errInfo,
    .format, .nLen, .shape0, .shape1, .shape2, .contLen, .kCnt, .payLen, .pad, .encBits, .outLen,
    .winSel, .winIdx, .winData ]

/-- The byte offset of a register (10_state.md R22). -/
def Reg.offset : Reg → BitVec 12
  | .id => 0x000#12
  | .version => 0x004#12
  | .capN => 0x008#12
  | .capK => 0x00C#12
  | .capClen => 0x010#12
  | .capPay => 0x014#12
  | .capCont => 0x018#12
  | .cmd => 0x020#12
  | .status => 0x024#12
  | .irqEn => 0x028#12
  | .irqStat => 0x02C#12
  | .errInfo => 0x030#12
  | .format => 0x040#12
  | .nLen => 0x044#12
  | .shape0 => 0x048#12
  | .shape1 => 0x04C#12
  | .shape2 => 0x050#12
  | .contLen => 0x054#12
  | .kCnt => 0x060#12
  | .payLen => 0x064#12
  | .pad => 0x068#12
  | .encBits => 0x06C#12
  | .outLen => 0x070#12
  | .winSel => 0x080#12
  | .winIdx => 0x084#12
  | .winData => 0x088#12

/-- The register an offset reaches: bits 1:0 are ignored (20_memory.md R62); `none` is reserved space (10_state.md R46). -/
def regAt (off : BitVec 12) : Option Reg :=
  Reg.all.find? (fun r => r.offset == off &&& 0xFFC#12)

/-- The registers marked B: a write is dropped while BUSY = 1 (10_state.md R22, R30; 70_reset_and_hazards.md R304). -/
def Reg.locked : Reg → Bool
  | .cmd | .format | .nLen | .shape0 | .shape1 | .shape2 | .contLen | .winSel | .winIdx | .winData => true
  | .id | .version | .capN | .capK | .capClen | .capPay | .capCont | .status | .irqEn | .irqStat | .errInfo
  | .kCnt | .payLen | .pad | .encBits | .outLen => false

/-- The word a read of a register returns (10_state.md R23 to R45). -/
def readReg (s : State) : Reg → Word
  | .id => blockId
  | .version => blockVersion
  | .capN => BitVec.ofNat 32 s.cfg.maxN
  | .capK => BitVec.ofNat 32 s.cfg.maxK
  | .capClen => BitVec.ofNat 32 s.cfg.maxCodeLen
  | .capPay => BitVec.ofNat 32 s.cfg.maxPay
  | .capCont => BitVec.ofNat 32 s.cfg.maxCont
  | .cmd => 0#32
  | .status => s.statusWord
  | .irqEn => s.irqEnWord
  | .irqStat => s.irqStatWord
  | .errInfo => s.errInfo
  | .format => s.tag.setWidth 32
  | .nLen => s.nLen
  | .shape0 => s.shape0
  | .shape1 => s.shape1
  | .shape2 => s.shape2
  | .contLen => s.contLen
  | .kCnt => s.kCnt
  | .payLen => s.payLen
  | .pad => s.pad.setWidth 32
  | .encBits => s.encBits
  | .outLen => s.outLen
  | .winSel => s.winSel.setWidth 32
  | .winIdx => s.winIdx
  | .winData => if s.busy then 0#32 else s.windowView

/-- `WIN_IDX <- (WIN_IDX + 1) mod 2^32` (20_memory.md R76). -/
def State.bumpIndex (s : State) : State := { s with winIdx := s.winIdx + 1#32 }

/-- The side effect of a read: WIN_DATA while BUSY = 0 increments WIN_IDX, every other read has none (20_memory.md R74,
R76, R78). -/
def afterRead (s : State) : Reg → State
  | .winData => if s.busy then s else s.bumpIndex
  | .id | .version | .capN | .capK | .capClen | .capPay | .capCont | .cmd | .status | .irqEn | .irqStat | .errInfo
  | .format | .nLen | .shape0 | .shape1 | .shape2 | .contLen | .kCnt | .payLen | .pad | .encBits | .outLen
  | .winSel | .winIdx => s

/-- What an accepted write of a register does; read-only registers ignore it (10_state.md R22, R46). -/
def writeReg (s : State) (r : Reg) (data : Word) : State :=
  match r with
  | .cmd => s.accept data
  | .status => s.clearOverrun data
  | .irqEn => { s with doneEn := data.getLsbD 0 }
  | .irqStat => s.acknowledge data
  | .format => { s with tag := data.setWidth 8 }
  | .nLen => { s with nLen := data }
  | .shape0 => { s with shape0 := data }
  | .shape1 => { s with shape1 := data }
  | .shape2 => { s with shape2 := data }
  | .contLen => { s with contLen := data }
  | .winSel => { s with winSel := data.setWidth 3 }
  | .winIdx => { s with winIdx := data }
  | .winData => (s.windowStore data).bumpIndex
  | .id | .version | .capN | .capK | .capClen | .capPay | .capCont | .errInfo
  | .kCnt | .payLen | .pad | .encBits | .outLen => s

/-- A host read: the data goes to `rdata` (log entry 5); reserved offsets read 0 (20_memory.md R61 to R63, R74). -/
def busRead (s : State) (off : BitVec 12) : State :=
  match regAt off with
  | none => { s with rdata := 0#32 }
  | some r => { afterRead s r with rdata := readReg s r }

/-- A host write: dropped with OVR <- 1 if the register is marked B and BUSY = 1; no effect at a reserved offset
(10_state.md R30, R46; 20_memory.md R63). -/
def busWrite (s : State) (off : BitVec 12) (data : Word) : State :=
  match regAt off with
  | none => s
  | some r => if r.locked && s.busy then s.flagOverrun else writeReg s r data

/-- One HOST step (00_scope.md R6, 20_memory.md R61). -/
def hostStep (s : State) : HostAccess → State
  | .read off => busRead s off
  | .write off data => busWrite s off data

/-- The reset input (70_reset_and_hazards.md R300): the pending command is abandoned, every register and flag takes its
reset value, the constants stay, and the memories hold `c`, which nothing constrains (R302). The schedule still to come
is the environment's and stays (log entry 1). -/
def resetStep (s : State) (c : Contents) : State :=
  { State.reset with
    cfg := s.cfg
    input := s.input
    sym := Mem.ofPairs s.cfg.maxN c.sym
    freq := Mem.ofPairs s.cfg.maxK c.freq
    code := Mem.ofPairs s.cfg.maxK c.code
    pay := Mem.ofPairs s.cfg.maxPay c.pay
    cont := Mem.ofPairs s.cfg.maxCont c.cont
    out := Mem.ofPairs s.cfg.maxN c.out }

end Sys2Proof.Machine
end

