-- ==== Sys2Proof/Machine/BitPacker.lean ====
section
/-! DEFINITION. The symbol-to-codeword translator and bit packer: PACK (43_bit_packer.md). -/

namespace Sys2Proof.Machine

/-- The concatenated codes of the words, in order, or the index of the first word without a code, counted from `i`
(43_bit_packer.md R171, R172). -/
def translate (table : List CodeEntry) : Nat → List Word → Except Nat Bits
  | _, [] => .ok []
  | i, w :: ws =>
    match findBySym table w with
    | none => .error i
    | some e =>
      match translate table (i + 1) ws with
      | .error j => .error j
      | .ok rest => .ok (e.bits ++ rest)

/-- `extra = 8 - (len(encoded) mod 8)` (43_bit_packer.md R173). -/
def paddingCount (encLen : Nat) : Nat := 8 - encLen % 8

/-- The packed bytes: `bytes_of(bits8(extra) ++ encoded ++ zeros(extra))` (43_bit_packer.md R174, 30_encoding.md R107). -/
def packBytes (enc : Bits) : List Byte :=
  bytesOf (bits8 (BitVec.ofNat 8 (paddingCount enc.length)) ++ enc ++ zeros (paddingCount enc.length))

/-- P, the payload length in bytes (43_bit_packer.md R174). -/
def payloadLength (encLen : Nat) : Nat := 1 + (encLen + paddingCount encLen) / 8

/-- PACK's computation: `encoded`, or the first failing check in the order of 43_bit_packer.md R170. -/
def packResult (s : State) : Except Reason Bits :=
  if !s.cv then .error { code := .sequenceError, info := 0#32 }
  else if s.nLen = 0#32 then .error { code := .emptyInput, info := 0#32 }
  else if s.cfg.maxN < s.nLen.toNat then .error { code := .capacity, info := 0#32 }
  else
    match translate s.codeTable 0 s.symbols with
    | .error i => .error { code := .unencodableSymbol, info := BitVec.ofNat 32 i }
    | .ok enc =>
      if s.cfg.maxPay < payloadLength enc.length then .error { code := .capacity, info := 0#32 }
      else .ok enc

/-- PACK's commit (43_bit_packer.md R170, R176). -/
def commitPack (s : State) (enc : Bits) : State :=
  s.commitPay (packBytes enc) (paddingCount enc.length) enc.length

/-- The PACK stage (43_bit_packer.md R170; sets of 10_state.md R48). -/
def runPack (s : State) : Completion :=
  stage (opcode .pack) State.invalidatePay (packResult s) commitPack s

/-- PACK (43_bit_packer.md R170). -/
def execPack (s : State) : Host.Outcome State Fault Refusal := .next (complete (runPack s))

end Sys2Proof.Machine
end

