-- ==== Sys2Proof/Machine/BitUnpacker.lean ====
section
/-! DEFINITION. The bit unpacker and decoder: UNPACK (44_bit_unpacker.md). -/

namespace Sys2Proof.Machine

/-- The decode loop (44_bit_unpacker.md R193 to R195): append a bit, look the accumulator up, on a hit emit the symbol and
empty the accumulator; more than `maxN` symbols is CAPACITY, leftover bits are CORRUPT_CONTAINER. -/
def decodeLoop (table : List CodeEntry) (maxN : Nat) : Bits → List Word → Bits → Except ErrCode (List Word)
  | acc, out, [] => if acc = [] then .ok out else .error .corruptContainer
  | acc, out, b :: rest =>
    match findByCode table (acc ++ [b]) with
    | none => decodeLoop table maxN (acc ++ [b]) out rest
    | some e =>
      if out.length = maxN then .error .capacity
      else decodeLoop table maxN [] (out ++ [e.sym.setWidth 32]) rest

/-- The header byte of a payload, PAY[0] (44_bit_unpacker.md R191). -/
def payloadHeader (bytes : List Byte) : Nat := (bytes.headD 0#8).toNat

/-- The bits after the header byte, MSB first (44_bit_unpacker.md R190). -/
def payloadBits (bytes : List Byte) : Bits := bytes.tail.flatMap bits8

/-- `enc`: the bits after the header, without the trailing `h` (44_bit_unpacker.md R192). -/
def encodedBits (bytes : List Byte) : Bits :=
  (payloadBits bytes).take (8 * (bytes.length - 1) - payloadHeader bytes)

/-- The decode of a payload under a code table: the header checks (44_bit_unpacker.md R191), then the loop (R193). -/
def unpackBytes (table : List CodeEntry) (maxN : Nat) (bytes : List Byte) : Except ErrCode (List Word) :=
  if 8 < payloadHeader bytes then .error .corruptContainer
  else if 8 * (bytes.length - 1) < payloadHeader bytes then .error .corruptContainer
  else decodeLoop table maxN [] [] (encodedBits bytes)

/-- UNPACK's computation (44_bit_unpacker.md R190); ERR_INFO is 0 always. -/
def unpackResult (s : State) : Except Reason (List Word) :=
  if !(s.cv && s.pv) then .error { code := .sequenceError, info := 0#32 }
  else
    match unpackBytes s.codeTable s.cfg.maxN s.payload with
    | .error c => .error { code := c, info := 0#32 }
    | .ok out => .ok out

/-- The UNPACK stage (44_bit_unpacker.md R190; sets of 10_state.md R48). -/
def runUnpack (s : State) : Completion :=
  stage (opcode .unpack) State.invalidateOut (unpackResult s) State.commitOut s

/-- UNPACK (44_bit_unpacker.md R190). -/
def execUnpack (s : State) : Host.Outcome State Fault Refusal := .next (complete (runUnpack s))

end Sys2Proof.Machine
end

