-- ==== Sys2Proof/Machine/Container.lean ====
section
/-! DEFINITION. The container: SERIALIZE and PARSE (45_container.md, layout of 30_encoding.md R99 to R106). -/

namespace Sys2Proof.Machine

/-- MAGIC, ASCII "HUFZ" (30_encoding.md R99). -/
def magicBytes : List Byte := [0x48#8, 0x55#8, 0x46#8, 0x5A#8]

/-- The container version VER (30_encoding.md R100). -/
def containerVersion : Byte := 0x01#8

/-- FLAGS.SHAPE_PRESENT as the tag asks for it: 1 exactly for pixels (30_encoding.md R100). -/
def shapeFlag (t : Byte) : Byte := if t = tagPixels then 0x01#8 else 0x00#8

/-! ## SERIALIZE -/

/-- CODEB: the code left-aligned in `ceil(len/8)` bytes, trailing bits 0 (30_encoding.md R103). -/
def codeBytes (len val : Nat) : List Byte := beBytes (ceilDiv8 len) (val * 2 ^ (8 * ceilDiv8 len - len))

/-- One code entry of the container: SYM, LEN, CODEB (30_encoding.md R103). -/
def entryBytes (e : CodeEntry) : List Byte :=
  beBytes 3 e.sym.toNat ++ [e.len.setWidth 8] ++ codeBytes e.len.toNat e.val.toNat

/-- The SHAPE field, present only for pixels (30_encoding.md R101). -/
def shapeBytes (t : Byte) (w h c : Word) : List Byte :=
  if t = tagPixels then beBytes 4 w.toNat ++ beBytes 4 h.toNat ++ beBytes 4 c.toNat else []

/-- The container up to its check byte (45_container.md R210, R211). -/
def containerBody (t : Byte) (w h c : Word) (table : List CodeEntry) (payload : List Byte) : List Byte :=
  magicBytes ++ [containerVersion, t, shapeFlag t, payload.headD 0#8] ++ shapeBytes t w h c ++
  beBytes 4 table.length ++ table.flatMap entryBytes ++ beBytes 4 payload.length ++ payload

/-- The check byte CHK is the XOR of all bytes before it (30_encoding.md R105). -/
def withCheckByte (body : List Byte) : List Byte := body ++ [xorBytes body]

/-- The container that SERIALIZE writes for the state (45_container.md R210). -/
def containerOf (s : State) : List Byte :=
  withCheckByte (containerBody s.tag s.shape0 s.shape1 s.shape2 s.codeTable s.payload)

/-- SERIALIZE's computation, the checks in pseudocode order (45_container.md R210, R212, R213). -/
def serializeResult (s : State) : Except Reason (List Byte) :=
  if !(s.cv && s.pv) then .error { code := .sequenceError, info := 0#32 }
  else if !knownTag s.tag then .error { code := .unsupportedFormat, info := 0#32 }
  else
    match s.codeTable.findIdx? (fun e => !validSymbol s.tag e.sym) with
    | some k => .error { code := .invalidSymbol, info := BitVec.ofNat 32 k }
    | none =>
      if s.cfg.maxCont < (containerOf s).length then .error { code := .capacity, info := 0#32 }
      else .ok (containerOf s)

/-- The SERIALIZE stage (45_container.md R210; sets of 10_state.md R48). -/
def runSerialize (s : State) : Completion :=
  stage (opcode .serialize) State.invalidateCont (serializeResult s) State.commitCont s

/-- SERIALIZE (45_container.md R210). -/
def execSerialize (s : State) : Host.Outcome State Fault Refusal := .next (complete (runSerialize s))

/-! ## PARSE -/

/-- The header fields of a container: TAG, PADF and SHAPE, which is (0, 0, 0) for text (45_container.md R220). -/
structure Header where
  tag : Byte
  padf : Byte
  shape0 : Word
  shape1 : Word
  shape2 : Word
  deriving DecidableEq, Repr

/-- What a successful PARSE commits (45_container.md R227). -/
structure Parsed where
  header : Header
  table : List CodeEntry
  payload : List Byte
  deriving DecidableEq, Repr

/-- `take(n)`: the next n of the bytes before the check byte, and what remains; a field that reaches further is a truncated
blob (45_container.md R222). -/
def takeBytes (n : Nat) (bs : List Byte) : Except ErrCode (List Byte × List Byte) :=
  if bs.length < n then .error .corruptContainer else .ok (bs.take n, bs.drop n)

/-- A big-endian field of n bytes. -/
def takeNat (n : Nat) (bs : List Byte) : Except ErrCode (Nat × List Byte) :=
  match takeBytes n bs with
  | .error c => .error c
  | .ok (f, rest) => .ok (beVal f, rest)

/-- `if not cond: raise Fail(code, 0)` (00_scope.md R11). -/
def requireThat (cond : Bool) (code : ErrCode) : Except ErrCode Unit :=
  if cond then .ok () else .error code

/-- The SHAPE field, read only if SHAPE_PRESENT = 1 (45_container.md R220). -/
def parseShape (tag : Byte) (bs : List Byte) : Except ErrCode ((Nat × Nat × Nat) × List Byte) :=
  if tag = tagPixels then do
    let (w, bs) ← takeNat 4 bs
    let (h, bs) ← takeNat 4 bs
    let (c, bs) ← takeNat 4 bs
    .ok ((w, h, c), bs)
  else .ok ((0, 0, 0), bs)

/-- MAGIC to SHAPE, the checks in field order (45_container.md R220, R222, R223). -/
def parseHeader (bs : List Byte) : Except ErrCode (Header × List Byte) := do
  let (magic, bs) ← takeBytes 4 bs
  requireThat (magic == magicBytes) .corruptContainer
  let (ver, bs) ← takeBytes 1 bs
  requireThat (ver == [containerVersion]) .corruptContainer
  let (tagField, bs) ← takeBytes 1 bs
  let tag := tagField.headD 0#8
  requireThat (knownTag tag) .unsupportedFormat
  let (flagsField, bs) ← takeBytes 1 bs
  let flags := flagsField.headD 0#8
  requireThat (flags.extractLsb' 1 7 == 0#7) .corruptContainer
  requireThat (flags.getLsbD 0 == (tag == tagPixels)) .corruptContainer
  let (padField, bs) ← takeBytes 1 bs
  let padf := padField.headD 0#8
  requireThat (decide (padf.toNat ≤ 8)) .corruptContainer
  let ((w, h, c), bs) ← parseShape tag bs
  .ok ({ tag := tag, padf := padf, shape0 := BitVec.ofNat 32 w, shape1 := BitVec.ofNat 32 h,
         shape2 := BitVec.ofNat 32 c }, bs)

/-- One code entry (45_container.md R220, R224; 30_encoding.md R103). -/
def parseEntry (maxCodeLen : Nat) (tag : Byte) (bs : List Byte) : Except ErrCode (CodeEntry × List Byte) := do
  let (sym, bs) ← takeNat 3 bs
  requireThat (validSymbol tag (BitVec.ofNat 24 sym)) .corruptContainer
  let (len, bs) ← takeNat 1 bs
  requireThat (decide (len ≠ 0) && decide (len ≤ 64)) .corruptContainer
  requireThat (decide (len ≤ maxCodeLen)) .capacity
  let (v, bs) ← takeNat (ceilDiv8 len) bs
  requireThat (decide (v % 2 ^ (8 * ceilDiv8 len - len) = 0)) .corruptContainer
  .ok ({ sym := BitVec.ofNat 24 sym, len := BitVec.ofNat 7 len,
         val := BitVec.ofNat 64 (v / 2 ^ (8 * ceilDiv8 len - len)) }, bs)

/-- `k` code entries, in order (45_container.md R220). -/
def parseEntries (maxCodeLen : Nat) (tag : Byte) : Nat → List Byte → Except ErrCode (List CodeEntry × List Byte)
  | 0, bs => .ok ([], bs)
  | k + 1, bs => do
    let (e, bs) ← parseEntry maxCodeLen tag bs
    let (es, bs) ← parseEntries maxCodeLen tag k bs
    .ok (e :: es, bs)

/-- No two entries hold the same symbol (45_container.md R224). -/
def distinctSymbols (table : List CodeEntry) : Bool := decide ((table.map (·.sym)).Nodup)

/-- Of two entries, neither code begins the other (`prefix` of 00_scope.md R10, 45_container.md R224). -/
def codesApart (a b : CodeEntry) : Bool := !a.bits.isPrefixOf b.bits && !b.bits.isPrefixOf a.bits

/-- No two entries hold codes of which one begins the other (45_container.md R224). -/
def prefixFree (table : List CodeEntry) : Bool := decide (table.Pairwise (fun a b => codesApart a b = true))

/-- The bytes before the check byte, field by field in container order, then the whole-table checks, then the payload
checks, then trailing bytes (45_container.md R220, R224 to R226). -/
def parseBody (cfg : Config) (bs : List Byte) : Except ErrCode Parsed := do
  let (header, bs) ← parseHeader bs
  let (k, bs) ← takeNat 4 bs
  requireThat (decide (k ≠ 0)) .corruptContainer
  requireThat (decide (k ≤ cfg.maxK)) .capacity
  let (table, bs) ← parseEntries cfg.maxCodeLen header.tag k bs
  requireThat (distinctSymbols table) .corruptContainer
  requireThat (prefixFree table) .corruptContainer
  let (p, bs) ← takeNat 4 bs
  requireThat (decide (p ≠ 0)) .corruptContainer
  requireThat (decide (p ≤ cfg.maxPay)) .capacity
  let (payload, bs) ← takeBytes p bs
  requireThat (payload.headD 0#8 == header.padf) .corruptContainer
  requireThat bs.isEmpty .corruptContainer
  .ok { header := header, table := table, payload := payload }

/-- A container: the check byte first (45_container.md R221), then the fields. -/
def parseContainer (cfg : Config) (bytes : List Byte) : Except ErrCode Parsed :=
  if bytes = [] ∨ xorBytes bytes ≠ 0#8 then .error .corruptContainer
  else parseBody cfg bytes.dropLast

/-- PARSE's computation: the length capacity, then the container (45_container.md R220, R221); ERR_INFO is 0 always. -/
def parseResult (s : State) : Except Reason Parsed :=
  if s.cfg.maxCont < s.contLen.toNat then .error { code := .capacity, info := 0#32 }
  else
    match parseContainer s.cfg s.container with
    | .error c => .error { code := c, info := 0#32 }
    | .ok r => .ok r

/-- PARSE's commit set (45_container.md R227). -/
def commitParsed (s : State) (r : Parsed) : State :=
  { s with
    tag := r.header.tag, shape0 := r.header.shape0, shape1 := r.header.shape1, shape2 := r.header.shape2
    code := s.code.writeFrom 0 r.table, kCnt := BitVec.ofNat 32 r.table.length
    pay := s.pay.writeFrom 0 r.payload, payLen := BitVec.ofNat 32 r.payload.length, pad := r.header.padf
    cv := true, pv := true }

/-- The PARSE stage (45_container.md R220; sets of 10_state.md R48). -/
def runParse (s : State) : Completion :=
  stage (opcode .parse) State.invalidateFreq (parseResult s) commitParsed s

/-- PARSE (45_container.md R220). -/
def execParse (s : State) : Host.Outcome State Fault Refusal := .next (complete (runParse s))

end Sys2Proof.Machine
end

