-- ==== Sys2Proof/Machine/Frequency.lean ====
section
/-! DEFINITION. The frequency counter: COUNT (41_frequency.md). -/

namespace Sys2Proof.Machine

/-- One step of the counting pass for a symbol that the table holds: its count is incremented (41_frequency.md R120). -/
def bumpCount (t : List FreqEntry) (s : Symbol) : List FreqEntry :=
  t.map (fun e => if e.sym = s then { e with count := e.count + 1#32 } else e)

/-- The counting pass: symbols in order, a new symbol appended with count 1, `none` when a symbol beyond `maxK` distinct
ones arrives (41_frequency.md R120, R123). -/
def countInto (maxK : Nat) : List FreqEntry → List Symbol → Option (List FreqEntry)
  | t, [] => some t
  | t, s :: rest =>
    if t.any (fun e => e.sym == s) then countInto maxK (bumpCount t s) rest
    else if t.length = maxK then none
    else countInto maxK (t ++ [{ sym := s, count := 1#32 }]) rest

/-- COUNT's computation: the checks in the order of 41_frequency.md R121, then the table (R120). -/
def countResult (s : State) : Except Reason (List FreqEntry) :=
  if !knownTag s.tag then .error { code := .unsupportedFormat, info := 0#32 }
  else if s.nLen = 0#32 then .error { code := .emptyInput, info := 0#32 }
  else if s.cfg.maxN < s.nLen.toNat then .error { code := .capacity, info := 0#32 }
  else
    match s.symbols.findIdx? (fun w => !validSymbolWord s.tag w) with
    | some i => .error { code := .invalidSymbol, info := BitVec.ofNat 32 i }
    | none =>
      match countInto s.cfg.maxK [] (s.symbols.map symbolOf) with
      | none => .error { code := .capacity, info := 0#32 }
      | some t => .ok t

/-- The COUNT stage (41_frequency.md R120; sets of 10_state.md R48). -/
def runCount (s : State) : Completion :=
  stage (opcode .count) State.invalidateFreq (countResult s) State.commitFreq s

/-- COUNT (41_frequency.md R120). -/
def execCount (s : State) : Host.Outcome State Fault Refusal := .next (complete (runCount s))

end Sys2Proof.Machine
end

