-- ==== Sys2Proof/Machine/TreeBuilder.lean ====
section
/-! DEFINITION. The tree builder: BUILD, the greedy two-smallest-merge reduction and the codes (42_tree_builder.md). -/

namespace Sys2Proof.Machine

/-- A node of the code tree, local to one completion (10_state.md R52): a leaf holds a symbol, an internal node two
children; each has a frequency and a sequence number. -/
inductive Tree where
  | leaf (sym : Symbol) (freq seq : Nat)
  | node (freq seq : Nat) (left right : Tree)
  deriving DecidableEq, Repr

/-- The frequency of a node. -/
def treeFreq : Tree → Nat
  | .leaf _ f _ => f
  | .node f _ _ _ => f

/-- The sequence number of a node. -/
def treeSeq : Tree → Nat
  | .leaf _ _ q => q
  | .node _ q _ _ => q

/-- The key order: `(f1, s1) < (f2, s2)`, lexicographically (42_tree_builder.md R142). -/
def keyBefore (a b : Tree) : Bool :=
  decide (treeFreq a < treeFreq b) || (treeFreq a == treeFreq b && decide (treeSeq a < treeSeq b))

/-- `Q.insert`: the queue is kept in key order, so `pop_min` takes its head (42_tree_builder.md R142). -/
def queueInsert (t : Tree) : List Tree → List Tree
  | [] => [t]
  | u :: q => if keyBefore t u then t :: u :: q else u :: queueInsert t q

/-- The leaves: leaf k holds entry k's symbol and count and has sequence number k (42_tree_builder.md R141). -/
def leaves (table : List FreqEntry) : List Tree :=
  table.mapIdx (fun k e => .leaf e.sym e.count.toNat k)

/-- The queue after every leaf, in index order, has been inserted (42_tree_builder.md R141). -/
def initialQueue (table : List FreqEntry) : List Tree :=
  (leaves table).foldl (fun q t => queueInsert t q) []

/-- The merge step: the first popped is the left child, the second the right, the frequency is the sum
(42_tree_builder.md R143). -/
def mergeNodes (nextSeq : Nat) (a b : Tree) : Tree := .node (treeFreq a + treeFreq b) nextSeq a b

/-- The reduction loop, `while |Q| > 1` (42_tree_builder.md R143, R144); `fuel` bounds the number of merges. -/
def reduceQueue : Nat → Nat → List Tree → List Tree
  | fuel + 1, nextSeq, a :: b :: q => reduceQueue fuel (nextSeq + 1) (queueInsert (mergeNodes nextSeq a b) q)
  | _, _, q => q

/-- The queue after the loop: for K ≥ 1 entries exactly one node, the root (42_tree_builder.md R144). -/
def finalQueue (table : List FreqEntry) : List Tree :=
  reduceQueue table.length table.length (initialQueue table)

/-- `path(root, k)`: "0" for each step left, "1" for each step right, to the leaf with sequence number k
(42_tree_builder.md R146). -/
def treePath : Tree → Nat → Option Bits
  | .leaf _ _ q, k => if q = k then some [] else none
  | .node _ _ l r, k =>
    match treePath l k with
    | some p => some (false :: p)
    | none => (treePath r k).map (true :: ·)

/-- The codes of the leaves 0 .. K-1 from the root. -/
def treeCodes (k : Nat) : List Tree → List Bits
  | root :: _ => (List.range k).map (fun i => (treePath root i).getD [])
  | [] => []

/-- The codes of a frequency table's entries: "0" for a single symbol (42_tree_builder.md R145), else the paths (R146). -/
def huffmanCodes (table : List FreqEntry) : List Bits :=
  match table with
  | [_] => [[false]]
  | _ => treeCodes table.length (finalQueue table)

/-- BUILD's computation (42_tree_builder.md R140, R147). -/
def buildResult (s : State) : Except Reason (List CodeEntry) :=
  if !s.fv then .error { code := .sequenceError, info := 0#32 }
  else if (huffmanCodes s.freqTable).any (fun c => decide (s.cfg.maxCodeLen < c.length)) then
    .error { code := .capacity, info := 0#32 }
  else .ok (List.zipWith (fun e c => codeEntry e.sym c) s.freqTable (huffmanCodes s.freqTable))

/-- The BUILD stage (42_tree_builder.md R140; sets of 10_state.md R48). -/
def runBuild (s : State) : Completion :=
  stage (opcode .build) State.invalidateCode (buildResult s) State.commitCode s

/-- BUILD (42_tree_builder.md R140). -/
def execBuild (s : State) : Host.Outcome State Fault Refusal := .next (complete (runBuild s))

end Sys2Proof.Machine
end

