-- ==== Sys2Proof/Machine/Control.lean ====
section
/-! DEFINITION. The control commands: NOP, CLEAR, COMPRESS, DECOMPRESS, and illegal words (46_control.md). -/

namespace Sys2Proof.Machine

/-- NOP: no effect beyond the completion (46_control.md R250). -/
def execNop (s : State) : Host.Outcome State Fault Refusal :=
  .next (complete { state := s, failure := none })

/-- CLEAR: the four valid bits and the five result registers become 0 (46_control.md R251). -/
def execClear (s : State) : Host.Outcome State Fault Refusal :=
  .next (complete { state := s.invalidateFreq.invalidateOut, failure := none })

/-- COMPRESS's stages after its own invalidation of CONT_LEN (46_control.md R252). -/
def runCompress (s : State) : Completion :=
  (((runCount s.invalidateCont).andThen runBuild).andThen runPack).andThen runSerialize

/-- COMPRESS (46_control.md R252). -/
def execCompress (s : State) : Host.Outcome State Fault Refusal := .next (complete (runCompress s))

/-- DECOMPRESS's stages after its own invalidation of OV and OUT_LEN (46_control.md R253). -/
def runDecompress (s : State) : Completion :=
  (runParse s.invalidateOut).andThen runUnpack

/-- DECOMPRESS (46_control.md R253). -/
def execDecompress (s : State) : Host.Outcome State Fault Refusal := .next (complete (runDecompress s))

/-- An illegal command word completes with ILLEGAL_COMMAND and `ERR_OP = w[7:0]`, and changes nothing else
(46_control.md R254, 30_encoding.md R92). -/
def execIllegal (w : Word) (s : State) : Host.Outcome State Fault Refusal :=
  .next (complete
    { state := s, failure := some { op := opField w, why := { code := .illegalCommand, info := 0#32 } } })

end Sys2Proof.Machine
end

