-- ==== Sys2Proof/Machine/Step.lean ====
section
/-! DEFINITION. The step: one HOST access, one ENGINE completion or one reset, as the schedule says. -/

namespace Sys2Proof.Machine

/-- The ENGINE step, enabled exactly when BUSY = 1 (10_state.md R47): it completes the pending word, a command by its
meaning, any other word as illegal (30_encoding.md R92). With BUSY = 0 the block is idle and keeps its state
(60_exceptions.md R282). -/
def engineStep (s : State) : Host.Outcome State Fault Refusal :=
  if s.busy then
    match decode s.fetch with
    | .ok i => exec i s
    | .error _ => execIllegal s.fetch s
  else .next s

/-- One step of the block: the next event of the schedule (20_memory.md R80). When the schedule is used up, a pending
command completes (70_reset_and_hazards.md R311: after finitely many host steps) and an idle block waits. -/
def step (s : State) : Host.Outcome State Fault Refusal :=
  match s.input with
  | [] => engineStep s
  | .engine :: rest => engineStep { s with input := rest }
  | .host a :: rest => .next (hostStep { s with input := rest } a)
  | .reset c :: rest => .next (resetStep { s with input := rest } c)

/-- The state in which the next step is the engine's and completes the word `w`: `w` is accepted as a CMD write accepts it
(10_state.md R47), and the schedule begins with an engine slot. A number that needs more than 32 bits is cut. -/
def State.withFetchWord (s : State) (nbits w : Nat) : State :=
  { s.accept (BitVec.ofNat 32 (w % 2 ^ nbits)) with input := .engine :: s.input }

end Sys2Proof.Machine
end

