-- ==== Sys2Proof/Machine/HostProgram.lean ====
section
/-! DEFINITION. The host notation and its pseudo-instructions as lists of events (30_encoding.md R109, R110). -/

namespace Sys2Proof.Machine

/-- The line `W <REG>, <value>`: the bus transaction `(write, offset, data)` (30_encoding.md R109). -/
def hostW (r : Reg) (v : Word) : Event := .host (.write r.offset v)

/-- The line `R <REG>`: the bus transaction `(read, offset)` (30_encoding.md R109). -/
def hostR (r : Reg) : Event := .host (.read r.offset)

/-- `CMD <mnemonic>` (30_encoding.md R110). -/
def hostCmd (i : Instr) : Event := hostW .cmd (encode i)

/-- `POLL` under a schedule that takes the completion after `n` reads of STATUS: those n reads find BUSY = 1, the last one
BUSY = 0 (30_encoding.md R110, 70_reset_and_hazards.md R311). -/
def hostPoll (n : Nat) : List Event := List.replicate n (hostR .status) ++ [.engine, hostR .status]

/-- `RUN <mnemonic>`: `CMD` then `POLL` (30_encoding.md R110). -/
def hostRun (i : Instr) (n : Nat) : List Event := hostCmd i :: hostPoll n

/-- `LOADSYM s0, …` (30_encoding.md R110). -/
def loadSym (l : List Word) : List Event :=
  [hostW .winSel 0#32, hostW .winIdx 0#32] ++ l.map (hostW .winData) ++ [hostW .nLen (BitVec.ofNat 32 l.length)]

/-- `LOADCONT b0, …` (30_encoding.md R110). -/
def loadCont (l : List Byte) : List Event :=
  [hostW .winSel 4#32, hostW .winIdx 0#32] ++ l.map (fun b => hostW .winData (b.setWidth 32)) ++
  [hostW .contLen (BitVec.ofNat 32 l.length)]

/-- `DUMP <sel>, n` (30_encoding.md R110). -/
def hostDump (sel : Word) (n : Nat) : List Event :=
  [hostW .winSel sel, hostW .winIdx 0#32] ++ List.replicate n (hostR .winData)

/-- `ACK` (30_encoding.md R110). -/
def hostAck : Event := hostW .irqStat 1#32

end Sys2Proof.Machine
end

