-- ==== Sys2Proof/WellFormed.lean ====
section
/-! DEFINITION. Which commands and which capacities are well-formed. -/

namespace Sys2Proof

/-- A command has no operand field (30_encoding.md R90), so there is nothing in a command to be ill-formed. -/
def Instr.wf : Instr → Bool
  | .nop | .count | .build | .pack | .serialize | .parse | .unpack | .compress | .decompress | .clear => true

/-- The constraints on the capacities (00_scope.md R7). -/
def Config.wf (c : Config) : Bool :=
  decide (1 ≤ c.maxN) && decide (c.maxN ≤ 2 ^ 32 - 1) &&
  decide (1 ≤ c.maxK) && decide (c.maxK ≤ 2 ^ 24) &&
  decide (1 ≤ c.maxCodeLen) && decide (c.maxCodeLen ≤ 64) &&
  decide (2 ≤ c.maxPay) && decide (c.maxPay ≤ 2 ^ 29 - 1) &&
  decide (1 ≤ c.maxCont) && decide (c.maxCont ≤ 2 ^ 32 - 1)

end Sys2Proof
end

