-- ==== Sys2Proof/Safety.lean ====
section
/-! DEFINITION. What holds of every state a run reaches: the invariant that claims may assume, and reachability. -/

namespace Sys2Proof.Machine

/-- A memory in canonical form whose elements lie below the capacity (20_memory.md R84). -/
abbrev MemOk {α : Type} [Inhabited α] (m : Mem α) (cap : Nat) : Prop := m.wf ∧ ∀ c ∈ m, c.1 < cap

/-- The six memories (20_memory.md R60). -/
structure MemoriesOk (s : State) : Prop where
  sym : MemOk s.sym s.cfg.maxN
  freq : MemOk s.freq s.cfg.maxK
  code : MemOk s.code s.cfg.maxK
  pay : MemOk s.pay s.cfg.maxPay
  cont : MemOk s.cont s.cfg.maxCont
  out : MemOk s.out s.cfg.maxN

/-- A frequency table as COUNT leaves one (10_state.md R49, 41_frequency.md R122): distinct symbols, positive counts, and
counts whose sum is at most MAX_N, so that no node frequency wraps (42_tree_builder.md R143). -/
structure FreqTableOk (cfg : Config) (table : List FreqEntry) : Prop where
  distinct : (table.map (·.sym)).Nodup
  positive : ∀ e ∈ table, 1 ≤ e.count.toNat
  bounded : (table.map (·.count.toNat)).sum ≤ cfg.maxN

/-- An entry of CODE: `1 ≤ len ≤ MAX_CODE_LEN` and `val < 2^len` (10_state.md R50). -/
abbrev CodeEntryOk (cfg : Config) (e : CodeEntry) : Prop :=
  1 ≤ e.len.toNat ∧ e.len.toNat ≤ cfg.maxCodeLen ∧ e.val.toNat < 2 ^ e.len.toNat

/-- A code table as the valid bit CV promises it (10_state.md R50, R51). -/
structure CodeTableOk (cfg : Config) (table : List CodeEntry) : Prop where
  entries : ∀ e ∈ table, CodeEntryOk cfg e
  distinct : distinctSymbols table = true
  apart : prefixFree table = true

/-- What the valid bits promise of the tables (10_state.md R40, R49 to R51, 42_tree_builder.md R148). -/
structure TablesOk (s : State) : Prop where
  kCnt : s.fv = true ∨ s.cv = true → 1 ≤ s.kCnt.toNat ∧ s.kCnt.toNat ≤ s.cfg.maxK
  freq : s.fv = true → FreqTableOk s.cfg s.freqTable
  code : s.cv = true → CodeTableOk s.cfg s.codeTable
  same : s.fv = true → s.cv = true → s.codeTable.map (·.sym) = s.freqTable.map (·.sym)

/-- What PV promises of the payload, and what its absence leaves (10_state.md R41 to R43). -/
structure PayloadOk (s : State) : Prop where
  valid : s.pv = true → s.cv = true ∧ 1 ≤ s.payLen.toNat ∧ s.payLen.toNat ≤ s.cfg.maxPay ∧
    s.pad = s.pay.read 0 ∧ s.pad.toNat ≤ 8 ∧
    (s.encBits = 0#32 ∨ 8 * s.payLen.toNat = 8 + s.encBits.toNat + s.pad.toNat)
  absent : s.pv = false → s.payLen = 0#32 ∧ s.pad = 0#8 ∧ s.encBits = 0#32

/-- What OV promises of the output, and what its absence leaves (10_state.md R44, 44_bit_unpacker.md R200). -/
structure OutputOk (s : State) : Prop where
  valid : s.ov = true → s.outLen.toNat ≤ s.cfg.maxN ∧ ∀ w ∈ s.decoded, wellFormedSymbolWord w = true
  absent : s.ov = false → s.outLen = 0#32

/-- The part of the invariant that commands read and write. -/
structure DataOk (s : State) : Prop where
  cfg : s.cfg.wf = true
  memories : MemoriesOk s
  tables : TablesOk s
  payload : PayloadOk s
  output : OutputOk s

/-- The part of the invariant about STATUS (10_state.md R28, R29, 60_exceptions.md R270, 70_reset_and_hazards.md R301). -/
structure StatusOk (s : State) : Prop where
  errIff : s.err = true ↔ s.errcode ≠ 0#4
  written : s.errcode.toNat ≤ 8
  success : s.err = false → s.errOp = 0#8
  pending : s.busy = true → s.done = false ∧ s.err = false
  fresh : s.busy = false → s.done = false →
    s.fv = false ∧ s.cv = false ∧ s.pv = false ∧ s.ov = false ∧ s.err = false ∧ s.donePend = false

/-- The invariant of every state a run reaches. -/
structure Inv (s : State) : Prop where
  data : DataOk s
  status : StatusOk s

/-- The states a run reaches from power-on, for any capacities that R7 allows, any memory contents and any schedule. -/
inductive Reachable : State → Prop where
  | powerOn (cfg : Config) (c : Contents) (es : List Event) (h : cfg.wf = true) :
      Reachable (resetStep { State.reset with cfg := cfg, input := es } c)
  | next (s t : State) (h : Reachable s) (ht : step s = .next t) : Reachable t

end Sys2Proof.Machine
end

