-- ==== Sys2Proof/Certificates/Slice0/Obligations.lean ====
section
/-! DEFINITION. The statements for the provers, and the few words they are written in. -/

open Sys2Proof Sys2Proof.Machine

/-! ## The words of the statements -/

namespace Sys2Proof.Spec

/-- The status fields of a successful completion (10_state.md R47). -/
def succeeded (s : State) : State :=
  { s with
    err := false, errcode := 0#4, errOp := 0#8, errInfo := 0#32, busy := false, done := true, donePend := true }

/-- The status fields of a failed completion (10_state.md R47, 60_exceptions.md R272). -/
def failed (s : State) (op : Byte) (code : BitVec 4) (info : Word) : State :=
  { s with
    err := true, errcode := code, errOp := op, errInfo := info, busy := false, done := true, donePend := true }

/-- The invalidation set of each command that is no macro (10_state.md R48). -/
def invalidated (i : Instr) (s : State) : State :=
  match i with
  | .count | .parse =>
    { s with fv := false, cv := false, pv := false, kCnt := 0#32, payLen := 0#32, pad := 0#8, encBits := 0#32 }
  | .build => { s with cv := false, pv := false, payLen := 0#32, pad := 0#8, encBits := 0#32 }
  | .pack => { s with pv := false, payLen := 0#32, pad := 0#8, encBits := 0#32 }
  | .serialize => { s with contLen := 0#32 }
  | .unpack => { s with ov := false, outLen := 0#32 }
  | .clear =>
    { s with fv := false, cv := false, pv := false, ov := false, kCnt := 0#32, payLen := 0#32, pad := 0#8,
             encBits := 0#32, outLen := 0#32 }
  | .nop | .compress | .decompress => s

/-- The offsets of the register map (10_state.md R22). -/
def registerOffsets : List (BitVec 12) :=
  [ 0x000, 0x004, 0x008, 0x00C, 0x010, 0x014, 0x018, 0x020, 0x024, 0x028, 0x02C, 0x030, 0x040, 0x044, 0x048, 0x04C,
    0x050, 0x054, 0x060, 0x064, 0x068, 0x06C, 0x070, 0x080, 0x084, 0x088 ]

/-- The offsets of the registers marked B (10_state.md R22, 70_reset_and_hazards.md R304). -/
def lockedOffsets : List (BitVec 12) :=
  [ 0x020, 0x040, 0x044, 0x048, 0x04C, 0x050, 0x054, 0x080, 0x084, 0x088 ]

/-- The offsets of the registers marked RO without a writable bit (10_state.md R22). -/
def readOnlyOffsets : List (BitVec 12) :=
  [ 0x000, 0x004, 0x008, 0x00C, 0x010, 0x014, 0x018, 0x030, 0x060, 0x064, 0x068, 0x06C, 0x070 ]

/-- An offset without its two ignored bits (20_memory.md R62). -/
def aligned (off : BitVec 12) : BitVec 12 := off &&& 0xFFC#12

/-- SYM[0 .. N_LEN-1] as 24-bit symbol values. -/
def inputSymbols (s : State) : List Symbol :=
  (List.range s.nLen.toNat).map (fun i => (s.sym.read i).extractLsb' 0 24)

/-- The distinct symbols of a list, in order of first occurrence (41_frequency.md R123). -/
def firstOccurrences : List Symbol → List Symbol
  | [] => []
  | x :: xs => x :: (firstOccurrences xs).filter (fun y => decide (y ≠ x))

/-- The frequency table of the input: each distinct symbol, in order of first occurrence, with its number of occurrences
(41_frequency.md R122, R123). It is computed from SYM and N_LEN alone. -/
def inputTable (s : State) : List FreqEntry :=
  (firstOccurrences (inputSymbols s)).map (fun x => { sym := x, count := BitVec.ofNat 32 ((inputSymbols s).count x) })

/-- SYM element i is a valid symbol word for TAG (30_encoding.md R94 to R96). -/
def validAt (s : State) (i : Nat) : Prop :=
  (s.sym.read i).extractLsb' 24 8 = 0#8 ∧ (s.tag = 0x00#8 → ((s.sym.read i).extractLsb' 0 24).toNat ≤ 0x10FFFF)

/-- TAG is recognised (30_encoding.md R97). -/
def tagKnown (s : State) : Prop := s.tag = 0x00#8 ∨ s.tag = 0x01#8

/-- The code table CODE[0 .. K_CNT-1], read element by element. -/
def codes (s : State) : List CodeEntry := (List.range s.kCnt.toNat).map s.code.read

/-- The frequency table FREQ[0 .. K_CNT-1], read element by element. -/
def freqs (s : State) : List FreqEntry := (List.range s.kCnt.toNat).map s.freq.read

/-- The first n bytes of PAY. -/
def payBytes (s : State) (n : Nat) : List Byte := (List.range n).map s.pay.read

/-- The first n bytes of CONT. -/
def contBytes (s : State) (n : Nat) : List Byte := (List.range n).map s.cont.read

/-- The first n words of OUT. -/
def outWords (s : State) (n : Nat) : List Word := (List.range n).map s.out.read

/-- The code bits of the committed payload: everything after the header byte, without the trailing PAY[0] bits
(44_bit_unpacker.md R190, R192). -/
def codeBits (s : State) : Bits :=
  let all := ((payBytes s s.payLen.toNat).drop 1).flatMap bits8
  all.take (8 * (s.payLen.toNat - 1) - (s.pay.read 0).toNat)

/-- The XOR of the first n bytes of CONT (30_encoding.md R105). -/
def contXor (s : State) (n : Nat) : Byte := (contBytes s n).foldl (fun a b => a ^^^ b) 0#8

/-- The length formula of 30_encoding.md R106. -/
def containerLength (sp : Nat) (table : List CodeEntry) (p : Nat) : Nat :=
  17 + 12 * sp + (table.map (fun e => 4 + (e.len.toNat + 7) / 8)).sum + p

/-- The state runs the accesses, one after the other (20_memory.md R80). -/
def hostSteps (s : State) (l : List HostAccess) : State := l.foldl hostStep s

/-- `n` steps of the block, stopping at the first that is no next state (there is none). -/
def steps : Nat → State → State
  | 0, s => s
  | n + 1, s =>
    match step s with
    | .next t => steps n t
    | .fault _ => s
    | .refused _ => s

/-- The leaves of a code tree, left to right, as (symbol, frequency, sequence number). -/
def treeLeaves : Tree → List (Symbol × Nat × Nat)
  | .leaf x f q => [(x, f, q)]
  | .node _ _ l r => treeLeaves l ++ treeLeaves r

/-- Follow a bit string from a node: "0" to the left child, "1" to the right child (42_tree_builder.md R146). -/
def descend : Tree → Bits → Option Tree
  | t, [] => some t
  | .leaf _ _ _, _ :: _ => none
  | .node _ _ l r, b :: rest => descend (if b then r else l) rest

/-- The sum rule of the tree: a node's frequency is the sum of its children's, and the first popped is the left child
(42_tree_builder.md R143). -/
def sumsAndOrder : Tree → Prop
  | .leaf _ _ _ => True
  | .node f q l r =>
    f = treeFreq l + treeFreq r ∧ (treeFreq l < treeFreq r ∨ (treeFreq l = treeFreq r ∧ treeSeq l < treeSeq r)) ∧
      treeSeq l < q ∧ treeSeq r < q ∧ sumsAndOrder l ∧ sumsAndOrder r

/-- `(freq, seq)` of one node is less than that of another, lexicographically (42_tree_builder.md R142). -/
def keyLess (a b : Tree) : Prop := treeFreq a < treeFreq b ∨ (treeFreq a = treeFreq b ∧ treeSeq a < treeSeq b)

/-- `a` and `b` are the two nodes of least key of a collection `q` without order, `a` the least, and `rest` is what is left
after both are popped (42_tree_builder.md R142, R143). -/
def PopsTwo (q : List Tree) (a b : Tree) (rest : List Tree) : Prop :=
  q.Perm (a :: b :: rest) ∧ (∀ u ∈ b :: rest, keyLess a u) ∧ ∀ u ∈ rest, keyLess b u

/-- The reduction as 42_tree_builder.md R143 says it, of a collection of nodes without order, down to the one root: the two
nodes of least key are popped and their merge, numbered `n`, is pushed. -/
inductive Reduces : Nat → List Tree → Tree → Prop where
  | root (n : Nat) (t : Tree) : Reduces n [t] t
  | merge (n : Nat) (q rest : List Tree) (a b root : Tree) (pops : PopsTwo q a b rest)
      (next : Reduces (n + 1) (.node (treeFreq a + treeFreq b) n a b :: rest) root) : Reduces n q root

/-- The decode loop that stops as soon as the accumulator is longer than `bound` bits (44_bit_unpacker.md R196). -/
def decodeEarly (table : List CodeEntry) (maxN bound : Nat) : Bits → List Word → Bits → Except ErrCode (List Word)
  | acc, out, [] => if acc = [] then .ok out else .error .corruptContainer
  | acc, out, b :: rest =>
    match findByCode table (acc ++ [b]) with
    | none =>
      if bound < (acc ++ [b]).length then .error .corruptContainer
      else decodeEarly table maxN bound (acc ++ [b]) out rest
    | some e =>
      if out.length = maxN then .error .capacity
      else decodeEarly table maxN bound [] (out ++ [e.sym.setWidth 32]) rest

/-- Run `next` on the state after a command that succeeded; a failure ends the chain (46_control.md R252). -/
def thenIfOk (r : Host.Outcome State Fault Refusal) (next : State → Host.Outcome State Fault Refusal) :
    Host.Outcome State Fault Refusal :=
  match r with
  | .next t => if t.err then .next t else next t
  | .fault f => .fault f
  | .refused r => .refused r

/-- The n-byte big-endian encoding by shifts, most significant byte first (30_encoding.md R99). -/
def bigEndian (n v : Nat) : List Byte := (List.range n).reverse.map (fun i => BitVec.ofNat 8 (v >>> (8 * i)))

/-- One code entry: SYM, LEN, and the code left-aligned MSB first with zero trailing bits (30_encoding.md R103). -/
def layoutEntry (e : CodeEntry) : List Byte :=
  bigEndian 3 e.sym.toNat ++ [BitVec.ofNat 8 e.len.toNat] ++
  bytesOf (e.bits ++ zeros (8 * ((e.len.toNat + 7) / 8) - e.len.toNat))

/-- The fields of a container before its check byte, in the order of 30_encoding.md R99. -/
def layoutBody (tag : Byte) (w h c : Word) (table : List CodeEntry) (payload : List Byte) : List Byte :=
  [0x48#8, 0x55#8, 0x46#8, 0x5A#8] ++ [0x01#8] ++ [tag] ++ [if tag = 0x01#8 then 0x01#8 else 0x00#8] ++
  [payload.headD 0#8] ++
  (if tag = 0x01#8 then bigEndian 4 w.toNat ++ bigEndian 4 h.toNat ++ bigEndian 4 c.toNat else []) ++
  bigEndian 4 table.length ++ table.flatMap layoutEntry ++ bigEndian 4 payload.length ++ payload

/-- The fields of a container up to and with K, in the order of 30_encoding.md R99. -/
def layoutHead (tag padf : Byte) (w h c : Word) (k : Nat) : List Byte :=
  [0x48#8, 0x55#8, 0x46#8, 0x5A#8] ++ [0x01#8] ++ [tag] ++ [if tag = 0x01#8 then 0x01#8 else 0x00#8] ++ [padf] ++
  (if tag = 0x01#8 then bigEndian 4 w.toNat ++ bigEndian 4 h.toNat ++ bigEndian 4 c.toNat else []) ++ bigEndian 4 k

/-- A symbol that a container of this tag may hold (45_container.md R224). -/
def typedSymbol (tag : Byte) (x : Symbol) : Prop := tag = 0x00#8 → x.toNat ≤ 0x10FFFF

/-- `es` are readable entries of a container with `k` of them, `k` and the fields before K being right
(45_container.md R222, R224). -/
structure Began (cfg : Config) (tag padf : Byte) (k : Nat) (es : List CodeEntry) : Prop where
  known : tag = 0x00#8 ∨ tag = 0x01#8
  padding : padf.toNat ≤ 8
  count : 1 ≤ k ∧ k ≤ cfg.maxK ∧ k < 2 ^ 32
  entries : ∀ e ∈ es, CodeEntryOk cfg e ∧ e.len.toNat ≤ 64 ∧ typedSymbol tag e.sym

/-- Two entries hold one symbol, or the code of one begins the code of the other (45_container.md R224). -/
def clash (a b : CodeEntry) : Prop := a.sym = b.sym ∨ a.bits <+: b.bits

/-- The code table is read whole, and no two of its entries clash (45_container.md R224). -/
structure TableRead (cfg : Config) (tag padf : Byte) (k : Nat) (es : List CodeEntry) : Prop where
  began : Began cfg tag padf k es
  all : es.length = k
  apart : ∀ i j (hi : i < es.length) (hj : j < es.length), i ≠ j → ¬ clash es[i] es[j]

/-- The first check of PARSE that the bytes before the check byte fail, with the code it reports: 3 CORRUPT_CONTAINER,
4 UNSUPPORTED_FORMAT, 6 CAPACITY (45_container.md R220, R222 to R226). One constructor per check, in the order of R220; what
stands before the field in question is right. -/
inductive Rejects (cfg : Config) : List Byte → BitVec 4 → Prop where
  | magic (body : List Byte) (h : ¬ [0x48#8, 0x55#8, 0x46#8, 0x5A#8] <+: body) : Rejects cfg body 3#4
  | version (rest : List Byte) (h : ¬ [0x01#8] <+: rest) :
      Rejects cfg ([0x48#8, 0x55#8, 0x46#8, 0x5A#8] ++ rest) 3#4
  | noTag : Rejects cfg [0x48#8, 0x55#8, 0x46#8, 0x5A#8, 0x01#8] 3#4
  | tag (x : Byte) (rest : List Byte) (h0 : x ≠ 0x00#8) (h1 : x ≠ 0x01#8) :
      Rejects cfg ([0x48#8, 0x55#8, 0x46#8, 0x5A#8, 0x01#8, x] ++ rest) 4#4
  | flags (x : Byte) (rest : List Byte) (hx : x = 0x00#8 ∨ x = 0x01#8)
      (h : ¬ [if x = 0x01#8 then 0x01#8 else 0x00#8] <+: rest) :
      Rejects cfg ([0x48#8, 0x55#8, 0x46#8, 0x5A#8, 0x01#8, x] ++ rest) 3#4
  | noPadding (x : Byte) (hx : x = 0x00#8 ∨ x = 0x01#8) :
      Rejects cfg [0x48#8, 0x55#8, 0x46#8, 0x5A#8, 0x01#8, x, if x = 0x01#8 then 0x01#8 else 0x00#8] 3#4
  | padding (x padf : Byte) (rest : List Byte) (hx : x = 0x00#8 ∨ x = 0x01#8) (h : 8 < padf.toNat) :
      Rejects cfg ([0x48#8, 0x55#8, 0x46#8, 0x5A#8, 0x01#8, x, if x = 0x01#8 then 0x01#8 else 0x00#8, padf] ++ rest) 3#4
  | shapeOrCount (x padf : Byte) (rest : List Byte) (hx : x = 0x00#8 ∨ x = 0x01#8) (hp : padf.toNat ≤ 8)
      (h : rest.length < if x = 0x01#8 then 16 else 4) :
      Rejects cfg ([0x48#8, 0x55#8, 0x46#8, 0x5A#8, 0x01#8, x, if x = 0x01#8 then 0x01#8 else 0x00#8, padf] ++ rest) 3#4
  | countZero (x padf : Byte) (w h c : Word) (rest : List Byte) (hx : x = 0x00#8 ∨ x = 0x01#8) (hp : padf.toNat ≤ 8) :
      Rejects cfg (layoutHead x padf w h c 0 ++ rest) 3#4
  | countCapacity (x padf : Byte) (w h c : Word) (k : Nat) (rest : List Byte) (hx : x = 0x00#8 ∨ x = 0x01#8)
      (hp : padf.toNat ≤ 8) (hk : cfg.maxK < k) (hk32 : k < 2 ^ 32) :
      Rejects cfg (layoutHead x padf w h c k ++ rest) 6#4
  | symbolCut (x padf : Byte) (w h c : Word) (k : Nat) (es : List CodeEntry) (rest : List Byte)
      (hb : Began cfg x padf k es) (hk : es.length < k) (hr : rest.length < 3) :
      Rejects cfg (layoutHead x padf w h c k ++ es.flatMap layoutEntry ++ rest) 3#4
  | symbol (x padf : Byte) (w h c : Word) (k : Nat) (es : List CodeEntry) (y : Symbol) (rest : List Byte)
      (hb : Began cfg x padf k es) (hk : es.length < k) (hy : ¬ typedSymbol x y) :
      Rejects cfg (layoutHead x padf w h c k ++ es.flatMap layoutEntry ++ bigEndian 3 y.toNat ++ rest) 3#4
  | lengthCut (x padf : Byte) (w h c : Word) (k : Nat) (es : List CodeEntry) (y : Symbol)
      (hb : Began cfg x padf k es) (hk : es.length < k) (hy : typedSymbol x y) :
      Rejects cfg (layoutHead x padf w h c k ++ es.flatMap layoutEntry ++ bigEndian 3 y.toNat) 3#4
  | length (x padf : Byte) (w h c : Word) (k : Nat) (es : List CodeEntry) (y : Symbol) (n : Byte) (rest : List Byte)
      (hb : Began cfg x padf k es) (hk : es.length < k) (hy : typedSymbol x y) (hn : n = 0x00#8 ∨ 64 < n.toNat) :
      Rejects cfg (layoutHead x padf w h c k ++ es.flatMap layoutEntry ++ bigEndian 3 y.toNat ++ [n] ++ rest) 3#4
  | lengthCapacity (x padf : Byte) (w h c : Word) (k : Nat) (es : List CodeEntry) (y : Symbol) (n : Byte)
      (rest : List Byte) (hb : Began cfg x padf k es) (hk : es.length < k) (hy : typedSymbol x y)
      (hn : cfg.maxCodeLen < n.toNat) (h64 : n.toNat ≤ 64) (h0 : n ≠ 0x00#8) :
      Rejects cfg (layoutHead x padf w h c k ++ es.flatMap layoutEntry ++ bigEndian 3 y.toNat ++ [n] ++ rest) 6#4
  | codeCut (x padf : Byte) (w h c : Word) (k : Nat) (es : List CodeEntry) (y : Symbol) (n : Byte) (rest : List Byte)
      (hb : Began cfg x padf k es) (hk : es.length < k) (hy : typedSymbol x y)
      (hn : 1 ≤ n.toNat ∧ n.toNat ≤ 64 ∧ n.toNat ≤ cfg.maxCodeLen) (hr : rest.length < (n.toNat + 7) / 8) :
      Rejects cfg (layoutHead x padf w h c k ++ es.flatMap layoutEntry ++ bigEndian 3 y.toNat ++ [n] ++ rest) 3#4
  | trailingBits (x padf : Byte) (w h c : Word) (k : Nat) (es : List CodeEntry) (y : Symbol) (n : Byte)
      (code rest : List Byte) (hb : Began cfg x padf k es) (hk : es.length < k) (hy : typedSymbol x y)
      (hn : 1 ≤ n.toNat ∧ n.toNat ≤ 64 ∧ n.toNat ≤ cfg.maxCodeLen) (hc : code.length = (n.toNat + 7) / 8)
      (ht : true ∈ (code.flatMap bits8).drop n.toNat) :
      Rejects cfg (layoutHead x padf w h c k ++ es.flatMap layoutEntry ++ bigEndian 3 y.toNat ++ [n] ++ code ++ rest) 3#4
  | table (x padf : Byte) (w h c : Word) (k : Nat) (es : List CodeEntry) (rest : List Byte) (i j : Nat)
      (hb : Began cfg x padf k es) (hk : es.length = k) (hi : i < es.length) (hj : j < es.length) (hij : i ≠ j)
      (hc : clash es[i] es[j]) :
      Rejects cfg (layoutHead x padf w h c k ++ es.flatMap layoutEntry ++ rest) 3#4
  | payloadLengthCut (x padf : Byte) (w h c : Word) (k : Nat) (es : List CodeEntry) (rest : List Byte)
      (ht : TableRead cfg x padf k es) (hr : rest.length < 4) :
      Rejects cfg (layoutHead x padf w h c k ++ es.flatMap layoutEntry ++ rest) 3#4
  | payloadZero (x padf : Byte) (w h c : Word) (k : Nat) (es : List CodeEntry) (rest : List Byte)
      (ht : TableRead cfg x padf k es) :
      Rejects cfg (layoutHead x padf w h c k ++ es.flatMap layoutEntry ++ bigEndian 4 0 ++ rest) 3#4
  | payloadCapacity (x padf : Byte) (w h c : Word) (k : Nat) (es : List CodeEntry) (p : Nat) (rest : List Byte)
      (ht : TableRead cfg x padf k es) (hp : cfg.maxPay < p) (hp32 : p < 2 ^ 32) (h0 : p ≠ 0) :
      Rejects cfg (layoutHead x padf w h c k ++ es.flatMap layoutEntry ++ bigEndian 4 p ++ rest) 6#4
  | payloadCut (x padf : Byte) (w h c : Word) (k : Nat) (es : List CodeEntry) (p : Nat) (rest : List Byte)
      (ht : TableRead cfg x padf k es) (hp : 1 ≤ p ∧ p ≤ cfg.maxPay ∧ p < 2 ^ 32) (hr : rest.length < p) :
      Rejects cfg (layoutHead x padf w h c k ++ es.flatMap layoutEntry ++ bigEndian 4 p ++ rest) 3#4
  | payloadHeader (x padf : Byte) (w h c : Word) (k : Nat) (es : List CodeEntry) (payload rest : List Byte)
      (ht : TableRead cfg x padf k es)
      (hp : 1 ≤ payload.length ∧ payload.length ≤ cfg.maxPay ∧ payload.length < 2 ^ 32)
      (hh : payload.headD 0#8 ≠ padf) :
      Rejects cfg
        (layoutHead x padf w h c k ++ es.flatMap layoutEntry ++ bigEndian 4 payload.length ++ payload ++ rest) 3#4
  | trailingBytes (x padf : Byte) (w h c : Word) (k : Nat) (es : List CodeEntry) (payload rest : List Byte)
      (ht : TableRead cfg x padf k es)
      (hp : 1 ≤ payload.length ∧ payload.length ≤ cfg.maxPay ∧ payload.length < 2 ^ 32)
      (hh : payload.headD 0#8 = padf) (hr : rest ≠ []) :
      Rejects cfg
        (layoutHead x padf w h c k ++ es.flatMap layoutEntry ++ bigEndian 4 payload.length ++ payload ++ rest) 3#4

/-- The conditions under which PARSE accepts the fields of a container (45_container.md R222 to R226). -/
structure Acceptable (cfg : Config) (tag : Byte) (table : List CodeEntry) (payload : List Byte) : Prop where
  known : tag = 0x00#8 ∨ tag = 0x01#8
  codes : CodeTableOk cfg table
  entries : 1 ≤ table.length ∧ table.length ≤ cfg.maxK
  typed : tag = 0x00#8 → ∀ e ∈ table, e.sym.toNat ≤ 0x10FFFF
  bytes : 1 ≤ payload.length ∧ payload.length ≤ cfg.maxPay
  header : (payload.headD 0#8).toNat ≤ 8

/-- CONT[0 .. CONT_LEN-1] holds a container with these fields and a right check byte (30_encoding.md R99, R105). -/
structure HoldsContainer (s : State) (tag : Byte) (w h c : Word) (table : List CodeEntry) (payload : List Byte) :
    Prop where
  fits : s.contLen.toNat ≤ s.cfg.maxCont
  length : s.contLen.toNat = (layoutBody tag w h c table payload).length + 1
  body : contBytes s (s.contLen.toNat - 1) = layoutBody tag w h c table payload
  check : contXor s s.contLen.toNat = 0#8

end Sys2Proof.Spec

open Sys2Proof.Spec

/-! ## Command words -/

/-- 30_encoding.md R91: which word selects which command. -/
def Obligations.WordSelectsCommandExactly : Prop :=
  ∀ w : Word,
    (decode w = .ok .nop ↔ w = 0x00000000#32) ∧ (decode w = .ok .count ↔ w = 0x00000001#32) ∧
    (decode w = .ok .build ↔ w = 0x00000002#32) ∧ (decode w = .ok .pack ↔ w = 0x00000003#32) ∧
    (decode w = .ok .serialize ↔ w = 0x00000004#32) ∧ (decode w = .ok .parse ↔ w = 0x00000005#32) ∧
    (decode w = .ok .unpack ↔ w = 0x00000006#32) ∧ (decode w = .ok .compress ↔ w = 0x00000007#32) ∧
    (decode w = .ok .decompress ↔ w = 0x00000008#32) ∧ (decode w = .ok .clear ↔ w = 0x0000000F#32)

/-- The words of a few table rows, written out from R91, decode to their commands. -/
def Obligations.TableWordsDecode : Prop :=
  decode 0x00000000#32 = .ok .nop ∧ decode 0x00000001#32 = .ok .count ∧ decode 0x00000004#32 = .ok .serialize ∧
  decode 0x00000008#32 = .ok .decompress ∧ decode 0x0000000F#32 = .ok .clear

/-- Decode and encode agree on every command, as words and as numbers of the opcode table. -/
def Obligations.DecodeInvertsEncode : Prop :=
  ∀ i : Instr, i.wf = true → decode (encode i) = .ok i ∧ decodeTableWord 32 (encode i).toNat = some i

/-- 30_encoding.md R92, 46_control.md R254: an illegal word is accepted like any other, and its completion reports
ILLEGAL_COMMAND with `ERR_OP = w[7:0]` and changes nothing else. -/
def Obligations.IllegalWordsCompleteWithIllegalCommand : Prop :=
  ∀ (s : State) (w : Word),
    (w.extractLsb' 8 24 ≠ 0#24 ∨ (0x09 ≤ (w.extractLsb' 0 8).toNat ∧ (w.extractLsb' 0 8).toNat ≤ 0x0E) ∨
      0x10 ≤ (w.extractLsb' 0 8).toNat) →
    (s.busy = false → hostStep s (.write 0x020#12 w) =
      { s with pend := w, busy := true, done := false, err := false, errcode := 0#4, errOp := 0#8 }) ∧
    (∀ rest, s.busy = true → s.pend = w → s.input = .engine :: rest →
      step s = .next (failed { s with input := rest } (w.extractLsb' 0 8) 8#4 0#32))

/-! ## The step -/

/-- A step runs the pending command that the decoder reads, or the host access or reset that the schedule names; an idle
block retains all its state (60_exceptions.md R282); `withFetchWord` makes its word the next command that runs. The
schedule as a field of State is the model's choice (log entries 1, 2). -/
def Obligations.StepRunsDecodedCommand : Prop :=
  ∀ (s : State) (rest : List Event),
    (∀ i : Instr, s.busy = true → decode s.pend = .ok i →
      (s.input = .engine :: rest → step s = exec i { s with input := rest }) ∧ (s.input = [] → step s = exec i s)) ∧
    (∀ a : HostAccess, s.input = .host a :: rest → step s = .next (hostStep { s with input := rest } a)) ∧
    (∀ c : Contents, s.input = .reset c :: rest → step s = .next (resetStep { s with input := rest } c)) ∧
    (s.busy = false →
      (s.input = [] → step s = .next s) ∧ (s.input = .engine :: rest → step s = .next { s with input := rest })) ∧
    (∀ i : Instr, step (s.withFetchWord 32 (encode i).toNat) = exec i (s.accept (encode i)))

/-- Every state has a next state: no bus access is refused and every command word completes (20_memory.md R63,
93_implementation_defined.md). -/
def Obligations.EveryStateHasANextState : Prop := ∀ s : State, ∃ t, step s = .next t

/-- 10_state.md R27, R28: what moves BUSY and DONE. -/
def Obligations.BusyAndDoneFollowTheCommand : Prop :=
  ∀ s t : State, step s = .next t →
    (s.busy = false → (t.busy = true ↔
      ∃ off d rest, s.input = .host (.write off d) :: rest ∧ aligned off = 0x020#12)) ∧
    (s.busy = true → (t.busy = false ↔
      s.input = [] ∨ (∃ rest, s.input = .engine :: rest) ∨ ∃ c rest, s.input = .reset c :: rest)) ∧
    (s.busy = true → (s.input = [] ∨ ∃ rest, s.input = .engine :: rest) → t.done = true) ∧
    (s.busy = false → t.busy = true → t.done = false) ∧
    (t.done ≠ s.done → t.busy ≠ s.busy ∨ ∃ c rest, s.input = .reset c :: rest)

/-- 10_state.md R30: what sets and what clears OVR, and that a dropped write changes nothing else. -/
def Obligations.OverrunIsStickyAndDropsTheWrite : Prop :=
  ∀ s t : State, step s = .next t →
    (∀ off d rest, s.input = .host (.write off d) :: rest →
      (aligned off ∈ lockedOffsets → s.busy = true → t = { s with input := rest, ovr := true }) ∧
      (aligned off = 0x024#12 → t = { s with input := rest, ovr := s.ovr && !d.getLsbD 3 }) ∧
      (aligned off ≠ 0x024#12 → (aligned off ∉ lockedOffsets ∨ s.busy = false) → t.ovr = s.ovr)) ∧
    (∀ c rest, s.input = .reset c :: rest → t.ovr = false) ∧
    ((∀ off d rest, s.input ≠ .host (.write off d) :: rest) → (∀ c rest, s.input ≠ .reset c :: rest) → t.ovr = s.ovr)

/-- 60_exceptions.md R276: every completion raises irq if it is enabled, enabling it while DONE_PEND = 1 raises it at once,
and it stays asserted until the host clears DONE_PEND or DONE_EN, or reset. -/
def Obligations.IrqStaysUntilTheHostClearsIt : Prop :=
  (∀ (i : Instr) (s t : State), exec i s = .next t → t.irq = s.doneEn) ∧
  (∀ (s : State) (d : Word), d.getLsbD 0 = true → (hostStep s (.write 0x028#12 d)).irq = s.donePend) ∧
  (∀ s t : State, step s = .next t → s.irq = true → t.irq = false →
    (∃ off d rest, s.input = .host (.write off d) :: rest ∧
      ((aligned off = 0x02C#12 ∧ d.getLsbD 0 = true) ∨ (aligned off = 0x028#12 ∧ d.getLsbD 0 = false))) ∨
    ∃ c rest, s.input = .reset c :: rest)

/-! ## Reset -/

/-- 70_reset_and_hazards.md R300: reset abandons the pending command and gives every register its reset value; the
constants and the capacities stay. That the schedule and the capacities are fields is the model's choice (log entries 1, 4),
and PEND, which no read shows, is 0 as R55 says (log entry 8). The read data is left open (log entry 5). -/
def Obligations.ResetClearsEveryRegister : Prop :=
  (∀ (s : State) (c : Contents) (rest : List Event), s.input = .reset c :: rest →
    ∃ t, step s = .next t ∧
      t = { State.reset with
            cfg := s.cfg, input := rest, rdata := t.rdata, sym := t.sym, freq := t.freq, code := t.code, pay := t.pay
            cont := t.cont, out := t.out } ∧
      t.irq = false ∧
      ∀ off ∈ registerOffsets, off ∉ [0x000#12, 0x004#12, 0x008#12, 0x00C#12, 0x010#12, 0x014#12, 0x018#12, 0x088#12] →
        (hostStep t (.read off)).rdata = 0#32) ∧
  (State.reset.busy = false ∧ State.reset.done = false ∧ State.reset.statusWord = 0#32 ∧ State.reset.pend = 0#32)

/-- 70_reset_and_hazards.md R302: SYM and CONT may hold anything after a reset, and a PARSE right after reset fails with
CORRUPT_CONTAINER, whatever CONT holds. -/
def Obligations.ResetAdmitsAnyMemoryContents : Prop :=
  (∀ (s : State) (f : Nat → Word) (g : Nat → Byte), ∃ c : Contents,
    (∀ j < s.cfg.maxN, (resetStep s c).sym.read j = f j) ∧
    (∀ j < s.cfg.maxCont, (resetStep s c).cont.read j = g j)) ∧
  (∀ (s : State) (c : Contents),
    exec .parse (resetStep s c) = .next (failed (resetStep s c) 0x05#8 3#4 0#32))

/-! ## The register bus -/

/-- 10_state.md R23, R24: the identity and capacity registers read their constants, ignore writes, and reset does not
change them. -/
def Obligations.IdentityAndCapacityRegistersAreConstant : Prop :=
  ∀ s : State, s.cfg.wf = true →
    (hostStep s (.read 0x000#12)).rdata = 0x4855465A#32 ∧ (hostStep s (.read 0x004#12)).rdata = 0x00000001#32 ∧
    (hostStep s (.read 0x008#12)).rdata.toNat = s.cfg.maxN ∧ (hostStep s (.read 0x00C#12)).rdata.toNat = s.cfg.maxK ∧
    (hostStep s (.read 0x010#12)).rdata.toNat = s.cfg.maxCodeLen ∧
    (hostStep s (.read 0x014#12)).rdata.toNat = s.cfg.maxPay ∧
    (hostStep s (.read 0x018#12)).rdata.toNat = s.cfg.maxCont ∧
    ∀ off ∈ [0x000#12, 0x004#12, 0x008#12, 0x00C#12, 0x010#12, 0x014#12, 0x018#12],
      (∀ d, hostStep s (.write off d) = s) ∧
      ∀ c, (hostStep (resetStep s c) (.read off)).rdata = (hostStep s (.read off)).rdata

/-- 10_state.md R26: the fields of STATUS, its reserved bits, and what a write to it does. -/
def Obligations.StatusReadsItsFields : Prop :=
  ∀ s : State,
    let w := (hostStep s (.read 0x024#12)).rdata
    w.getLsbD 0 = s.busy ∧ w.getLsbD 1 = s.done ∧ w.getLsbD 2 = s.err ∧ w.getLsbD 3 = s.ovr ∧
    w.extractLsb' 4 4 = 0#4 ∧ w.extractLsb' 8 4 = s.errcode ∧ w.extractLsb' 12 4 = 0#4 ∧
    w.extractLsb' 16 8 = s.errOp ∧ w.getLsbD 24 = s.fv ∧ w.getLsbD 25 = s.cv ∧ w.getLsbD 26 = s.pv ∧
    w.getLsbD 27 = s.ov ∧ w.extractLsb' 28 4 = 0#4 ∧
    ∀ d, hostStep s (.write 0x024#12 d) = { s with ovr := s.ovr && !d.getLsbD 3 }

/-- 10_state.md R46, 20_memory.md R62, R63: the ignored offset bits, reserved offsets, read-only registers and reserved
bits, busy or not. -/
def Obligations.ReservedSpaceReadsZeroAndIgnoresWrites : Prop :=
  ∀ (s : State) (off : BitVec 12) (d : Word),
    (∀ off' : BitVec 12, off.extractLsb' 2 10 = off'.extractLsb' 2 10 →
      hostStep s (.read off) = hostStep s (.read off') ∧ hostStep s (.write off d) = hostStep s (.write off' d)) ∧
    (aligned off ∉ registerOffsets →
      hostStep s (.read off) = { s with rdata := 0#32 } ∧ hostStep s (.write off d) = s) ∧
    (aligned off ∈ readOnlyOffsets → hostStep s (.write off d) = s) ∧
    ((hostStep s (.read 0x028#12)).rdata >>> 1 = 0#32 ∧ (hostStep s (.read 0x02C#12)).rdata >>> 1 = 0#32 ∧
      (hostStep s (.read 0x040#12)).rdata >>> 8 = 0#32 ∧ (hostStep s (.read 0x068#12)).rdata >>> 8 = 0#32 ∧
      (hostStep s (.read 0x080#12)).rdata >>> 3 = 0#32 ∧
      (hostStep s (.read 0x024#12)).rdata &&& 0xF000F0F0#32 = 0#32) ∧
    (hostStep s (.write 0x024#12 d) = hostStep s (.write 0x024#12 (d &&& 8#32)) ∧
      hostStep s (.write 0x028#12 d) = hostStep s (.write 0x028#12 (d &&& 1#32)) ∧
      hostStep s (.write 0x02C#12 d) = hostStep s (.write 0x02C#12 (d &&& 1#32)) ∧
      hostStep s (.write 0x040#12 d) = hostStep s (.write 0x040#12 (d &&& 0xFF#32)) ∧
      hostStep s (.write 0x080#12 d) = hostStep s (.write 0x080#12 (d &&& 7#32)))

/-- 10_state.md R25: CMD is write-only; an idle write accepts the word, a busy one is dropped. -/
def Obligations.CommandRegisterAcceptsOneWord : Prop :=
  ∀ (s : State) (w : Word),
    hostStep s (.read 0x020#12) = { s with rdata := 0#32 } ∧
    (s.busy = false → hostStep s (.write 0x020#12 w) =
      { s with pend := w, busy := true, done := false, err := false, errcode := 0#4, errOp := 0#8 }) ∧
    (s.busy = true → hostStep s (.write 0x020#12 w) = { s with ovr := true })

/-- 10_state.md R32, R33, R36 to R45: what a read of each register returns, and what a write of a writable one stores, all
of the word or the named field, changing nothing else (20_memory.md R78). -/
def Obligations.RegistersHoldTheirFields : Prop :=
  ∀ (s : State) (d : Word),
    hostStep s (.write 0x028#12 d) = { s with doneEn := d.getLsbD 0 } ∧
    hostStep s (.write 0x02C#12 d) = { s with donePend := s.donePend && !d.getLsbD 0 } ∧
    (hostStep s (.read 0x028#12)).rdata.getLsbD 0 = s.doneEn ∧
    (hostStep s (.read 0x02C#12)).rdata.getLsbD 0 = s.donePend ∧
    (hostStep s (.read 0x040#12)).rdata.extractLsb' 0 8 = s.tag ∧
    (hostStep s (.read 0x080#12)).rdata.extractLsb' 0 3 = s.winSel ∧
    (hostStep s (.read 0x044#12)).rdata = s.nLen ∧ (hostStep s (.read 0x048#12)).rdata = s.shape0 ∧
    (hostStep s (.read 0x04C#12)).rdata = s.shape1 ∧ (hostStep s (.read 0x050#12)).rdata = s.shape2 ∧
    (hostStep s (.read 0x054#12)).rdata = s.contLen ∧ (hostStep s (.read 0x084#12)).rdata = s.winIdx ∧
    (hostStep s (.read 0x030#12)).rdata = s.errInfo ∧ (hostStep s (.read 0x060#12)).rdata = s.kCnt ∧
    (hostStep s (.read 0x064#12)).rdata = s.payLen ∧ (hostStep s (.read 0x068#12)).rdata.extractLsb' 0 8 = s.pad ∧
    (hostStep s (.read 0x06C#12)).rdata = s.encBits ∧ (hostStep s (.read 0x070#12)).rdata = s.outLen ∧
    (s.busy = false →
      hostStep s (.write 0x040#12 d) = { s with tag := d.extractLsb' 0 8 } ∧
      hostStep s (.write 0x044#12 d) = { s with nLen := d } ∧ hostStep s (.write 0x048#12 d) = { s with shape0 := d } ∧
      hostStep s (.write 0x04C#12 d) = { s with shape1 := d } ∧ hostStep s (.write 0x050#12 d) = { s with shape2 := d } ∧
      hostStep s (.write 0x054#12 d) = { s with contLen := d } ∧
      hostStep s (.write 0x080#12 d) = { s with winSel := d.extractLsb' 0 3 } ∧
      hostStep s (.write 0x084#12 d) = { s with winIdx := d })

/-- 20_memory.md R76: a WIN_DATA access while BUSY = 0 advances WIN_IDX, and no other read has a side effect. -/
def Obligations.OnlyWindowReadsHaveASideEffect : Prop :=
  ∀ (s : State) (off : BitVec 12) (d : Word),
    (aligned off = 0x088#12 → s.busy = false →
      hostStep s (.read off) = { s with rdata := (hostStep s (.read off)).rdata, winIdx := s.winIdx + 1#32 } ∧
      (hostStep s (.write off d)).winIdx = s.winIdx + 1#32) ∧
    (aligned off = 0x088#12 → s.busy = true → hostStep s (.read off) = { s with rdata := 0#32 }) ∧
    (aligned off ≠ 0x088#12 → hostStep s (.read off) = { s with rdata := (hostStep s (.read off)).rdata })

/-- 20_memory.md R75: where a WIN_DATA write goes, every other element of SYM and CONT as before; a write while BUSY = 1
is dropped. -/
def Obligations.WindowWriteStoresOneElement : Prop :=
  ∀ (s : State) (d : Word), DataOk s →
    (s.busy = true → hostStep s (.write 0x088#12 d) = { s with ovr := true }) ∧
    (s.busy = false →
      let t := hostStep s (.write 0x088#12 d)
      t = { s with sym := t.sym, cont := t.cont, winIdx := s.winIdx + 1#32 } ∧
      (∀ j, t.sym.read j =
        if s.winSel = 0#3 ∧ s.winIdx.toNat < s.cfg.maxN ∧ j = s.winIdx.toNat then d else s.sym.read j) ∧
      (∀ j, t.cont.read j =
        if s.winSel = 4#3 ∧ s.winIdx.toNat < s.cfg.maxCont ∧ j = s.winIdx.toNat then d.extractLsb' 0 8
        else s.cont.read j))

/-- 20_memory.md R66 to R71, R74: what a WIN_DATA read returns, view by view, masked by the valid bits. -/
def Obligations.WindowReadsAreMaskedByTheValidBits : Prop :=
  ∀ s : State, s.busy = false →
    let v := (hostStep s (.read 0x088#12)).rdata
    let j := s.winIdx.toNat
    (s.winSel = 0#3 → v = if j < s.cfg.maxN then s.sym.read j else 0#32) ∧
    (s.winSel = 1#3 →
      (s.fv = true → j / 2 < s.kCnt.toNat →
        (j % 2 = 0 → v.toNat = (s.freq.read (j / 2)).sym.toNat) ∧ (j % 2 = 1 → v = (s.freq.read (j / 2)).count)) ∧
      (s.fv = false ∨ s.kCnt.toNat ≤ j / 2 → v = 0#32)) ∧
    (s.winSel = 2#3 →
      (s.cv = true → j / 4 < s.kCnt.toNat →
        (j % 4 = 0 → v.toNat = (s.code.read (j / 4)).sym.toNat) ∧
        (j % 4 = 1 → v.toNat = (s.code.read (j / 4)).len.toNat) ∧
        (j % 4 = 2 → v.toNat = (s.code.read (j / 4)).val.toNat / 2 ^ 32) ∧
        (j % 4 = 3 → v.toNat = (s.code.read (j / 4)).val.toNat % 2 ^ 32)) ∧
      (s.cv = false ∨ s.kCnt.toNat ≤ j / 4 → v = 0#32)) ∧
    (s.winSel = 3#3 →
      v.toNat = if s.pv = true ∧ j < s.payLen.toNat then (s.pay.read j).toNat else 0) ∧
    (s.winSel = 4#3 → v.toNat = if j < s.cfg.maxCont then (s.cont.read j).toNat else 0) ∧
    (s.winSel = 5#3 → v = if s.ov = true ∧ j < s.outLen.toNat then s.out.read j else 0#32) ∧
    (s.winSel = 6#3 ∨ s.winSel = 7#3 → v = 0#32)

/-- 30_encoding.md R110: LOADSYM leaves the symbols in SYM and their number in N_LEN. -/
def Obligations.LoadSymFillsTheInput : Prop :=
  ∀ (s : State) (l : List Word) (rest : List Event), DataOk s → s.busy = false → l.length ≤ s.cfg.maxN →
    s.input = loadSym l ++ rest →
    let t := steps (loadSym l).length s
    t = { s with sym := t.sym, nLen := t.nLen, winSel := 0#3, winIdx := t.winIdx, input := rest } ∧
    t.nLen.toNat = l.length ∧ t.winIdx.toNat = l.length ∧
    (∀ i (h : i < l.length), t.sym.read i = l[i]) ∧ (∀ i, l.length ≤ i → t.sym.read i = s.sym.read i)

/-! ## Commands as a whole -/

/-- 10_state.md R47, R29, R35, 60_exceptions.md R270: what every completion of a command word leaves in STATUS and
ERR_INFO. -/
def Obligations.EveryCommandCompletes : Prop :=
  ∀ (i : Instr) (s : State), ∃ t, exec i s = .next t ∧
    t.busy = false ∧ t.done = true ∧ t.donePend = true ∧ (t.err = true ↔ t.errcode ≠ 0#4) ∧ t.errcode.toNat ≤ 7 ∧
    (t.err = false → t.errOp = 0#8) ∧ (t.errcode ≠ 5#4 → t.errcode ≠ 2#4 → t.errInfo = 0#32)

/-- 10_state.md R48, R31, R37, 20_memory.md R60: no command writes outside its invalidation and commit sets, and no element
beyond the lengths that it leaves. -/
def Obligations.CommandsWriteOnlyTheirSets : Prop :=
  ∀ (i : Instr) (s t : State), exec i s = .next t →
    (t.cfg = s.cfg ∧ t.ovr = s.ovr ∧ t.pend = s.pend ∧ t.doneEn = s.doneEn ∧ t.nLen = s.nLen ∧ t.winSel = s.winSel ∧
      t.winIdx = s.winIdx ∧ t.sym = s.sym ∧ t.rdata = s.rdata ∧ t.input = s.input) ∧
    (i ∉ [.parse, .decompress] → t.tag = s.tag ∧ t.shape0 = s.shape0 ∧ t.shape1 = s.shape1 ∧ t.shape2 = s.shape2) ∧
    (i ∉ [.count, .compress] → t.freq = s.freq) ∧
    (i ∉ [.count, .compress, .parse, .decompress, .clear] → t.fv = s.fv ∧ t.kCnt = s.kCnt) ∧
    (i ∉ [.build, .compress, .parse, .decompress] → t.code = s.code) ∧
    (i ∉ [.count, .build, .compress, .parse, .decompress, .clear] → t.cv = s.cv) ∧
    (i ∉ [.pack, .compress, .parse, .decompress] → t.pay = s.pay) ∧
    (i ∈ [.nop, .serialize, .unpack] →
      t.pv = s.pv ∧ t.payLen = s.payLen ∧ t.pad = s.pad ∧ t.encBits = s.encBits) ∧
    (i ∉ [.serialize, .compress] → t.cont = s.cont ∧ t.contLen = s.contLen) ∧
    (i ∉ [.unpack, .decompress] → t.out = s.out) ∧
    (i ∉ [.unpack, .decompress, .clear] → t.ov = s.ov ∧ t.outLen = s.outLen) ∧
    (s.cfg.wf = true → ∀ j,
      (t.kCnt.toNat ≤ j → t.freq.read j = s.freq.read j ∧ t.code.read j = s.code.read j) ∧
      (t.payLen.toNat ≤ j → t.pay.read j = s.pay.read j) ∧ (t.contLen.toNat ≤ j → t.cont.read j = s.cont.read j) ∧
      (t.outLen.toNat ≤ j → t.out.read j = s.out.read j))

/-- 10_state.md R31, R40 to R44, 20_memory.md R60: no host access changes a valid bit, a result register or a memory that
only commands write. -/
def Obligations.HostAccessesKeepTheResults : Prop :=
  ∀ (s : State) (a : HostAccess),
    let t := hostStep s a
    t.cfg = s.cfg ∧ t.fv = s.fv ∧ t.cv = s.cv ∧ t.pv = s.pv ∧ t.ov = s.ov ∧ t.errInfo = s.errInfo ∧ t.kCnt = s.kCnt ∧
    t.payLen = s.payLen ∧ t.pad = s.pad ∧ t.encBits = s.encBits ∧ t.outLen = s.outLen ∧ t.freq = s.freq ∧
    t.code = s.code ∧ t.pay = s.pay ∧ t.out = s.out ∧ t.input = s.input

/-- 60_exceptions.md R272: a failed command leaves the state before it, but for its invalidation set and the status. -/
def Obligations.FailedCommandsCommitNothing : Prop :=
  ∀ (i : Instr) (s t : State), i ∉ [.compress, .decompress] → exec i s = .next t → t.err = true →
    t = failed (invalidated i s) (opcode i) t.errcode t.errInfo ∧ 1 ≤ t.errcode.toNat

/-- 20_memory.md R81, 70_reset_and_hazards.md R304: while a command is pending, no host access changes anything but OVR,
the interrupt registers and the read data. -/
def Obligations.PendingCommandSeesTheAcceptedState : Prop :=
  ∀ (s : State) (l : List HostAccess), s.busy = true →
    let t := hostSteps s l
    t = { s with ovr := t.ovr, doneEn := t.doneEn, donePend := t.donePend, rdata := t.rdata }

/-- 70_reset_and_hazards.md R311: the completion gives the same whenever it is taken, whatever the host does meanwhile;
OVR, DONE_EN and the read data are the host's own doing. -/
def Obligations.CompletionTimeDoesNotMatter : Prop :=
  ∀ (i : Instr) (s : State) (l : List HostAccess), s.busy = true →
    ∃ t, exec i s = .next t ∧
      exec i (hostSteps s l) =
        .next { t with
                ovr := (hostSteps s l).ovr, doneEn := (hostSteps s l).doneEn, rdata := (hostSteps s l).rdata }

/-- 41_frequency.md R120, 43_bit_packer.md R170, 20_memory.md R84: the contents of SYM beyond N_LEN, or beyond MAX_N, are
never read. -/
def Obligations.SymbolsBeyondTheInputAreNotRead : Prop :=
  ∀ (i : Instr) (s t : State) (m : Mem Word), i ∈ [.count, .pack, .compress] →
    (∀ j, j < s.nLen.toNat → j < s.cfg.maxN → m.read j = s.sym.read j) → exec i s = .next t →
    exec i { s with sym := m } = .next { t with sym := m }

/-! ## COUNT -/

/-- 41_frequency.md R122, R123: the table that a COUNT of valid input commits. -/
def Obligations.CountBuildsTheFrequencyTable : Prop :=
  ∀ s : State, DataOk s → tagKnown s → 1 ≤ s.nLen.toNat → s.nLen.toNat ≤ s.cfg.maxN →
    (∀ i < s.nLen.toNat, validAt s i) → (inputSymbols s).dedup.length ≤ s.cfg.maxK →
    ∃ t, exec .count s = .next t ∧
      t = succeeded { invalidated .count s with freq := t.freq, kCnt := t.kCnt, fv := true } ∧
      (∀ e ∈ freqs t, 1 ≤ e.count.toNat ∧ e.count.toNat = (inputSymbols s).count e.sym) ∧
      ((freqs t).map (fun e => e.count.toNat)).sum = s.nLen.toNat ∧
      (1 ≤ t.kCnt.toNat ∧ t.kCnt.toNat ≤ s.nLen.toNat ∧ t.kCnt.toNat ≤ s.cfg.maxK) ∧
      ((freqs t).map (fun e => e.sym)).Nodup ∧
      (∀ x ∈ inputSymbols s, ∃ e ∈ freqs t, e.sym = x) ∧
      ((freqs t).map (fun e => (inputSymbols s).idxOf e.sym)).Pairwise (· < ·) ∧
      (∀ k, t.kCnt.toNat ≤ k → t.freq.read k = s.freq.read k)

/-- 41_frequency.md R121: COUNT's errors in their order. -/
def Obligations.CountReportsTheFirstError : Prop :=
  ∀ s : State, s.cfg.wf = true →
    (¬ tagKnown s → exec .count s = .next (failed (invalidated .count s) 0x01#8 4#4 0#32)) ∧
    (tagKnown s →
      (s.nLen = 0#32 → exec .count s = .next (failed (invalidated .count s) 0x01#8 1#4 0#32)) ∧
      (s.cfg.maxN < s.nLen.toNat → exec .count s = .next (failed (invalidated .count s) 0x01#8 6#4 0#32)) ∧
      (s.nLen.toNat ≤ s.cfg.maxN →
        (∀ i < s.nLen.toNat, ¬ validAt s i → (∀ j < i, validAt s j) →
          exec .count s = .next (failed (invalidated .count s) 0x01#8 5#4 (BitVec.ofNat 32 i))) ∧
        ((∀ i < s.nLen.toNat, validAt s i) → s.cfg.maxK < (inputSymbols s).dedup.length →
          exec .count s = .next (failed (invalidated .count s) 0x01#8 6#4 0#32))))

/-! ## BUILD -/

/-- 42_tree_builder.md R148, R147: with a committed table whose codes all fit MAX_CODE_LEN, BUILD succeeds, writes entry k for
entry k's symbol, and leaves FREQ, FV and K_CNT. -/
def Obligations.BuildSucceedsWhenCodesFit : Prop :=
  ∀ s : State, DataOk s → s.fv = true → (∀ c ∈ huffmanCodes (freqs s), c.length ≤ s.cfg.maxCodeLen) →
    ∃ t, exec .build s = .next t ∧
      t = succeeded { invalidated .build s with code := t.code, cv := true } ∧
      (∀ k < s.kCnt.toNat, (t.code.read k).sym = (s.freq.read k).sym) ∧
      (∀ k, s.kCnt.toNat ≤ k → t.code.read k = s.code.read k)

/-- 42_tree_builder.md R149: the properties of a committed BUILD result. -/
def Obligations.BuildGivesACompletePrefixCode : Prop :=
  ∀ s t : State, DataOk s → exec .build s = .next t → t.err = false →
    (∀ k < t.kCnt.toNat, 1 ≤ (t.code.read k).len.toNat) ∧
    (∀ i < t.kCnt.toNat, ∀ j < t.kCnt.toNat, i ≠ j → ¬ (t.code.read i).bits <+: (t.code.read j).bits) ∧
    (2 ≤ t.kCnt.toNat → ((codes t).map (fun e => (1 / 2 : ℚ) ^ e.len.toNat)).sum = 1) ∧
    (2 ≤ t.kCnt.toNat → ∀ k < t.kCnt.toNat, (t.code.read k).len.toNat ≤ t.kCnt.toNat - 1) ∧
    (t.kCnt.toNat = 1 → (t.code.read 0).len.toNat = 1) ∧
    ((codes t).map (fun e => e.sym)).Nodup ∧ ((codes t).map CodeEntry.bits).Nodup

/-- 42_tree_builder.md R145: a single symbol gets the code "0". -/
def Obligations.SingleSymbolGetsCodeZero : Prop :=
  ∀ s : State, DataOk s → s.fv = true → s.kCnt = 1#32 →
    ∃ t, exec .build s = .next t ∧ t.cv = true ∧ t.err = false ∧
      t.code.read 0 = { sym := (s.freq.read 0).sym, len := 1#7, val := 0#64 }

/-- 42_tree_builder.md R141 to R144: the two-smallest-merge reduction. From a sorted queue the loop merges the two nodes of
least key and goes on with their merge inserted into what is left. Of K ≥ 2 entries it leaves one root, that of the
reduction of the leaves as R143 says it. -/
def Obligations.ReductionLeavesOneRoot : Prop :=
  (∀ (fuel n : Nat) (q : List Tree), q.Pairwise (fun a b => keyBefore a b = true) →
    (q.length ≤ 1 → reduceQueue fuel n q = q) ∧
    (2 ≤ q.length → ∃ a b rest, PopsTwo q a b rest ∧
      reduceQueue (fuel + 1) n q =
        reduceQueue fuel (n + 1) (queueInsert (.node (treeFreq a + treeFreq b) n a b) rest))) ∧
  (∀ table : List FreqEntry, 2 ≤ table.length →
    ∃ root, finalQueue table = [root] ∧
      Reduces table.length (table.mapIdx (fun k e => .leaf e.sym e.count.toNat k)) root ∧
      treeSeq root = 2 * table.length - 2 ∧ treeFreq root = (table.map (fun e => e.count.toNat)).sum ∧
      (treeLeaves root).Perm (table.mapIdx (fun k e => (e.sym, e.count.toNat, k))) ∧
      sumsAndOrder root)

/-- 42_tree_builder.md R142: the queue stays in key order, so that its head is the node with the least key. -/
def Obligations.QueueStaysInKeyOrder : Prop :=
  ∀ (t : Tree) (q : List Tree), q.Pairwise (fun a b => keyBefore a b = true) → (∀ u ∈ q, treeSeq u ≠ treeSeq t) →
    (queueInsert t q).Pairwise (fun a b => keyBefore a b = true) ∧ (queueInsert t q).Perm (t :: q) ∧
    ∀ u v, keyBefore u v = true ↔
      treeFreq u < treeFreq v ∨ (treeFreq u = treeFreq v ∧ treeSeq u < treeSeq v)

/-- 42_tree_builder.md R146: for K ≥ 2 the code of leaf k is the path from the root to leaf k. -/
def Obligations.CodesAreRootToLeafPaths : Prop :=
  ∀ s t : State, DataOk s → 2 ≤ s.kCnt.toNat → exec .build s = .next t → t.err = false →
    ∃ root, finalQueue (freqs s) = [root] ∧
      ∀ k < s.kCnt.toNat, descend root (t.code.read k).bits =
        some (.leaf (s.freq.read k).sym (s.freq.read k).count.toNat k)

/-- 42_tree_builder.md R140, R147: BUILD's two errors; a failed BUILD leaves FV = 1. -/
def Obligations.BuildReportsItsErrors : Prop :=
  ∀ s : State,
    (s.fv = false → exec .build s = .next (failed (invalidated .build s) 0x02#8 7#4 0#32)) ∧
    (s.fv = true → (∃ c ∈ huffmanCodes (freqs s), s.cfg.maxCodeLen < c.length) →
      exec .build s = .next (failed (invalidated .build s) 0x02#8 6#4 0#32)) ∧
    (DataOk s → s.fv = true → s.cfg.maxK - 1 ≤ s.cfg.maxCodeLen →
      ∀ c ∈ huffmanCodes (freqs s), c.length ≤ s.cfg.maxCodeLen)

/-- 30_encoding.md R98: the entry that BUILD writes for a codeword. -/
def Obligations.CodewordsAreHeldByLengthAndValue : Prop :=
  ∀ (cfg : Config) (x : Symbol) (c : Bits), cfg.wf = true → 1 ≤ c.length → c.length ≤ cfg.maxCodeLen →
    (codeEntry x c).len.toNat = c.length ∧
    (codeEntry x c).val.toNat =
      ((List.range c.length).map (fun k => (c.getD k false).toNat * 2 ^ (c.length - 1 - k))).sum ∧
    (codeEntry x c).val.toNat < 2 ^ c.length ∧ (codeEntry x c).bits = c

/-! ## PACK -/

/-- 43_bit_packer.md R172 to R174, R176: what PACK commits. `cs` names, for each input word in order, the entry that holds
its symbol. -/
def Obligations.PackTranslatesAndPads : Prop :=
  ∀ (s : State) (cs : List CodeEntry), DataOk s → s.cv = true → 1 ≤ s.nLen.toNat → s.nLen.toNat ≤ s.cfg.maxN →
    cs.length = s.nLen.toNat →
    (∀ i (h : i < cs.length), cs[i] ∈ codes s ∧ cs[i].sym.setWidth 32 = s.sym.read i) →
    let enc := cs.flatMap CodeEntry.bits
    let extra := 8 - enc.length % 8
    let p := 1 + (enc.length + extra) / 8
    1 ≤ extra ∧ extra ≤ 8 ∧ 2 ≤ p ∧
    (p ≤ s.cfg.maxPay →
      ∃ t, exec .pack s = .next t ∧
        t = succeeded { invalidated .pack s with
                        pay := t.pay, payLen := t.payLen, pad := t.pad, encBits := t.encBits, pv := true } ∧
        t.payLen.toNat = p ∧ t.pad.toNat = extra ∧ t.encBits.toNat = enc.length ∧
        (t.pay.read 0).toNat = extra ∧
        (payBytes t p).flatMap bits8 = bits8 (BitVec.ofNat 8 extra) ++ enc ++ List.replicate extra false ∧
        ∀ j, p ≤ j → t.pay.read j = s.pay.read j)

/-- 43_bit_packer.md R171, R175, R177: PACK's errors in their order. -/
def Obligations.PackReportsTheFirstError : Prop :=
  ∀ s : State, s.cfg.wf = true →
    (s.cv = false → exec .pack s = .next (failed (invalidated .pack s) 0x03#8 7#4 0#32)) ∧
    (s.cv = true →
      (s.nLen = 0#32 → exec .pack s = .next (failed (invalidated .pack s) 0x03#8 1#4 0#32)) ∧
      (s.cfg.maxN < s.nLen.toNat → exec .pack s = .next (failed (invalidated .pack s) 0x03#8 6#4 0#32)) ∧
      (s.nLen.toNat ≤ s.cfg.maxN →
        (∀ i < s.nLen.toNat, (∀ e ∈ codes s, e.sym.setWidth 32 ≠ s.sym.read i) →
          (∀ j < i, ∃ e ∈ codes s, e.sym.setWidth 32 = s.sym.read j) →
          exec .pack s = .next (failed (invalidated .pack s) 0x03#8 2#4 (BitVec.ofNat 32 i))) ∧
        (∀ cs : List CodeEntry, DataOk s → s.nLen ≠ 0#32 → cs.length = s.nLen.toNat →
          (∀ i (h : i < cs.length), cs[i] ∈ codes s ∧ cs[i].sym.setWidth 32 = s.sym.read i) →
          let n := (cs.flatMap CodeEntry.bits).length
          s.cfg.maxPay < 1 + (n + (8 - n % 8)) / 8 →
          exec .pack s = .next (failed (invalidated .pack s) 0x03#8 6#4 0#32))))

/-! ## UNPACK -/

/-- 44_bit_unpacker.md R191 to R193: a payload whose code bits are a sequence of codes decodes to their symbols. -/
def Obligations.UnpackDecodesCodeSequences : Prop :=
  ∀ (s : State) (es : List CodeEntry), DataOk s → s.cv = true → s.pv = true →
    (s.pay.read 0).toNat ≤ 8 * (s.payLen.toNat - 1) → (∀ e ∈ es, e ∈ codes s) →
    codeBits s = es.flatMap CodeEntry.bits → es.length ≤ s.cfg.maxN →
    ∃ t, exec .unpack s = .next t ∧
      t = succeeded { invalidated .unpack s with out := t.out, outLen := t.outLen, ov := true } ∧
      t.outLen.toNat = es.length ∧ outWords t es.length = es.map (fun e => e.sym.setWidth 32) ∧
      ∀ j, es.length ≤ j → t.out.read j = s.out.read j

/-- 44_bit_unpacker.md R191, R194, R195: UNPACK's errors in their order. -/
def Obligations.UnpackReportsTheFirstError : Prop :=
  ∀ s : State,
    (s.cv = false ∨ s.pv = false → exec .unpack s = .next (failed (invalidated .unpack s) 0x06#8 7#4 0#32)) ∧
    (s.cv = true → s.pv = true →
      (1 ≤ s.payLen.toNat → 8 < (s.pay.read 0).toNat ∨ 8 * (s.payLen.toNat - 1) < (s.pay.read 0).toNat →
        exec .unpack s = .next (failed (invalidated .unpack s) 0x06#8 3#4 0#32)) ∧
      (DataOk s → (s.pay.read 0).toNat ≤ 8 * (s.payLen.toNat - 1) →
        ∀ (es : List CodeEntry) (rest : Bits), (∀ e ∈ es, e ∈ codes s) →
          codeBits s = es.flatMap CodeEntry.bits ++ rest →
          (es.length ≤ s.cfg.maxN → rest ≠ [] → (∀ e ∈ codes s, ¬ e.bits <+: rest) →
            exec .unpack s = .next (failed (invalidated .unpack s) 0x06#8 3#4 0#32)) ∧
          (es.length = s.cfg.maxN + 1 →
            exec .unpack s = .next (failed (invalidated .unpack s) 0x06#8 6#4 0#32))))

/-- 44_bit_unpacker.md R196: stopping once the accumulator is longer than the longest code cannot be told apart. -/
def Obligations.EarlyStopIsUnobservable : Prop :=
  ∀ (table : List CodeEntry) (maxN bound : Nat) (enc : Bits), (∀ e ∈ table, e.len.toNat ≤ bound) →
    decodeEarly table maxN bound [] [] enc = decodeLoop table maxN [] [] enc

/-- 44_bit_unpacker.md R197: UNPACK right after PACK gives the input back. -/
def Obligations.PackThenUnpackGivesTheInputBack : Prop :=
  ∀ s t : State, DataOk s → exec .pack s = .next t → t.err = false →
    ∃ u, exec .unpack t = .next u ∧ u.err = false ∧ u.ov = true ∧ u.outLen = s.nLen ∧
      ∀ m < s.nLen.toNat, u.out.read m = s.sym.read m

/-! ## SERIALIZE and PARSE -/

/-- 30_encoding.md R99, R100, R103, R105, R106, 45_container.md R210, R211: the container that SERIALIZE writes. -/
def Obligations.SerializeWritesTheLayout : Prop :=
  ∀ s : State, DataOk s → s.cv = true → s.pv = true → tagKnown s →
    (s.tag = 0x00#8 → ∀ e ∈ codes s, e.sym.toNat ≤ 0x10FFFF) →
    let l := containerLength (if s.tag = 0x01#8 then 1 else 0) (codes s) s.payLen.toNat
    l ≤ s.cfg.maxCont →
    ∃ t, exec .serialize s = .next t ∧
      t = succeeded { s with cont := t.cont, contLen := t.contLen } ∧ t.contLen.toNat = l ∧
      contBytes t (l - 1) =
        layoutBody s.tag s.shape0 s.shape1 s.shape2 (codes s) (payBytes s s.payLen.toNat) ∧
      t.cont.read (l - 1) = contXor t (l - 1) ∧ contXor t l = 0#8 ∧ 23 ≤ l ∧
      ∀ j, l ≤ j → t.cont.read j = s.cont.read j

/-- 45_container.md R210, R212, R213: SERIALIZE's errors in their order; CONT keeps its bytes. -/
def Obligations.SerializeReportsTheFirstError : Prop :=
  ∀ s : State, DataOk s →
    (s.cv = false ∨ s.pv = false → exec .serialize s = .next (failed (invalidated .serialize s) 0x04#8 7#4 0#32)) ∧
    (s.cv = true → s.pv = true →
      (¬ tagKnown s → exec .serialize s = .next (failed (invalidated .serialize s) 0x04#8 4#4 0#32)) ∧
      (∀ k < s.kCnt.toNat, s.tag = 0x00#8 → 0x10FFFF < (s.code.read k).sym.toNat →
        (∀ j < k, (s.code.read j).sym.toNat ≤ 0x10FFFF) →
        exec .serialize s = .next (failed (invalidated .serialize s) 0x04#8 5#4 (BitVec.ofNat 32 k))) ∧
      (tagKnown s → (s.tag = 0x00#8 → ∀ e ∈ codes s, e.sym.toNat ≤ 0x10FFFF) →
        s.cfg.maxCont < containerLength (if s.tag = 0x01#8 then 1 else 0) (codes s) s.payLen.toNat →
        exec .serialize s = .next (failed (invalidated .serialize s) 0x04#8 6#4 0#32)))

/-- 45_container.md R220, R227: PARSE of a container whose fields are acceptable commits them, in order. -/
def Obligations.ParseReadsAcceptableContainers : Prop :=
  ∀ (s : State) (tag : Byte) (w h c : Word) (table : List CodeEntry) (payload : List Byte), DataOk s →
    Acceptable s.cfg tag table payload → HoldsContainer s tag w h c table payload →
    ∃ t, exec .parse s = .next t ∧
      t = succeeded { invalidated .parse s with
                      tag := tag
                      shape0 := if tag = 0x01#8 then w else 0#32
                      shape1 := if tag = 0x01#8 then h else 0#32
                      shape2 := if tag = 0x01#8 then c else 0#32
                      code := t.code, kCnt := t.kCnt, pay := t.pay, payLen := t.payLen
                      pad := payload.headD 0#8, cv := true, pv := true } ∧
      t.kCnt.toNat = table.length ∧ codes t = table ∧ t.payLen.toNat = payload.length ∧
      payBytes t payload.length = payload ∧ (∀ k, table.length ≤ k → t.code.read k = s.code.read k) ∧
      ∀ j, payload.length ≤ j → t.pay.read j = s.pay.read j

/-- 45_container.md R222 to R226: PARSE accepts nothing else. What it commits lies in CONT in the layout, with a right
check byte, and satisfies every condition; a text container commits the shape (0, 0, 0). -/
def Obligations.ParseAcceptsOnlyTheLayout : Prop :=
  ∀ s t : State, DataOk s → exec .parse s = .next t → t.err = false →
    HoldsContainer s t.tag t.shape0 t.shape1 t.shape2 (codes t) (payBytes t t.payLen.toNat) ∧
    Acceptable s.cfg t.tag (codes t) (payBytes t t.payLen.toNat) ∧ t.pad = t.pay.read 0 ∧
    (t.tag = 0x00#8 → t.shape0 = 0#32 ∧ t.shape1 = 0#32 ∧ t.shape2 = 0#32)

/-- 45_container.md R227: what holds after every PARSE, failed or not. -/
def Obligations.ParseAlwaysClearsCountsAndKeepsOutput : Prop :=
  ∀ s t : State, exec .parse s = .next t →
    t.fv = false ∧ t.encBits = 0#32 ∧ t.out = s.out ∧ t.outLen = s.outLen ∧ t.ov = s.ov ∧
    (t.err = false → t.cv = true ∧ t.pv = true) ∧
    (t.err = true → t.cv = false ∧ t.pv = false ∧ t.kCnt = 0#32 ∧ t.payLen = 0#32 ∧ t.pad = 0#8 ∧ t.tag = s.tag ∧
      t.shape0 = s.shape0 ∧ t.shape1 = s.shape1 ∧ t.shape2 = s.shape2)

/-- 45_container.md R221: length and check byte come first, so every single-bit change of a container that PARSE accepts
is rejected. -/
def Obligations.SingleBitFlipsAreRejected : Prop :=
  (∀ s : State, s.cfg.maxCont < s.contLen.toNat →
    exec .parse s = .next (failed (invalidated .parse s) 0x05#8 6#4 0#32)) ∧
  (∀ s : State, s.contLen.toNat ≤ s.cfg.maxCont → s.contLen = 0#32 ∨ contXor s s.contLen.toNat ≠ 0#8 →
    exec .parse s = .next (failed (invalidated .parse s) 0x05#8 3#4 0#32)) ∧
  (∀ (s t u : State) (j b : Nat), DataOk s → exec .parse s = .next t → t.err = false → j < s.contLen.toNat → b < 8 →
    u = { s with cont := s.cont.write j (s.cont.read j ^^^ (1#8 <<< b)) } →
    exec .parse u = .next (failed (invalidated .parse u) 0x05#8 3#4 0#32))

/-- 45_container.md R222: a truncated copy of a container that PARSE accepts is rejected as corrupt. -/
def Obligations.TruncatedContainersAreRejected : Prop :=
  ∀ (s t u : State) (n : Nat), exec .parse s = .next t → t.err = false → n < s.contLen.toNat →
    u = { s with contLen := BitVec.ofNat 32 n } →
    exec .parse u = .next (failed (invalidated .parse u) 0x05#8 3#4 0#32)

/-- 45_container.md R220, R222 to R226: PARSE's errors in their order, for a blob of any length from 1 that fits and whose
check byte is right: PARSE fails exactly if the bytes before the check byte fail a check, with the code of the first. -/
def Obligations.ParseReportsTheFirstError : Prop :=
  ∀ s : State, 1 ≤ s.contLen.toNat → s.contLen.toNat ≤ s.cfg.maxCont → contXor s s.contLen.toNat = 0#8 →
    (∀ code, Rejects s.cfg (contBytes s (s.contLen.toNat - 1)) code →
      exec .parse s = .next (failed (invalidated .parse s) 0x05#8 code 0#32)) ∧
    (∀ t, exec .parse s = .next t → t.err = true →
      Rejects s.cfg (contBytes s (s.contLen.toNat - 1)) t.errcode)

/-- 45_container.md R228: PARSE of what SERIALIZE wrote restores what SERIALIZE read, whatever else has changed since: `r` is
any state with the same capacities, CONT_LEN and CONT bytes below it. A SERIALIZE after that writes the same bytes again. -/
def Obligations.SerializeThenParseRestores : Prop :=
  ∀ s t r : State, DataOk s → exec .serialize s = .next t → t.err = false →
    DataOk r → r.cfg = t.cfg → r.contLen = t.contLen → (∀ j < t.contLen.toNat, r.cont.read j = t.cont.read j) →
    ∃ u, exec .parse r = .next u ∧ u.err = false ∧ u.tag = s.tag ∧
      (s.tag = 0x01#8 → u.shape0 = s.shape0 ∧ u.shape1 = s.shape1 ∧ u.shape2 = s.shape2) ∧
      u.kCnt = s.kCnt ∧ codes u = codes s ∧ u.payLen = s.payLen ∧ u.pad = s.pad ∧
      payBytes u u.payLen.toNat = payBytes s s.payLen.toNat ∧
      ∃ v, exec .serialize u = .next v ∧ v.err = false ∧ v.contLen = t.contLen ∧
        contBytes v v.contLen.toNat = contBytes t t.contLen.toNat

/-! ## Control commands -/

/-- 46_control.md R250: NOP completes and changes nothing else. -/
def Obligations.NopOnlyCompletes : Prop := ∀ s : State, exec .nop s = .next (succeeded s)

/-- 46_control.md R251: CLEAR forgets every result; the memories are not erased but masked. While FV, CV and PV are all 0, as
CLEAR leaves them, the commands that need a result fail with SEQUENCE_ERROR, and the only step that ends this is a
completion, of COUNT or PARSE or of a macro that begins with one, that leaves FV = 1 or CV = PV = 1. -/
def Obligations.ClearForgetsEveryResult : Prop :=
  ∀ s : State,
    exec .clear s = .next (succeeded (invalidated .clear s)) ∧
    (∀ t, exec .clear s = .next t →
      (t.winSel ∈ [1#3, 2#3, 3#3, 5#3] → (hostStep t (.read 0x088#12)).rdata = 0#32) ∧
      t.fv = false ∧ t.cv = false ∧ t.pv = false) ∧
    (s.fv = false → s.cv = false → s.pv = false →
      (∀ i ∈ [Instr.build, .pack, .serialize, .unpack],
        exec i s = .next (failed (invalidated i s) (opcode i) 7#4 0#32)) ∧
      ∀ t, step s = .next t → t.fv = true ∨ t.cv = true ∨ t.pv = true →
        ∃ i ∈ [Instr.count, .parse, .compress, .decompress], s.busy = true ∧ decode s.pend = .ok i ∧
          (t.fv = true ∨ (t.cv = true ∧ t.pv = true)))

/-- 46_control.md R252, R253: COMPRESS clears CONT_LEN, then is COUNT, BUILD, PACK and SERIALIZE, one after the other, up
to the first that fails; DECOMPRESS clears OV and OUT_LEN, then is PARSE and UNPACK. -/
def Obligations.MacrosRunTheirStages : Prop :=
  ∀ s : State,
    exec .compress s =
      thenIfOk (thenIfOk (thenIfOk (exec .count { s with contLen := 0#32 }) (exec .build)) (exec .pack))
        (exec .serialize) ∧
    exec .decompress s = thenIfOk (exec .parse { s with ov := false, outLen := 0#32 }) (exec .unpack)

/-- 46_control.md R252: COMPRESS completes with success in every state whose input is valid and fits: the conditions are
those under which none of the errors of its stages applies (41_frequency.md R121, 42_tree_builder.md R147, 43_bit_packer.md
R175, 45_container.md R212, R213), computed from TAG, N_LEN, SYM and the capacities alone. -/
def Obligations.CompressSucceedsOnValidInput : Prop :=
  ∀ s : State, DataOk s → tagKnown s → 1 ≤ s.nLen.toNat → s.nLen.toNat ≤ s.cfg.maxN →
    (∀ i < s.nLen.toNat, validAt s i) →
    let table := inputTable s
    let cs := huffmanCodes table
    let n := (List.zipWith (fun e c => e.count.toNat * c.length) table cs).sum
    let p := 1 + (n + (8 - n % 8)) / 8
    let l := 17 + 12 * (if s.tag = 0x01#8 then 1 else 0) + (cs.map (fun c => 4 + (c.length + 7) / 8)).sum + p
    table.length ≤ s.cfg.maxK → (∀ c ∈ cs, c.length ≤ s.cfg.maxCodeLen) → p ≤ s.cfg.maxPay → l ≤ s.cfg.maxCont →
    ∃ t, exec .compress s = .next t ∧
      t = succeeded { s with
                      freq := t.freq, code := t.code, pay := t.pay, cont := t.cont, kCnt := t.kCnt, payLen := t.payLen
                      pad := t.pad, encBits := t.encBits, contLen := t.contLen, fv := true, cv := true, pv := true } ∧
      t.kCnt.toNat = table.length ∧ freqs t = table ∧ (codes t).map CodeEntry.bits = cs ∧
      t.payLen.toNat = p ∧ t.encBits.toNat = n ∧ t.contLen.toNat = l

/-- DECOMPRESS succeeds on an acceptable container whose code bits are a sequence of codes, and gives their symbols
(46_control.md R253, 45_container.md R227, 44_bit_unpacker.md R193). -/
def Obligations.DecompressDecodesAcceptableContainers : Prop :=
  ∀ (s : State) (tag : Byte) (w h c : Word) (table es : List CodeEntry) (payload : List Byte), DataOk s →
    Acceptable s.cfg tag table payload → HoldsContainer s tag w h c table payload →
    (payload.headD 0#8).toNat ≤ 8 * (payload.length - 1) → (∀ e ∈ es, e ∈ table) →
    (payload.tail.flatMap bits8).take (8 * (payload.length - 1) - (payload.headD 0#8).toNat) =
      es.flatMap CodeEntry.bits →
    es.length ≤ s.cfg.maxN →
    ∃ t, exec .decompress s = .next t ∧ t.tag = tag ∧ t.outLen.toNat = es.length ∧
      outWords t es.length = es.map (fun e => e.sym.setWidth 32) ∧
      t = succeeded { invalidated .parse s with
                      tag := t.tag, shape0 := t.shape0, shape1 := t.shape1, shape2 := t.shape2
                      code := t.code, kCnt := t.kCnt, pay := t.pay, payLen := t.payLen
                      pad := t.pad, cv := true, pv := true, out := t.out, outLen := t.outLen, ov := true }

/-- 45_container.md R229: what COMPRESS wrote, DECOMPRESS gives back: every symbol, the tag and the pixels' shape. -/
def Obligations.CompressThenDecompressGivesTheInputBack : Prop :=
  ∀ s t : State, DataOk s → exec .compress s = .next t → t.err = false →
    ∃ u, exec .decompress t = .next u ∧ u.err = false ∧ u.ov = true ∧ u.outLen = s.nLen ∧ u.tag = s.tag ∧
      (s.tag = 0x01#8 → u.shape0 = s.shape0 ∧ u.shape1 = s.shape1 ∧ u.shape2 = s.shape2) ∧
      ∀ m < s.nLen.toNat, u.out.read m = s.sym.read m

/-! ## The invariant -/

/-- Every reset leaves a state that meets the invariant, for all capacities that R7 allows and any memory contents. -/
def Obligations.ResetMeetsTheInvariant : Prop :=
  Inv State.reset ∧ ∀ (s : State) (c : Contents), s.cfg.wf = true → Inv (resetStep s c)

/-- 10_state.md R28, R29, R40 to R44, R49 to R51, 20_memory.md R84: every step keeps the invariant. -/
def Obligations.EveryStepKeepsTheInvariant : Prop :=
  ∀ s t : State, Inv s → step s = .next t → Inv t
end

