-- ==== Sys2Proof/Laws/Bits.lean ====
section
/-! SUPPORT. The laws of bit strings, payload bytes, big-endian fields and the check byte. -/

namespace Sys2Proof.Machine

/-! ## Numbers of bit strings -/

@[simp] theorem bitsVal_nil : bitsVal [] = 0 := rfl

theorem bitsVal_foldl (c : Bits) (a : Nat) :
    c.foldl (fun acc x => 2 * acc + x.toNat) a = a * 2 ^ c.length + bitsVal c := by
  induction c generalizing a with
  | nil => simp
  | cons b c ih =>
    have h : bitsVal (b :: c) = (2 * 0 + b.toNat) * 2 ^ c.length + bitsVal c := ih _
    rw [List.foldl_cons, ih, h, List.length_cons, pow_succ]
    ring

theorem bitsVal_cons (b : Bool) (c : Bits) : bitsVal (b :: c) = b.toNat * 2 ^ c.length + bitsVal c := by
  rw [bitsVal, List.foldl_cons, bitsVal_foldl]
  simp

theorem bitsVal_append (c d : Bits) : bitsVal (c ++ d) = bitsVal c * 2 ^ d.length + bitsVal d := by
  rw [bitsVal, List.foldl_append, bitsVal_foldl]
  rfl

theorem bitsVal_lt (c : Bits) : bitsVal c < 2 ^ c.length := by
  induction c with
  | nil => simp
  | cons b c ih =>
    rw [bitsVal_cons, List.length_cons, pow_succ]
    cases b <;> simp <;> omega

@[simp] theorem codeOf_length (n v : Nat) : (codeOf n v).length = n := by simp [codeOf]

@[simp] theorem codeOf_zero (v : Nat) : codeOf 0 v = [] := rfl

theorem codeOf_succ (n v : Nat) : codeOf (n + 1) v = v.testBit n :: codeOf n v := by
  unfold codeOf
  rw [List.range_succ_eq_map, List.map_cons, List.map_map]
  congr 1
  refine List.map_congr_left fun k _ => ?_
  show v.testBit (n + 1 - 1 - (k + 1)) = v.testBit (n - 1 - k)
  congr 1
  omega

/-- A codeword depends on the low bits of the value only. -/
theorem codeOf_mod (n v : Nat) : codeOf n (v % 2 ^ n) = codeOf n v := by
  unfold codeOf
  refine List.map_congr_left fun k hk => ?_
  rw [Nat.testBit_mod_two_pow]
  have : n - 1 - k < n := by have := List.mem_range.1 hk; omega
  simp [this]

theorem codeOf_add_mul (n a v : Nat) : codeOf n (a * 2 ^ n + v) = codeOf n v := by
  rw [← codeOf_mod n (a * 2 ^ n + v), Nat.mul_add_mod_self_right, codeOf_mod]

/-- `code_of(len(c), val(c)) = c` (30_encoding.md R98). -/
theorem codeOf_bitsVal (c : Bits) : codeOf c.length (bitsVal c) = c := by
  induction c with
  | nil => rfl
  | cons b c ih =>
    rw [List.length_cons, codeOf_succ, bitsVal_cons, codeOf_add_mul, ih]
    congr 1
    have h := bitsVal_lt c
    rw [Nat.mul_comm, Nat.testBit_two_pow_mul_add _ h]
    cases b <;> simp

theorem bitsVal_codeOf (n v : Nat) : bitsVal (codeOf n v) = v % 2 ^ n := by
  induction n with
  | zero => simp [Nat.mod_one]
  | succ n ih =>
    rw [codeOf_succ, bitsVal_cons, codeOf_length, ih, Nat.mod_pow_succ, Nat.toNat_testBit]
    ring

/-- A bit string is its length and its value. -/
theorem bits_ext {c d : Bits} (hl : c.length = d.length) (hv : bitsVal c = bitsVal d) : c = d := by
  rw [← codeOf_bitsVal c, ← codeOf_bitsVal d, hl, hv]

theorem codeOf_append (m n v : Nat) : codeOf (m + n) v = codeOf m (v / 2 ^ n) ++ codeOf n v := by
  refine bits_ext (by simp) ?_
  rw [bitsVal_append, bitsVal_codeOf, bitsVal_codeOf, bitsVal_codeOf, codeOf_length, Nat.pow_add, Nat.mul_comm (2 ^ m),
    Nat.mod_mul, Nat.add_comm, Nat.mul_comm]

/-! ## Payload bytes -/

@[simp] theorem bits8_length (b : Byte) : (bits8 b).length = 8 := by simp [bits8]

theorem bitsVal_bits8 (b : Byte) : bitsVal (bits8 b) = b.toNat := by
  rw [bits8, bitsVal_codeOf]
  exact Nat.mod_eq_of_lt b.isLt

theorem flatMap_bits8_length (l : List Byte) : (l.flatMap bits8).length = 8 * l.length := by
  induction l with
  | nil => rfl
  | cons b l ih => rw [List.flatMap_cons, List.length_append, ih, bits8_length, List.length_cons]; omega

/-- The first eight bits give the first byte. -/
theorem bytesOf_append {c : Bits} (hc : c.length = 8) (d : Bits) :
    bytesOf (c ++ d) = BitVec.ofNat 8 (bitsVal c) :: bytesOf d := by
  match c, hc with
  | [b0, b1, b2, b3, b4, b5, b6, b7], _ => rfl

@[simp] theorem bytesOf_nil : bytesOf [] = [] := rfl

theorem bytesOf_flatMap (l : List Byte) : bytesOf (l.flatMap bits8) = l := by
  induction l with
  | nil => rfl
  | cons b l ih => rw [List.flatMap_cons, bytesOf_append (bits8_length b), ih, bitsVal_bits8, BitVec.ofNat_toNat,
      BitVec.setWidth_eq]

/-- A string of whole bytes is the bits of its bytes. -/
theorem flatMap_bytesOf {n : Nat} {c : Bits} (hc : c.length = 8 * n) : (bytesOf c).flatMap bits8 = c := by
  induction n generalizing c with
  | zero => rw [List.length_eq_zero_iff.1 (by omega : c.length = 0)]; rfl
  | succ n ih =>
    have h8 : (c.take 8).length = 8 := by rw [List.length_take]; omega
    have hd : (c.drop 8).length = 8 * n := by rw [List.length_drop]; omega
    conv_lhs => rw [← List.take_append_drop 8 c]
    rw [bytesOf_append h8, List.flatMap_cons, ih hd]
    conv_rhs => rw [← List.take_append_drop 8 c]
    congr 1
    refine bits_ext (by simp [h8]) ?_
    rw [bitsVal_bits8, BitVec.toNat_ofNat]
    exact Nat.mod_eq_of_lt (by simpa [h8] using bitsVal_lt (c.take 8))

theorem bytesOf_length {n : Nat} {c : Bits} (hc : c.length = 8 * n) : (bytesOf c).length = n := by
  have := flatMap_bits8_length (bytesOf c)
  rw [flatMap_bytesOf hc] at this
  omega

/-! ## Big-endian fields -/

@[simp] theorem beBytes_length (n v : Nat) : (beBytes n v).length = n := by simp [beBytes]

@[simp] theorem beVal_nil : beVal [] = 0 := rfl

theorem beVal_foldl (l : List Byte) (a : Nat) :
    l.foldl (fun acc b => 256 * acc + b.toNat) a = a * 256 ^ l.length + beVal l := by
  induction l generalizing a with
  | nil => simp
  | cons b l ih =>
    have h : beVal (b :: l) = (256 * 0 + b.toNat) * 256 ^ l.length + beVal l := ih _
    rw [List.foldl_cons, ih, h, List.length_cons, pow_succ]
    ring

theorem beVal_cons (b : Byte) (l : List Byte) : beVal (b :: l) = b.toNat * 256 ^ l.length + beVal l := by
  rw [beVal, List.foldl_cons, beVal_foldl]
  simp

theorem beVal_lt (l : List Byte) : beVal l < 256 ^ l.length := by
  induction l with
  | nil => simp
  | cons b l ih =>
    have hb := b.isLt
    rw [beVal_cons, List.length_cons, pow_succ]
    nlinarith

theorem beBytes_succ (n v : Nat) : beBytes (n + 1) v = BitVec.ofNat 8 (v / 256 ^ n) :: beBytes n v := by
  unfold beBytes
  rw [List.range_succ_eq_map, List.map_cons, List.map_map]
  congr 1
  refine List.map_congr_left fun k _ => ?_
  show BitVec.ofNat 8 (v / 256 ^ (n + 1 - 1 - (k + 1))) = BitVec.ofNat 8 (v / 256 ^ (n - 1 - k))
  congr 3
  omega

theorem beVal_beBytes (n v : Nat) : beVal (beBytes n v) = v % 256 ^ n := by
  induction n with
  | zero => simp [beBytes, Nat.mod_one]
  | succ n ih =>
    rw [beBytes_succ, beVal_cons, beBytes_length, ih, BitVec.toNat_ofNat, Nat.mod_pow_succ (b := 256)]
    show v / 256 ^ n % 256 * 256 ^ n + v % 256 ^ n = v % 256 ^ n + 256 ^ n * (v / 256 ^ n % 256)
    rw [Nat.mul_comm, Nat.add_comm]

/-- The bits of a big-endian field are the bits of its number. -/
theorem flatMap_beBytes (n v : Nat) : (beBytes n v).flatMap bits8 = codeOf (8 * n) v := by
  induction n with
  | zero => rfl
  | succ n ih =>
    rw [beBytes_succ, List.flatMap_cons, ih, show 8 * (n + 1) = 8 + 8 * n by omega, codeOf_append,
      show (2 : Nat) ^ (8 * n) = 256 ^ n by rw [pow_mul]; rfl]
    congr 1
    rw [bits8, BitVec.toNat_ofNat, codeOf_mod]

/-! ## The check byte -/

theorem xorBytes_foldl (l : List Byte) (a : Byte) : l.foldl (· ^^^ ·) a = a ^^^ xorBytes l := by
  induction l generalizing a with
  | nil => simp [xorBytes]
  | cons b l ih =>
    have h : xorBytes (b :: l) = (0#8 ^^^ b) ^^^ xorBytes l := ih _
    rw [List.foldl_cons, ih, h, BitVec.zero_xor, BitVec.xor_assoc]

theorem xorBytes_append (l m : List Byte) : xorBytes (l ++ m) = xorBytes l ^^^ xorBytes m := by
  rw [xorBytes, List.foldl_append, xorBytes_foldl]
  rfl

@[simp] theorem xorBytes_singleton (b : Byte) : xorBytes [b] = b := by simp [xorBytes]

/-- The XOR of a body with its check byte is 0 (30_encoding.md R105). -/
theorem xorBytes_withCheckByte (body : List Byte) : xorBytes (withCheckByte body) = 0#8 := by
  rw [withCheckByte, xorBytes_append, xorBytes_singleton, BitVec.xor_self]

end Sys2Proof.Machine
end

