-- ==== Sys2Proof/Laws/State.lean ====
section
/-! SUPPORT. Each named update of State, field by field, so that no proof unfolds a record update. -/

namespace Sys2Proof.Machine

section
variable (s : State) (w : Word)
@[simp] theorem State.accept_cfg : (s.accept w).cfg = s.cfg := rfl
@[simp] theorem State.accept_busy : (s.accept w).busy = true := rfl
@[simp] theorem State.accept_done : (s.accept w).done = false := rfl
@[simp] theorem State.accept_err : (s.accept w).err = false := rfl
@[simp] theorem State.accept_ovr : (s.accept w).ovr = s.ovr := rfl
@[simp] theorem State.accept_errcode : (s.accept w).errcode = 0#4 := rfl
@[simp] theorem State.accept_errOp : (s.accept w).errOp = 0#8 := rfl
@[simp] theorem State.accept_fv : (s.accept w).fv = s.fv := rfl
@[simp] theorem State.accept_cv : (s.accept w).cv = s.cv := rfl
@[simp] theorem State.accept_pv : (s.accept w).pv = s.pv := rfl
@[simp] theorem State.accept_ov : (s.accept w).ov = s.ov := rfl
@[simp] theorem State.accept_pend : (s.accept w).pend = w := rfl
@[simp] theorem State.accept_doneEn : (s.accept w).doneEn = s.doneEn := rfl
@[simp] theorem State.accept_donePend : (s.accept w).donePend = s.donePend := rfl
@[simp] theorem State.accept_errInfo : (s.accept w).errInfo = s.errInfo := rfl
@[simp] theorem State.accept_tag : (s.accept w).tag = s.tag := rfl
@[simp] theorem State.accept_nLen : (s.accept w).nLen = s.nLen := rfl
@[simp] theorem State.accept_shape0 : (s.accept w).shape0 = s.shape0 := rfl
@[simp] theorem State.accept_shape1 : (s.accept w).shape1 = s.shape1 := rfl
@[simp] theorem State.accept_shape2 : (s.accept w).shape2 = s.shape2 := rfl
@[simp] theorem State.accept_contLen : (s.accept w).contLen = s.contLen := rfl
@[simp] theorem State.accept_kCnt : (s.accept w).kCnt = s.kCnt := rfl
@[simp] theorem State.accept_payLen : (s.accept w).payLen = s.payLen := rfl
@[simp] theorem State.accept_pad : (s.accept w).pad = s.pad := rfl
@[simp] theorem State.accept_encBits : (s.accept w).encBits = s.encBits := rfl
@[simp] theorem State.accept_outLen : (s.accept w).outLen = s.outLen := rfl
@[simp] theorem State.accept_winSel : (s.accept w).winSel = s.winSel := rfl
@[simp] theorem State.accept_winIdx : (s.accept w).winIdx = s.winIdx := rfl
@[simp] theorem State.accept_sym : (s.accept w).sym = s.sym := rfl
@[simp] theorem State.accept_freq : (s.accept w).freq = s.freq := rfl
@[simp] theorem State.accept_code : (s.accept w).code = s.code := rfl
@[simp] theorem State.accept_pay : (s.accept w).pay = s.pay := rfl
@[simp] theorem State.accept_cont : (s.accept w).cont = s.cont := rfl
@[simp] theorem State.accept_out : (s.accept w).out = s.out := rfl
@[simp] theorem State.accept_rdata : (s.accept w).rdata = s.rdata := rfl
@[simp] theorem State.accept_input : (s.accept w).input = s.input := rfl
end

section
variable (s : State)
@[simp] theorem State.invalidatePay_cfg : s.invalidatePay.cfg = s.cfg := rfl
@[simp] theorem State.invalidatePay_busy : s.invalidatePay.busy = s.busy := rfl
@[simp] theorem State.invalidatePay_done : s.invalidatePay.done = s.done := rfl
@[simp] theorem State.invalidatePay_err : s.invalidatePay.err = s.err := rfl
@[simp] theorem State.invalidatePay_ovr : s.invalidatePay.ovr = s.ovr := rfl
@[simp] theorem State.invalidatePay_errcode : s.invalidatePay.errcode = s.errcode := rfl
@[simp] theorem State.invalidatePay_errOp : s.invalidatePay.errOp = s.errOp := rfl
@[simp] theorem State.invalidatePay_fv : s.invalidatePay.fv = s.fv := rfl
@[simp] theorem State.invalidatePay_cv : s.invalidatePay.cv = s.cv := rfl
@[simp] theorem State.invalidatePay_pv : s.invalidatePay.pv = false := rfl
@[simp] theorem State.invalidatePay_ov : s.invalidatePay.ov = s.ov := rfl
@[simp] theorem State.invalidatePay_pend : s.invalidatePay.pend = s.pend := rfl
@[simp] theorem State.invalidatePay_doneEn : s.invalidatePay.doneEn = s.doneEn := rfl
@[simp] theorem State.invalidatePay_donePend : s.invalidatePay.donePend = s.donePend := rfl
@[simp] theorem State.invalidatePay_errInfo : s.invalidatePay.errInfo = s.errInfo := rfl
@[simp] theorem State.invalidatePay_tag : s.invalidatePay.tag = s.tag := rfl
@[simp] theorem State.invalidatePay_nLen : s.invalidatePay.nLen = s.nLen := rfl
@[simp] theorem State.invalidatePay_shape0 : s.invalidatePay.shape0 = s.shape0 := rfl
@[simp] theorem State.invalidatePay_shape1 : s.invalidatePay.shape1 = s.shape1 := rfl
@[simp] theorem State.invalidatePay_shape2 : s.invalidatePay.shape2 = s.shape2 := rfl
@[simp] theorem State.invalidatePay_contLen : s.invalidatePay.contLen = s.contLen := rfl
@[simp] theorem State.invalidatePay_kCnt : s.invalidatePay.kCnt = s.kCnt := rfl
@[simp] theorem State.invalidatePay_payLen : s.invalidatePay.payLen = 0#32 := rfl
@[simp] theorem State.invalidatePay_pad : s.invalidatePay.pad = 0#8 := rfl
@[simp] theorem State.invalidatePay_encBits : s.invalidatePay.encBits = 0#32 := rfl
@[simp] theorem State.invalidatePay_outLen : s.invalidatePay.outLen = s.outLen := rfl
@[simp] theorem State.invalidatePay_winSel : s.invalidatePay.winSel = s.winSel := rfl
@[simp] theorem State.invalidatePay_winIdx : s.invalidatePay.winIdx = s.winIdx := rfl
@[simp] theorem State.invalidatePay_sym : s.invalidatePay.sym = s.sym := rfl
@[simp] theorem State.invalidatePay_freq : s.invalidatePay.freq = s.freq := rfl
@[simp] theorem State.invalidatePay_code : s.invalidatePay.code = s.code := rfl
@[simp] theorem State.invalidatePay_pay : s.invalidatePay.pay = s.pay := rfl
@[simp] theorem State.invalidatePay_cont : s.invalidatePay.cont = s.cont := rfl
@[simp] theorem State.invalidatePay_out : s.invalidatePay.out = s.out := rfl
@[simp] theorem State.invalidatePay_rdata : s.invalidatePay.rdata = s.rdata := rfl
@[simp] theorem State.invalidatePay_input : s.invalidatePay.input = s.input := rfl
end

section
variable (s : State)
@[simp] theorem State.invalidateCode_cfg : s.invalidateCode.cfg = s.cfg := rfl
@[simp] theorem State.invalidateCode_busy : s.invalidateCode.busy = s.busy := rfl
@[simp] theorem State.invalidateCode_done : s.invalidateCode.done = s.done := rfl
@[simp] theorem State.invalidateCode_err : s.invalidateCode.err = s.err := rfl
@[simp] theorem State.invalidateCode_ovr : s.invalidateCode.ovr = s.ovr := rfl
@[simp] theorem State.invalidateCode_errcode : s.invalidateCode.errcode = s.errcode := rfl
@[simp] theorem State.invalidateCode_errOp : s.invalidateCode.errOp = s.errOp := rfl
@[simp] theorem State.invalidateCode_fv : s.invalidateCode.fv = s.fv := rfl
@[simp] theorem State.invalidateCode_cv : s.invalidateCode.cv = false := rfl
@[simp] theorem State.invalidateCode_pv : s.invalidateCode.pv = false := rfl
@[simp] theorem State.invalidateCode_ov : s.invalidateCode.ov = s.ov := rfl
@[simp] theorem State.invalidateCode_pend : s.invalidateCode.pend = s.pend := rfl
@[simp] theorem State.invalidateCode_doneEn : s.invalidateCode.doneEn = s.doneEn := rfl
@[simp] theorem State.invalidateCode_donePend : s.invalidateCode.donePend = s.donePend := rfl
@[simp] theorem State.invalidateCode_errInfo : s.invalidateCode.errInfo = s.errInfo := rfl
@[simp] theorem State.invalidateCode_tag : s.invalidateCode.tag = s.tag := rfl
@[simp] theorem State.invalidateCode_nLen : s.invalidateCode.nLen = s.nLen := rfl
@[simp] theorem State.invalidateCode_shape0 : s.invalidateCode.shape0 = s.shape0 := rfl
@[simp] theorem State.invalidateCode_shape1 : s.invalidateCode.shape1 = s.shape1 := rfl
@[simp] theorem State.invalidateCode_shape2 : s.invalidateCode.shape2 = s.shape2 := rfl
@[simp] theorem State.invalidateCode_contLen : s.invalidateCode.contLen = s.contLen := rfl
@[simp] theorem State.invalidateCode_kCnt : s.invalidateCode.kCnt = s.kCnt := rfl
@[simp] theorem State.invalidateCode_payLen : s.invalidateCode.payLen = 0#32 := rfl
@[simp] theorem State.invalidateCode_pad : s.invalidateCode.pad = 0#8 := rfl
@[simp] theorem State.invalidateCode_encBits : s.invalidateCode.encBits = 0#32 := rfl
@[simp] theorem State.invalidateCode_outLen : s.invalidateCode.outLen = s.outLen := rfl
@[simp] theorem State.invalidateCode_winSel : s.invalidateCode.winSel = s.winSel := rfl
@[simp] theorem State.invalidateCode_winIdx : s.invalidateCode.winIdx = s.winIdx := rfl
@[simp] theorem State.invalidateCode_sym : s.invalidateCode.sym = s.sym := rfl
@[simp] theorem State.invalidateCode_freq : s.invalidateCode.freq = s.freq := rfl
@[simp] theorem State.invalidateCode_code : s.invalidateCode.code = s.code := rfl
@[simp] theorem State.invalidateCode_pay : s.invalidateCode.pay = s.pay := rfl
@[simp] theorem State.invalidateCode_cont : s.invalidateCode.cont = s.cont := rfl
@[simp] theorem State.invalidateCode_out : s.invalidateCode.out = s.out := rfl
@[simp] theorem State.invalidateCode_rdata : s.invalidateCode.rdata = s.rdata := rfl
@[simp] theorem State.invalidateCode_input : s.invalidateCode.input = s.input := rfl
end

section
variable (s : State)
@[simp] theorem State.invalidateFreq_cfg : s.invalidateFreq.cfg = s.cfg := rfl
@[simp] theorem State.invalidateFreq_busy : s.invalidateFreq.busy = s.busy := rfl
@[simp] theorem State.invalidateFreq_done : s.invalidateFreq.done = s.done := rfl
@[simp] theorem State.invalidateFreq_err : s.invalidateFreq.err = s.err := rfl
@[simp] theorem State.invalidateFreq_ovr : s.invalidateFreq.ovr = s.ovr := rfl
@[simp] theorem State.invalidateFreq_errcode : s.invalidateFreq.errcode = s.errcode := rfl
@[simp] theorem State.invalidateFreq_errOp : s.invalidateFreq.errOp = s.errOp := rfl
@[simp] theorem State.invalidateFreq_fv : s.invalidateFreq.fv = false := rfl
@[simp] theorem State.invalidateFreq_cv : s.invalidateFreq.cv = false := rfl
@[simp] theorem State.invalidateFreq_pv : s.invalidateFreq.pv = false := rfl
@[simp] theorem State.invalidateFreq_ov : s.invalidateFreq.ov = s.ov := rfl
@[simp] theorem State.invalidateFreq_pend : s.invalidateFreq.pend = s.pend := rfl
@[simp] theorem State.invalidateFreq_doneEn : s.invalidateFreq.doneEn = s.doneEn := rfl
@[simp] theorem State.invalidateFreq_donePend : s.invalidateFreq.donePend = s.donePend := rfl
@[simp] theorem State.invalidateFreq_errInfo : s.invalidateFreq.errInfo = s.errInfo := rfl
@[simp] theorem State.invalidateFreq_tag : s.invalidateFreq.tag = s.tag := rfl
@[simp] theorem State.invalidateFreq_nLen : s.invalidateFreq.nLen = s.nLen := rfl
@[simp] theorem State.invalidateFreq_shape0 : s.invalidateFreq.shape0 = s.shape0 := rfl
@[simp] theorem State.invalidateFreq_shape1 : s.invalidateFreq.shape1 = s.shape1 := rfl
@[simp] theorem State.invalidateFreq_shape2 : s.invalidateFreq.shape2 = s.shape2 := rfl
@[simp] theorem State.invalidateFreq_contLen : s.invalidateFreq.contLen = s.contLen := rfl
@[simp] theorem State.invalidateFreq_kCnt : s.invalidateFreq.kCnt = 0#32 := rfl
@[simp] theorem State.invalidateFreq_payLen : s.invalidateFreq.payLen = 0#32 := rfl
@[simp] theorem State.invalidateFreq_pad : s.invalidateFreq.pad = 0#8 := rfl
@[simp] theorem State.invalidateFreq_encBits : s.invalidateFreq.encBits = 0#32 := rfl
@[simp] theorem State.invalidateFreq_outLen : s.invalidateFreq.outLen = s.outLen := rfl
@[simp] theorem State.invalidateFreq_winSel : s.invalidateFreq.winSel = s.winSel := rfl
@[simp] theorem State.invalidateFreq_winIdx : s.invalidateFreq.winIdx = s.winIdx := rfl
@[simp] theorem State.invalidateFreq_sym : s.invalidateFreq.sym = s.sym := rfl
@[simp] theorem State.invalidateFreq_freq : s.invalidateFreq.freq = s.freq := rfl
@[simp] theorem State.invalidateFreq_code : s.invalidateFreq.code = s.code := rfl
@[simp] theorem State.invalidateFreq_pay : s.invalidateFreq.pay = s.pay := rfl
@[simp] theorem State.invalidateFreq_cont : s.invalidateFreq.cont = s.cont := rfl
@[simp] theorem State.invalidateFreq_out : s.invalidateFreq.out = s.out := rfl
@[simp] theorem State.invalidateFreq_rdata : s.invalidateFreq.rdata = s.rdata := rfl
@[simp] theorem State.invalidateFreq_input : s.invalidateFreq.input = s.input := rfl
end

section
variable (s : State)
@[simp] theorem State.invalidateCont_cfg : s.invalidateCont.cfg = s.cfg := rfl
@[simp] theorem State.invalidateCont_busy : s.invalidateCont.busy = s.busy := rfl
@[simp] theorem State.invalidateCont_done : s.invalidateCont.done = s.done := rfl
@[simp] theorem State.invalidateCont_err : s.invalidateCont.err = s.err := rfl
@[simp] theorem State.invalidateCont_ovr : s.invalidateCont.ovr = s.ovr := rfl
@[simp] theorem State.invalidateCont_errcode : s.invalidateCont.errcode = s.errcode := rfl
@[simp] theorem State.invalidateCont_errOp : s.invalidateCont.errOp = s.errOp := rfl
@[simp] theorem State.invalidateCont_fv : s.invalidateCont.fv = s.fv := rfl
@[simp] theorem State.invalidateCont_cv : s.invalidateCont.cv = s.cv := rfl
@[simp] theorem State.invalidateCont_pv : s.invalidateCont.pv = s.pv := rfl
@[simp] theorem State.invalidateCont_ov : s.invalidateCont.ov = s.ov := rfl
@[simp] theorem State.invalidateCont_pend : s.invalidateCont.pend = s.pend := rfl
@[simp] theorem State.invalidateCont_doneEn : s.invalidateCont.doneEn = s.doneEn := rfl
@[simp] theorem State.invalidateCont_donePend : s.invalidateCont.donePend = s.donePend := rfl
@[simp] theorem State.invalidateCont_errInfo : s.invalidateCont.errInfo = s.errInfo := rfl
@[simp] theorem State.invalidateCont_tag : s.invalidateCont.tag = s.tag := rfl
@[simp] theorem State.invalidateCont_nLen : s.invalidateCont.nLen = s.nLen := rfl
@[simp] theorem State.invalidateCont_shape0 : s.invalidateCont.shape0 = s.shape0 := rfl
@[simp] theorem State.invalidateCont_shape1 : s.invalidateCont.shape1 = s.shape1 := rfl
@[simp] theorem State.invalidateCont_shape2 : s.invalidateCont.shape2 = s.shape2 := rfl
@[simp] theorem State.invalidateCont_contLen : s.invalidateCont.contLen = 0#32 := rfl
@[simp] theorem State.invalidateCont_kCnt : s.invalidateCont.kCnt = s.kCnt := rfl
@[simp] theorem State.invalidateCont_payLen : s.invalidateCont.payLen = s.payLen := rfl
@[simp] theorem State.invalidateCont_pad : s.invalidateCont.pad = s.pad := rfl
@[simp] theorem State.invalidateCont_encBits : s.invalidateCont.encBits = s.encBits := rfl
@[simp] theorem State.invalidateCont_outLen : s.invalidateCont.outLen = s.outLen := rfl
@[simp] theorem State.invalidateCont_winSel : s.invalidateCont.winSel = s.winSel := rfl
@[simp] theorem State.invalidateCont_winIdx : s.invalidateCont.winIdx = s.winIdx := rfl
@[simp] theorem State.invalidateCont_sym : s.invalidateCont.sym = s.sym := rfl
@[simp] theorem State.invalidateCont_freq : s.invalidateCont.freq = s.freq := rfl
@[simp] theorem State.invalidateCont_code : s.invalidateCont.code = s.code := rfl
@[simp] theorem State.invalidateCont_pay : s.invalidateCont.pay = s.pay := rfl
@[simp] theorem State.invalidateCont_cont : s.invalidateCont.cont = s.cont := rfl
@[simp] theorem State.invalidateCont_out : s.invalidateCont.out = s.out := rfl
@[simp] theorem State.invalidateCont_rdata : s.invalidateCont.rdata = s.rdata := rfl
@[simp] theorem State.invalidateCont_input : s.invalidateCont.input = s.input := rfl
end

section
variable (s : State)
@[simp] theorem State.invalidateOut_cfg : s.invalidateOut.cfg = s.cfg := rfl
@[simp] theorem State.invalidateOut_busy : s.invalidateOut.busy = s.busy := rfl
@[simp] theorem State.invalidateOut_done : s.invalidateOut.done = s.done := rfl
@[simp] theorem State.invalidateOut_err : s.invalidateOut.err = s.err := rfl
@[simp] theorem State.invalidateOut_ovr : s.invalidateOut.ovr = s.ovr := rfl
@[simp] theorem State.invalidateOut_errcode : s.invalidateOut.errcode = s.errcode := rfl
@[simp] theorem State.invalidateOut_errOp : s.invalidateOut.errOp = s.errOp := rfl
@[simp] theorem State.invalidateOut_fv : s.invalidateOut.fv = s.fv := rfl
@[simp] theorem State.invalidateOut_cv : s.invalidateOut.cv = s.cv := rfl
@[simp] theorem State.invalidateOut_pv : s.invalidateOut.pv = s.pv := rfl
@[simp] theorem State.invalidateOut_ov : s.invalidateOut.ov = false := rfl
@[simp] theorem State.invalidateOut_pend : s.invalidateOut.pend = s.pend := rfl
@[simp] theorem State.invalidateOut_doneEn : s.invalidateOut.doneEn = s.doneEn := rfl
@[simp] theorem State.invalidateOut_donePend : s.invalidateOut.donePend = s.donePend := rfl
@[simp] theorem State.invalidateOut_errInfo : s.invalidateOut.errInfo = s.errInfo := rfl
@[simp] theorem State.invalidateOut_tag : s.invalidateOut.tag = s.tag := rfl
@[simp] theorem State.invalidateOut_nLen : s.invalidateOut.nLen = s.nLen := rfl
@[simp] theorem State.invalidateOut_shape0 : s.invalidateOut.shape0 = s.shape0 := rfl
@[simp] theorem State.invalidateOut_shape1 : s.invalidateOut.shape1 = s.shape1 := rfl
@[simp] theorem State.invalidateOut_shape2 : s.invalidateOut.shape2 = s.shape2 := rfl
@[simp] theorem State.invalidateOut_contLen : s.invalidateOut.contLen = s.contLen := rfl
@[simp] theorem State.invalidateOut_kCnt : s.invalidateOut.kCnt = s.kCnt := rfl
@[simp] theorem State.invalidateOut_payLen : s.invalidateOut.payLen = s.payLen := rfl
@[simp] theorem State.invalidateOut_pad : s.invalidateOut.pad = s.pad := rfl
@[simp] theorem State.invalidateOut_encBits : s.invalidateOut.encBits = s.encBits := rfl
@[simp] theorem State.invalidateOut_outLen : s.invalidateOut.outLen = 0#32 := rfl
@[simp] theorem State.invalidateOut_winSel : s.invalidateOut.winSel = s.winSel := rfl
@[simp] theorem State.invalidateOut_winIdx : s.invalidateOut.winIdx = s.winIdx := rfl
@[simp] theorem State.invalidateOut_sym : s.invalidateOut.sym = s.sym := rfl
@[simp] theorem State.invalidateOut_freq : s.invalidateOut.freq = s.freq := rfl
@[simp] theorem State.invalidateOut_code : s.invalidateOut.code = s.code := rfl
@[simp] theorem State.invalidateOut_pay : s.invalidateOut.pay = s.pay := rfl
@[simp] theorem State.invalidateOut_cont : s.invalidateOut.cont = s.cont := rfl
@[simp] theorem State.invalidateOut_out : s.invalidateOut.out = s.out := rfl
@[simp] theorem State.invalidateOut_rdata : s.invalidateOut.rdata = s.rdata := rfl
@[simp] theorem State.invalidateOut_input : s.invalidateOut.input = s.input := rfl
end

section
variable (s : State) (t : List FreqEntry)
@[simp] theorem State.commitFreq_cfg : (s.commitFreq t).cfg = s.cfg := rfl
@[simp] theorem State.commitFreq_busy : (s.commitFreq t).busy = s.busy := rfl
@[simp] theorem State.commitFreq_done : (s.commitFreq t).done = s.done := rfl
@[simp] theorem State.commitFreq_err : (s.commitFreq t).err = s.err := rfl
@[simp] theorem State.commitFreq_ovr : (s.commitFreq t).ovr = s.ovr := rfl
@[simp] theorem State.commitFreq_errcode : (s.commitFreq t).errcode = s.errcode := rfl
@[simp] theorem State.commitFreq_errOp : (s.commitFreq t).errOp = s.errOp := rfl
@[simp] theorem State.commitFreq_fv : (s.commitFreq t).fv = true := rfl
@[simp] theorem State.commitFreq_cv : (s.commitFreq t).cv = s.cv := rfl
@[simp] theorem State.commitFreq_pv : (s.commitFreq t).pv = s.pv := rfl
@[simp] theorem State.commitFreq_ov : (s.commitFreq t).ov = s.ov := rfl
@[simp] theorem State.commitFreq_pend : (s.commitFreq t).pend = s.pend := rfl
@[simp] theorem State.commitFreq_doneEn : (s.commitFreq t).doneEn = s.doneEn := rfl
@[simp] theorem State.commitFreq_donePend : (s.commitFreq t).donePend = s.donePend := rfl
@[simp] theorem State.commitFreq_errInfo : (s.commitFreq t).errInfo = s.errInfo := rfl
@[simp] theorem State.commitFreq_tag : (s.commitFreq t).tag = s.tag := rfl
@[simp] theorem State.commitFreq_nLen : (s.commitFreq t).nLen = s.nLen := rfl
@[simp] theorem State.commitFreq_shape0 : (s.commitFreq t).shape0 = s.shape0 := rfl
@[simp] theorem State.commitFreq_shape1 : (s.commitFreq t).shape1 = s.shape1 := rfl
@[simp] theorem State.commitFreq_shape2 : (s.commitFreq t).shape2 = s.shape2 := rfl
@[simp] theorem State.commitFreq_contLen : (s.commitFreq t).contLen = s.contLen := rfl
@[simp] theorem State.commitFreq_kCnt : (s.commitFreq t).kCnt = BitVec.ofNat 32 t.length := rfl
@[simp] theorem State.commitFreq_payLen : (s.commitFreq t).payLen = s.payLen := rfl
@[simp] theorem State.commitFreq_pad : (s.commitFreq t).pad = s.pad := rfl
@[simp] theorem State.commitFreq_encBits : (s.commitFreq t).encBits = s.encBits := rfl
@[simp] theorem State.commitFreq_outLen : (s.commitFreq t).outLen = s.outLen := rfl
@[simp] theorem State.commitFreq_winSel : (s.commitFreq t).winSel = s.winSel := rfl
@[simp] theorem State.commitFreq_winIdx : (s.commitFreq t).winIdx = s.winIdx := rfl
@[simp] theorem State.commitFreq_sym : (s.commitFreq t).sym = s.sym := rfl
@[simp] theorem State.commitFreq_freq : (s.commitFreq t).freq = s.freq.writeFrom 0 t := rfl
@[simp] theorem State.commitFreq_code : (s.commitFreq t).code = s.code := rfl
@[simp] theorem State.commitFreq_pay : (s.commitFreq t).pay = s.pay := rfl
@[simp] theorem State.commitFreq_cont : (s.commitFreq t).cont = s.cont := rfl
@[simp] theorem State.commitFreq_out : (s.commitFreq t).out = s.out := rfl
@[simp] theorem State.commitFreq_rdata : (s.commitFreq t).rdata = s.rdata := rfl
@[simp] theorem State.commitFreq_input : (s.commitFreq t).input = s.input := rfl
end

section
variable (s : State) (t : List CodeEntry)
@[simp] theorem State.commitCode_cfg : (s.commitCode t).cfg = s.cfg := rfl
@[simp] theorem State.commitCode_busy : (s.commitCode t).busy = s.busy := rfl
@[simp] theorem State.commitCode_done : (s.commitCode t).done = s.done := rfl
@[simp] theorem State.commitCode_err : (s.commitCode t).err = s.err := rfl
@[simp] theorem State.commitCode_ovr : (s.commitCode t).ovr = s.ovr := rfl
@[simp] theorem State.commitCode_errcode : (s.commitCode t).errcode = s.errcode := rfl
@[simp] theorem State.commitCode_errOp : (s.commitCode t).errOp = s.errOp := rfl
@[simp] theorem State.commitCode_fv : (s.commitCode t).fv = s.fv := rfl
@[simp] theorem State.commitCode_cv : (s.commitCode t).cv = true := rfl
@[simp] theorem State.commitCode_pv : (s.commitCode t).pv = s.pv := rfl
@[simp] theorem State.commitCode_ov : (s.commitCode t).ov = s.ov := rfl
@[simp] theorem State.commitCode_pend : (s.commitCode t).pend = s.pend := rfl
@[simp] theorem State.commitCode_doneEn : (s.commitCode t).doneEn = s.doneEn := rfl
@[simp] theorem State.commitCode_donePend : (s.commitCode t).donePend = s.donePend := rfl
@[simp] theorem State.commitCode_errInfo : (s.commitCode t).errInfo = s.errInfo := rfl
@[simp] theorem State.commitCode_tag : (s.commitCode t).tag = s.tag := rfl
@[simp] theorem State.commitCode_nLen : (s.commitCode t).nLen = s.nLen := rfl
@[simp] theorem State.commitCode_shape0 : (s.commitCode t).shape0 = s.shape0 := rfl
@[simp] theorem State.commitCode_shape1 : (s.commitCode t).shape1 = s.shape1 := rfl
@[simp] theorem State.commitCode_shape2 : (s.commitCode t).shape2 = s.shape2 := rfl
@[simp] theorem State.commitCode_contLen : (s.commitCode t).contLen = s.contLen := rfl
@[simp] theorem State.commitCode_kCnt : (s.commitCode t).kCnt = s.kCnt := rfl
@[simp] theorem State.commitCode_payLen : (s.commitCode t).payLen = s.payLen := rfl
@[simp] theorem State.commitCode_pad : (s.commitCode t).pad = s.pad := rfl
@[simp] theorem State.commitCode_encBits : (s.commitCode t).encBits = s.encBits := rfl
@[simp] theorem State.commitCode_outLen : (s.commitCode t).outLen = s.outLen := rfl
@[simp] theorem State.commitCode_winSel : (s.commitCode t).winSel = s.winSel := rfl
@[simp] theorem State.commitCode_winIdx : (s.commitCode t).winIdx = s.winIdx := rfl
@[simp] theorem State.commitCode_sym : (s.commitCode t).sym = s.sym := rfl
@[simp] theorem State.commitCode_freq : (s.commitCode t).freq = s.freq := rfl
@[simp] theorem State.commitCode_code : (s.commitCode t).code = s.code.writeFrom 0 t := rfl
@[simp] theorem State.commitCode_pay : (s.commitCode t).pay = s.pay := rfl
@[simp] theorem State.commitCode_cont : (s.commitCode t).cont = s.cont := rfl
@[simp] theorem State.commitCode_out : (s.commitCode t).out = s.out := rfl
@[simp] theorem State.commitCode_rdata : (s.commitCode t).rdata = s.rdata := rfl
@[simp] theorem State.commitCode_input : (s.commitCode t).input = s.input := rfl
end

section
variable (s : State) (l : List Byte) (p n : Nat)
@[simp] theorem State.commitPay_cfg : (s.commitPay l p n).cfg = s.cfg := rfl
@[simp] theorem State.commitPay_busy : (s.commitPay l p n).busy = s.busy := rfl
@[simp] theorem State.commitPay_done : (s.commitPay l p n).done = s.done := rfl
@[simp] theorem State.commitPay_err : (s.commitPay l p n).err = s.err := rfl
@[simp] theorem State.commitPay_ovr : (s.commitPay l p n).ovr = s.ovr := rfl
@[simp] theorem State.commitPay_errcode : (s.commitPay l p n).errcode = s.errcode := rfl
@[simp] theorem State.commitPay_errOp : (s.commitPay l p n).errOp = s.errOp := rfl
@[simp] theorem State.commitPay_fv : (s.commitPay l p n).fv = s.fv := rfl
@[simp] theorem State.commitPay_cv : (s.commitPay l p n).cv = s.cv := rfl
@[simp] theorem State.commitPay_pv : (s.commitPay l p n).pv = true := rfl
@[simp] theorem State.commitPay_ov : (s.commitPay l p n).ov = s.ov := rfl
@[simp] theorem State.commitPay_pend : (s.commitPay l p n).pend = s.pend := rfl
@[simp] theorem State.commitPay_doneEn : (s.commitPay l p n).doneEn = s.doneEn := rfl
@[simp] theorem State.commitPay_donePend : (s.commitPay l p n).donePend = s.donePend := rfl
@[simp] theorem State.commitPay_errInfo : (s.commitPay l p n).errInfo = s.errInfo := rfl
@[simp] theorem State.commitPay_tag : (s.commitPay l p n).tag = s.tag := rfl
@[simp] theorem State.commitPay_nLen : (s.commitPay l p n).nLen = s.nLen := rfl
@[simp] theorem State.commitPay_shape0 : (s.commitPay l p n).shape0 = s.shape0 := rfl
@[simp] theorem State.commitPay_shape1 : (s.commitPay l p n).shape1 = s.shape1 := rfl
@[simp] theorem State.commitPay_shape2 : (s.commitPay l p n).shape2 = s.shape2 := rfl
@[simp] theorem State.commitPay_contLen : (s.commitPay l p n).contLen = s.contLen := rfl
@[simp] theorem State.commitPay_kCnt : (s.commitPay l p n).kCnt = s.kCnt := rfl
@[simp] theorem State.commitPay_payLen : (s.commitPay l p n).payLen = BitVec.ofNat 32 l.length := rfl
@[simp] theorem State.commitPay_pad : (s.commitPay l p n).pad = BitVec.ofNat 8 p := rfl
@[simp] theorem State.commitPay_encBits : (s.commitPay l p n).encBits = BitVec.ofNat 32 n := rfl
@[simp] theorem State.commitPay_outLen : (s.commitPay l p n).outLen = s.outLen := rfl
@[simp] theorem State.commitPay_winSel : (s.commitPay l p n).winSel = s.winSel := rfl
@[simp] theorem State.commitPay_winIdx : (s.commitPay l p n).winIdx = s.winIdx := rfl
@[simp] theorem State.commitPay_sym : (s.commitPay l p n).sym = s.sym := rfl
@[simp] theorem State.commitPay_freq : (s.commitPay l p n).freq = s.freq := rfl
@[simp] theorem State.commitPay_code : (s.commitPay l p n).code = s.code := rfl
@[simp] theorem State.commitPay_pay : (s.commitPay l p n).pay = s.pay.writeFrom 0 l := rfl
@[simp] theorem State.commitPay_cont : (s.commitPay l p n).cont = s.cont := rfl
@[simp] theorem State.commitPay_out : (s.commitPay l p n).out = s.out := rfl
@[simp] theorem State.commitPay_rdata : (s.commitPay l p n).rdata = s.rdata := rfl
@[simp] theorem State.commitPay_input : (s.commitPay l p n).input = s.input := rfl
end

section
variable (s : State) (l : List Byte)
@[simp] theorem State.commitCont_cfg : (s.commitCont l).cfg = s.cfg := rfl
@[simp] theorem State.commitCont_busy : (s.commitCont l).busy = s.busy := rfl
@[simp] theorem State.commitCont_done : (s.commitCont l).done = s.done := rfl
@[simp] theorem State.commitCont_err : (s.commitCont l).err = s.err := rfl
@[simp] theorem State.commitCont_ovr : (s.commitCont l).ovr = s.ovr := rfl
@[simp] theorem State.commitCont_errcode : (s.commitCont l).errcode = s.errcode := rfl
@[simp] theorem State.commitCont_errOp : (s.commitCont l).errOp = s.errOp := rfl
@[simp] theorem State.commitCont_fv : (s.commitCont l).fv = s.fv := rfl
@[simp] theorem State.commitCont_cv : (s.commitCont l).cv = s.cv := rfl
@[simp] theorem State.commitCont_pv : (s.commitCont l).pv = s.pv := rfl
@[simp] theorem State.commitCont_ov : (s.commitCont l).ov = s.ov := rfl
@[simp] theorem State.commitCont_pend : (s.commitCont l).pend = s.pend := rfl
@[simp] theorem State.commitCont_doneEn : (s.commitCont l).doneEn = s.doneEn := rfl
@[simp] theorem State.commitCont_donePend : (s.commitCont l).donePend = s.donePend := rfl
@[simp] theorem State.commitCont_errInfo : (s.commitCont l).errInfo = s.errInfo := rfl
@[simp] theorem State.commitCont_tag : (s.commitCont l).tag = s.tag := rfl
@[simp] theorem State.commitCont_nLen : (s.commitCont l).nLen = s.nLen := rfl
@[simp] theorem State.commitCont_shape0 : (s.commitCont l).shape0 = s.shape0 := rfl
@[simp] theorem State.commitCont_shape1 : (s.commitCont l).shape1 = s.shape1 := rfl
@[simp] theorem State.commitCont_shape2 : (s.commitCont l).shape2 = s.shape2 := rfl
@[simp] theorem State.commitCont_contLen : (s.commitCont l).contLen = BitVec.ofNat 32 l.length := rfl
@[simp] theorem State.commitCont_kCnt : (s.commitCont l).kCnt = s.kCnt := rfl
@[simp] theorem State.commitCont_payLen : (s.commitCont l).payLen = s.payLen := rfl
@[simp] theorem State.commitCont_pad : (s.commitCont l).pad = s.pad := rfl
@[simp] theorem State.commitCont_encBits : (s.commitCont l).encBits = s.encBits := rfl
@[simp] theorem State.commitCont_outLen : (s.commitCont l).outLen = s.outLen := rfl
@[simp] theorem State.commitCont_winSel : (s.commitCont l).winSel = s.winSel := rfl
@[simp] theorem State.commitCont_winIdx : (s.commitCont l).winIdx = s.winIdx := rfl
@[simp] theorem State.commitCont_sym : (s.commitCont l).sym = s.sym := rfl
@[simp] theorem State.commitCont_freq : (s.commitCont l).freq = s.freq := rfl
@[simp] theorem State.commitCont_code : (s.commitCont l).code = s.code := rfl
@[simp] theorem State.commitCont_pay : (s.commitCont l).pay = s.pay := rfl
@[simp] theorem State.commitCont_cont : (s.commitCont l).cont = s.cont.writeFrom 0 l := rfl
@[simp] theorem State.commitCont_out : (s.commitCont l).out = s.out := rfl
@[simp] theorem State.commitCont_rdata : (s.commitCont l).rdata = s.rdata := rfl
@[simp] theorem State.commitCont_input : (s.commitCont l).input = s.input := rfl
end

section
variable (s : State) (l : List Word)
@[simp] theorem State.commitOut_cfg : (s.commitOut l).cfg = s.cfg := rfl
@[simp] theorem State.commitOut_busy : (s.commitOut l).busy = s.busy := rfl
@[simp] theorem State.commitOut_done : (s.commitOut l).done = s.done := rfl
@[simp] theorem State.commitOut_err : (s.commitOut l).err = s.err := rfl
@[simp] theorem State.commitOut_ovr : (s.commitOut l).ovr = s.ovr := rfl
@[simp] theorem State.commitOut_errcode : (s.commitOut l).errcode = s.errcode := rfl
@[simp] theorem State.commitOut_errOp : (s.commitOut l).errOp = s.errOp := rfl
@[simp] theorem State.commitOut_fv : (s.commitOut l).fv = s.fv := rfl
@[simp] theorem State.commitOut_cv : (s.commitOut l).cv = s.cv := rfl
@[simp] theorem State.commitOut_pv : (s.commitOut l).pv = s.pv := rfl
@[simp] theorem State.commitOut_ov : (s.commitOut l).ov = true := rfl
@[simp] theorem State.commitOut_pend : (s.commitOut l).pend = s.pend := rfl
@[simp] theorem State.commitOut_doneEn : (s.commitOut l).doneEn = s.doneEn := rfl
@[simp] theorem State.commitOut_donePend : (s.commitOut l).donePend = s.donePend := rfl
@[simp] theorem State.commitOut_errInfo : (s.commitOut l).errInfo = s.errInfo := rfl
@[simp] theorem State.commitOut_tag : (s.commitOut l).tag = s.tag := rfl
@[simp] theorem State.commitOut_nLen : (s.commitOut l).nLen = s.nLen := rfl
@[simp] theorem State.commitOut_shape0 : (s.commitOut l).shape0 = s.shape0 := rfl
@[simp] theorem State.commitOut_shape1 : (s.commitOut l).shape1 = s.shape1 := rfl
@[simp] theorem State.commitOut_shape2 : (s.commitOut l).shape2 = s.shape2 := rfl
@[simp] theorem State.commitOut_contLen : (s.commitOut l).contLen = s.contLen := rfl
@[simp] theorem State.commitOut_kCnt : (s.commitOut l).kCnt = s.kCnt := rfl
@[simp] theorem State.commitOut_payLen : (s.commitOut l).payLen = s.payLen := rfl
@[simp] theorem State.commitOut_pad : (s.commitOut l).pad = s.pad := rfl
@[simp] theorem State.commitOut_encBits : (s.commitOut l).encBits = s.encBits := rfl
@[simp] theorem State.commitOut_outLen : (s.commitOut l).outLen = BitVec.ofNat 32 l.length := rfl
@[simp] theorem State.commitOut_winSel : (s.commitOut l).winSel = s.winSel := rfl
@[simp] theorem State.commitOut_winIdx : (s.commitOut l).winIdx = s.winIdx := rfl
@[simp] theorem State.commitOut_sym : (s.commitOut l).sym = s.sym := rfl
@[simp] theorem State.commitOut_freq : (s.commitOut l).freq = s.freq := rfl
@[simp] theorem State.commitOut_code : (s.commitOut l).code = s.code := rfl
@[simp] theorem State.commitOut_pay : (s.commitOut l).pay = s.pay := rfl
@[simp] theorem State.commitOut_cont : (s.commitOut l).cont = s.cont := rfl
@[simp] theorem State.commitOut_out : (s.commitOut l).out = s.out.writeFrom 0 l := rfl
@[simp] theorem State.commitOut_rdata : (s.commitOut l).rdata = s.rdata := rfl
@[simp] theorem State.commitOut_input : (s.commitOut l).input = s.input := rfl
end

section
variable (s : State)
@[simp] theorem State.flagOverrun_cfg : s.flagOverrun.cfg = s.cfg := rfl
@[simp] theorem State.flagOverrun_busy : s.flagOverrun.busy = s.busy := rfl
@[simp] theorem State.flagOverrun_done : s.flagOverrun.done = s.done := rfl
@[simp] theorem State.flagOverrun_err : s.flagOverrun.err = s.err := rfl
@[simp] theorem State.flagOverrun_ovr : s.flagOverrun.ovr = true := rfl
@[simp] theorem State.flagOverrun_errcode : s.flagOverrun.errcode = s.errcode := rfl
@[simp] theorem State.flagOverrun_errOp : s.flagOverrun.errOp = s.errOp := rfl
@[simp] theorem State.flagOverrun_fv : s.flagOverrun.fv = s.fv := rfl
@[simp] theorem State.flagOverrun_cv : s.flagOverrun.cv = s.cv := rfl
@[simp] theorem State.flagOverrun_pv : s.flagOverrun.pv = s.pv := rfl
@[simp] theorem State.flagOverrun_ov : s.flagOverrun.ov = s.ov := rfl
@[simp] theorem State.flagOverrun_pend : s.flagOverrun.pend = s.pend := rfl
@[simp] theorem State.flagOverrun_doneEn : s.flagOverrun.doneEn = s.doneEn := rfl
@[simp] theorem State.flagOverrun_donePend : s.flagOverrun.donePend = s.donePend := rfl
@[simp] theorem State.flagOverrun_errInfo : s.flagOverrun.errInfo = s.errInfo := rfl
@[simp] theorem State.flagOverrun_tag : s.flagOverrun.tag = s.tag := rfl
@[simp] theorem State.flagOverrun_nLen : s.flagOverrun.nLen = s.nLen := rfl
@[simp] theorem State.flagOverrun_shape0 : s.flagOverrun.shape0 = s.shape0 := rfl
@[simp] theorem State.flagOverrun_shape1 : s.flagOverrun.shape1 = s.shape1 := rfl
@[simp] theorem State.flagOverrun_shape2 : s.flagOverrun.shape2 = s.shape2 := rfl
@[simp] theorem State.flagOverrun_contLen : s.flagOverrun.contLen = s.contLen := rfl
@[simp] theorem State.flagOverrun_kCnt : s.flagOverrun.kCnt = s.kCnt := rfl
@[simp] theorem State.flagOverrun_payLen : s.flagOverrun.payLen = s.payLen := rfl
@[simp] theorem State.flagOverrun_pad : s.flagOverrun.pad = s.pad := rfl
@[simp] theorem State.flagOverrun_encBits : s.flagOverrun.encBits = s.encBits := rfl
@[simp] theorem State.flagOverrun_outLen : s.flagOverrun.outLen = s.outLen := rfl
@[simp] theorem State.flagOverrun_winSel : s.flagOverrun.winSel = s.winSel := rfl
@[simp] theorem State.flagOverrun_winIdx : s.flagOverrun.winIdx = s.winIdx := rfl
@[simp] theorem State.flagOverrun_sym : s.flagOverrun.sym = s.sym := rfl
@[simp] theorem State.flagOverrun_freq : s.flagOverrun.freq = s.freq := rfl
@[simp] theorem State.flagOverrun_code : s.flagOverrun.code = s.code := rfl
@[simp] theorem State.flagOverrun_pay : s.flagOverrun.pay = s.pay := rfl
@[simp] theorem State.flagOverrun_cont : s.flagOverrun.cont = s.cont := rfl
@[simp] theorem State.flagOverrun_out : s.flagOverrun.out = s.out := rfl
@[simp] theorem State.flagOverrun_rdata : s.flagOverrun.rdata = s.rdata := rfl
@[simp] theorem State.flagOverrun_input : s.flagOverrun.input = s.input := rfl
end

section
variable (s : State)
@[simp] theorem State.bumpIndex_cfg : s.bumpIndex.cfg = s.cfg := rfl
@[simp] theorem State.bumpIndex_busy : s.bumpIndex.busy = s.busy := rfl
@[simp] theorem State.bumpIndex_done : s.bumpIndex.done = s.done := rfl
@[simp] theorem State.bumpIndex_err : s.bumpIndex.err = s.err := rfl
@[simp] theorem State.bumpIndex_ovr : s.bumpIndex.ovr = s.ovr := rfl
@[simp] theorem State.bumpIndex_errcode : s.bumpIndex.errcode = s.errcode := rfl
@[simp] theorem State.bumpIndex_errOp : s.bumpIndex.errOp = s.errOp := rfl
@[simp] theorem State.bumpIndex_fv : s.bumpIndex.fv = s.fv := rfl
@[simp] theorem State.bumpIndex_cv : s.bumpIndex.cv = s.cv := rfl
@[simp] theorem State.bumpIndex_pv : s.bumpIndex.pv = s.pv := rfl
@[simp] theorem State.bumpIndex_ov : s.bumpIndex.ov = s.ov := rfl
@[simp] theorem State.bumpIndex_pend : s.bumpIndex.pend = s.pend := rfl
@[simp] theorem State.bumpIndex_doneEn : s.bumpIndex.doneEn = s.doneEn := rfl
@[simp] theorem State.bumpIndex_donePend : s.bumpIndex.donePend = s.donePend := rfl
@[simp] theorem State.bumpIndex_errInfo : s.bumpIndex.errInfo = s.errInfo := rfl
@[simp] theorem State.bumpIndex_tag : s.bumpIndex.tag = s.tag := rfl
@[simp] theorem State.bumpIndex_nLen : s.bumpIndex.nLen = s.nLen := rfl
@[simp] theorem State.bumpIndex_shape0 : s.bumpIndex.shape0 = s.shape0 := rfl
@[simp] theorem State.bumpIndex_shape1 : s.bumpIndex.shape1 = s.shape1 := rfl
@[simp] theorem State.bumpIndex_shape2 : s.bumpIndex.shape2 = s.shape2 := rfl
@[simp] theorem State.bumpIndex_contLen : s.bumpIndex.contLen = s.contLen := rfl
@[simp] theorem State.bumpIndex_kCnt : s.bumpIndex.kCnt = s.kCnt := rfl
@[simp] theorem State.bumpIndex_payLen : s.bumpIndex.payLen = s.payLen := rfl
@[simp] theorem State.bumpIndex_pad : s.bumpIndex.pad = s.pad := rfl
@[simp] theorem State.bumpIndex_encBits : s.bumpIndex.encBits = s.encBits := rfl
@[simp] theorem State.bumpIndex_outLen : s.bumpIndex.outLen = s.outLen := rfl
@[simp] theorem State.bumpIndex_winSel : s.bumpIndex.winSel = s.winSel := rfl
@[simp] theorem State.bumpIndex_winIdx : s.bumpIndex.winIdx = s.winIdx + 1#32 := rfl
@[simp] theorem State.bumpIndex_sym : s.bumpIndex.sym = s.sym := rfl
@[simp] theorem State.bumpIndex_freq : s.bumpIndex.freq = s.freq := rfl
@[simp] theorem State.bumpIndex_code : s.bumpIndex.code = s.code := rfl
@[simp] theorem State.bumpIndex_pay : s.bumpIndex.pay = s.pay := rfl
@[simp] theorem State.bumpIndex_cont : s.bumpIndex.cont = s.cont := rfl
@[simp] theorem State.bumpIndex_out : s.bumpIndex.out = s.out := rfl
@[simp] theorem State.bumpIndex_rdata : s.bumpIndex.rdata = s.rdata := rfl
@[simp] theorem State.bumpIndex_input : s.bumpIndex.input = s.input := rfl
end

section
variable (s : State) (d : Word)
@[simp] theorem State.clearOverrun_cfg : (s.clearOverrun d).cfg = s.cfg := rfl
@[simp] theorem State.clearOverrun_busy : (s.clearOverrun d).busy = s.busy := rfl
@[simp] theorem State.clearOverrun_done : (s.clearOverrun d).done = s.done := rfl
@[simp] theorem State.clearOverrun_err : (s.clearOverrun d).err = s.err := rfl
@[simp] theorem State.clearOverrun_ovr : (s.clearOverrun d).ovr = (s.ovr && !d.getLsbD 3) := rfl
@[simp] theorem State.clearOverrun_errcode : (s.clearOverrun d).errcode = s.errcode := rfl
@[simp] theorem State.clearOverrun_errOp : (s.clearOverrun d).errOp = s.errOp := rfl
@[simp] theorem State.clearOverrun_fv : (s.clearOverrun d).fv = s.fv := rfl
@[simp] theorem State.clearOverrun_cv : (s.clearOverrun d).cv = s.cv := rfl
@[simp] theorem State.clearOverrun_pv : (s.clearOverrun d).pv = s.pv := rfl
@[simp] theorem State.clearOverrun_ov : (s.clearOverrun d).ov = s.ov := rfl
@[simp] theorem State.clearOverrun_pend : (s.clearOverrun d).pend = s.pend := rfl
@[simp] theorem State.clearOverrun_doneEn : (s.clearOverrun d).doneEn = s.doneEn := rfl
@[simp] theorem State.clearOverrun_donePend : (s.clearOverrun d).donePend = s.donePend := rfl
@[simp] theorem State.clearOverrun_errInfo : (s.clearOverrun d).errInfo = s.errInfo := rfl
@[simp] theorem State.clearOverrun_tag : (s.clearOverrun d).tag = s.tag := rfl
@[simp] theorem State.clearOverrun_nLen : (s.clearOverrun d).nLen = s.nLen := rfl
@[simp] theorem State.clearOverrun_shape0 : (s.clearOverrun d).shape0 = s.shape0 := rfl
@[simp] theorem State.clearOverrun_shape1 : (s.clearOverrun d).shape1 = s.shape1 := rfl
@[simp] theorem State.clearOverrun_shape2 : (s.clearOverrun d).shape2 = s.shape2 := rfl
@[simp] theorem State.clearOverrun_contLen : (s.clearOverrun d).contLen = s.contLen := rfl
@[simp] theorem State.clearOverrun_kCnt : (s.clearOverrun d).kCnt = s.kCnt := rfl
@[simp] theorem State.clearOverrun_payLen : (s.clearOverrun d).payLen = s.payLen := rfl
@[simp] theorem State.clearOverrun_pad : (s.clearOverrun d).pad = s.pad := rfl
@[simp] theorem State.clearOverrun_encBits : (s.clearOverrun d).encBits = s.encBits := rfl
@[simp] theorem State.clearOverrun_outLen : (s.clearOverrun d).outLen = s.outLen := rfl
@[simp] theorem State.clearOverrun_winSel : (s.clearOverrun d).winSel = s.winSel := rfl
@[simp] theorem State.clearOverrun_winIdx : (s.clearOverrun d).winIdx = s.winIdx := rfl
@[simp] theorem State.clearOverrun_sym : (s.clearOverrun d).sym = s.sym := rfl
@[simp] theorem State.clearOverrun_freq : (s.clearOverrun d).freq = s.freq := rfl
@[simp] theorem State.clearOverrun_code : (s.clearOverrun d).code = s.code := rfl
@[simp] theorem State.clearOverrun_pay : (s.clearOverrun d).pay = s.pay := rfl
@[simp] theorem State.clearOverrun_cont : (s.clearOverrun d).cont = s.cont := rfl
@[simp] theorem State.clearOverrun_out : (s.clearOverrun d).out = s.out := rfl
@[simp] theorem State.clearOverrun_rdata : (s.clearOverrun d).rdata = s.rdata := rfl
@[simp] theorem State.clearOverrun_input : (s.clearOverrun d).input = s.input := rfl
end

section
variable (s : State) (d : Word)
@[simp] theorem State.acknowledge_cfg : (s.acknowledge d).cfg = s.cfg := rfl
@[simp] theorem State.acknowledge_busy : (s.acknowledge d).busy = s.busy := rfl
@[simp] theorem State.acknowledge_done : (s.acknowledge d).done = s.done := rfl
@[simp] theorem State.acknowledge_err : (s.acknowledge d).err = s.err := rfl
@[simp] theorem State.acknowledge_ovr : (s.acknowledge d).ovr = s.ovr := rfl
@[simp] theorem State.acknowledge_errcode : (s.acknowledge d).errcode = s.errcode := rfl
@[simp] theorem State.acknowledge_errOp : (s.acknowledge d).errOp = s.errOp := rfl
@[simp] theorem State.acknowledge_fv : (s.acknowledge d).fv = s.fv := rfl
@[simp] theorem State.acknowledge_cv : (s.acknowledge d).cv = s.cv := rfl
@[simp] theorem State.acknowledge_pv : (s.acknowledge d).pv = s.pv := rfl
@[simp] theorem State.acknowledge_ov : (s.acknowledge d).ov = s.ov := rfl
@[simp] theorem State.acknowledge_pend : (s.acknowledge d).pend = s.pend := rfl
@[simp] theorem State.acknowledge_doneEn : (s.acknowledge d).doneEn = s.doneEn := rfl
@[simp] theorem State.acknowledge_donePend : (s.acknowledge d).donePend = (s.donePend && !d.getLsbD 0) := rfl
@[simp] theorem State.acknowledge_errInfo : (s.acknowledge d).errInfo = s.errInfo := rfl
@[simp] theorem State.acknowledge_tag : (s.acknowledge d).tag = s.tag := rfl
@[simp] theorem State.acknowledge_nLen : (s.acknowledge d).nLen = s.nLen := rfl
@[simp] theorem State.acknowledge_shape0 : (s.acknowledge d).shape0 = s.shape0 := rfl
@[simp] theorem State.acknowledge_shape1 : (s.acknowledge d).shape1 = s.shape1 := rfl
@[simp] theorem State.acknowledge_shape2 : (s.acknowledge d).shape2 = s.shape2 := rfl
@[simp] theorem State.acknowledge_contLen : (s.acknowledge d).contLen = s.contLen := rfl
@[simp] theorem State.acknowledge_kCnt : (s.acknowledge d).kCnt = s.kCnt := rfl
@[simp] theorem State.acknowledge_payLen : (s.acknowledge d).payLen = s.payLen := rfl
@[simp] theorem State.acknowledge_pad : (s.acknowledge d).pad = s.pad := rfl
@[simp] theorem State.acknowledge_encBits : (s.acknowledge d).encBits = s.encBits := rfl
@[simp] theorem State.acknowledge_outLen : (s.acknowledge d).outLen = s.outLen := rfl
@[simp] theorem State.acknowledge_winSel : (s.acknowledge d).winSel = s.winSel := rfl
@[simp] theorem State.acknowledge_winIdx : (s.acknowledge d).winIdx = s.winIdx := rfl
@[simp] theorem State.acknowledge_sym : (s.acknowledge d).sym = s.sym := rfl
@[simp] theorem State.acknowledge_freq : (s.acknowledge d).freq = s.freq := rfl
@[simp] theorem State.acknowledge_code : (s.acknowledge d).code = s.code := rfl
@[simp] theorem State.acknowledge_pay : (s.acknowledge d).pay = s.pay := rfl
@[simp] theorem State.acknowledge_cont : (s.acknowledge d).cont = s.cont := rfl
@[simp] theorem State.acknowledge_out : (s.acknowledge d).out = s.out := rfl
@[simp] theorem State.acknowledge_rdata : (s.acknowledge d).rdata = s.rdata := rfl
@[simp] theorem State.acknowledge_input : (s.acknowledge d).input = s.input := rfl
end

section
variable (s : State) (r : Parsed)
@[simp] theorem commitParsed_cfg : (commitParsed s r).cfg = s.cfg := rfl
@[simp] theorem commitParsed_busy : (commitParsed s r).busy = s.busy := rfl
@[simp] theorem commitParsed_done : (commitParsed s r).done = s.done := rfl
@[simp] theorem commitParsed_err : (commitParsed s r).err = s.err := rfl
@[simp] theorem commitParsed_ovr : (commitParsed s r).ovr = s.ovr := rfl
@[simp] theorem commitParsed_errcode : (commitParsed s r).errcode = s.errcode := rfl
@[simp] theorem commitParsed_errOp : (commitParsed s r).errOp = s.errOp := rfl
@[simp] theorem commitParsed_fv : (commitParsed s r).fv = s.fv := rfl
@[simp] theorem commitParsed_cv : (commitParsed s r).cv = true := rfl
@[simp] theorem commitParsed_pv : (commitParsed s r).pv = true := rfl
@[simp] theorem commitParsed_ov : (commitParsed s r).ov = s.ov := rfl
@[simp] theorem commitParsed_pend : (commitParsed s r).pend = s.pend := rfl
@[simp] theorem commitParsed_doneEn : (commitParsed s r).doneEn = s.doneEn := rfl
@[simp] theorem commitParsed_donePend : (commitParsed s r).donePend = s.donePend := rfl
@[simp] theorem commitParsed_errInfo : (commitParsed s r).errInfo = s.errInfo := rfl
@[simp] theorem commitParsed_tag : (commitParsed s r).tag = r.header.tag := rfl
@[simp] theorem commitParsed_nLen : (commitParsed s r).nLen = s.nLen := rfl
@[simp] theorem commitParsed_shape0 : (commitParsed s r).shape0 = r.header.shape0 := rfl
@[simp] theorem commitParsed_shape1 : (commitParsed s r).shape1 = r.header.shape1 := rfl
@[simp] theorem commitParsed_shape2 : (commitParsed s r).shape2 = r.header.shape2 := rfl
@[simp] theorem commitParsed_contLen : (commitParsed s r).contLen = s.contLen := rfl
@[simp] theorem commitParsed_kCnt : (commitParsed s r).kCnt = BitVec.ofNat 32 r.table.length := rfl
@[simp] theorem commitParsed_payLen : (commitParsed s r).payLen = BitVec.ofNat 32 r.payload.length := rfl
@[simp] theorem commitParsed_pad : (commitParsed s r).pad = r.header.padf := rfl
@[simp] theorem commitParsed_encBits : (commitParsed s r).encBits = s.encBits := rfl
@[simp] theorem commitParsed_outLen : (commitParsed s r).outLen = s.outLen := rfl
@[simp] theorem commitParsed_winSel : (commitParsed s r).winSel = s.winSel := rfl
@[simp] theorem commitParsed_winIdx : (commitParsed s r).winIdx = s.winIdx := rfl
@[simp] theorem commitParsed_sym : (commitParsed s r).sym = s.sym := rfl
@[simp] theorem commitParsed_freq : (commitParsed s r).freq = s.freq := rfl
@[simp] theorem commitParsed_code : (commitParsed s r).code = s.code.writeFrom 0 r.table := rfl
@[simp] theorem commitParsed_pay : (commitParsed s r).pay = s.pay.writeFrom 0 r.payload := rfl
@[simp] theorem commitParsed_cont : (commitParsed s r).cont = s.cont := rfl
@[simp] theorem commitParsed_out : (commitParsed s r).out = s.out := rfl
@[simp] theorem commitParsed_rdata : (commitParsed s r).rdata = s.rdata := rfl
@[simp] theorem commitParsed_input : (commitParsed s r).input = s.input := rfl
end

section
variable (s : State) (c : Contents)
@[simp] theorem resetStep_cfg : (resetStep s c).cfg = s.cfg := rfl
@[simp] theorem resetStep_busy : (resetStep s c).busy = false := rfl
@[simp] theorem resetStep_done : (resetStep s c).done = false := rfl
@[simp] theorem resetStep_err : (resetStep s c).err = false := rfl
@[simp] theorem resetStep_ovr : (resetStep s c).ovr = false := rfl
@[simp] theorem resetStep_errcode : (resetStep s c).errcode = 0#4 := rfl
@[simp] theorem resetStep_errOp : (resetStep s c).errOp = 0#8 := rfl
@[simp] theorem resetStep_fv : (resetStep s c).fv = false := rfl
@[simp] theorem resetStep_cv : (resetStep s c).cv = false := rfl
@[simp] theorem resetStep_pv : (resetStep s c).pv = false := rfl
@[simp] theorem resetStep_ov : (resetStep s c).ov = false := rfl
@[simp] theorem resetStep_pend : (resetStep s c).pend = 0#32 := rfl
@[simp] theorem resetStep_doneEn : (resetStep s c).doneEn = false := rfl
@[simp] theorem resetStep_donePend : (resetStep s c).donePend = false := rfl
@[simp] theorem resetStep_errInfo : (resetStep s c).errInfo = 0#32 := rfl
@[simp] theorem resetStep_tag : (resetStep s c).tag = 0#8 := rfl
@[simp] theorem resetStep_nLen : (resetStep s c).nLen = 0#32 := rfl
@[simp] theorem resetStep_shape0 : (resetStep s c).shape0 = 0#32 := rfl
@[simp] theorem resetStep_shape1 : (resetStep s c).shape1 = 0#32 := rfl
@[simp] theorem resetStep_shape2 : (resetStep s c).shape2 = 0#32 := rfl
@[simp] theorem resetStep_contLen : (resetStep s c).contLen = 0#32 := rfl
@[simp] theorem resetStep_kCnt : (resetStep s c).kCnt = 0#32 := rfl
@[simp] theorem resetStep_payLen : (resetStep s c).payLen = 0#32 := rfl
@[simp] theorem resetStep_pad : (resetStep s c).pad = 0#8 := rfl
@[simp] theorem resetStep_encBits : (resetStep s c).encBits = 0#32 := rfl
@[simp] theorem resetStep_outLen : (resetStep s c).outLen = 0#32 := rfl
@[simp] theorem resetStep_winSel : (resetStep s c).winSel = 0#3 := rfl
@[simp] theorem resetStep_winIdx : (resetStep s c).winIdx = 0#32 := rfl
@[simp] theorem resetStep_sym : (resetStep s c).sym = Mem.ofPairs s.cfg.maxN c.sym := rfl
@[simp] theorem resetStep_freq : (resetStep s c).freq = Mem.ofPairs s.cfg.maxK c.freq := rfl
@[simp] theorem resetStep_code : (resetStep s c).code = Mem.ofPairs s.cfg.maxK c.code := rfl
@[simp] theorem resetStep_pay : (resetStep s c).pay = Mem.ofPairs s.cfg.maxPay c.pay := rfl
@[simp] theorem resetStep_cont : (resetStep s c).cont = Mem.ofPairs s.cfg.maxCont c.cont := rfl
@[simp] theorem resetStep_out : (resetStep s c).out = Mem.ofPairs s.cfg.maxN c.out := rfl
@[simp] theorem resetStep_rdata : (resetStep s c).rdata = 0#32 := rfl
@[simp] theorem resetStep_input : (resetStep s c).input = s.input := rfl
end

/-! The completion step writes only the seven fields below (10_state.md R47). -/

section
variable (c : Completion)
@[simp] theorem complete_cfg : (complete c).cfg = c.state.cfg := by
  unfold complete; cases c.failure <;> rfl
@[simp] theorem complete_busy : (complete c).busy = false := by
  unfold complete; cases c.failure <;> rfl
@[simp] theorem complete_done : (complete c).done = true := by
  unfold complete; cases c.failure <;> rfl
@[simp] theorem complete_err : (complete c).err = c.failure.isSome := by
  unfold complete; cases c.failure <;> rfl
@[simp] theorem complete_ovr : (complete c).ovr = c.state.ovr := by
  unfold complete; cases c.failure <;> rfl
@[simp] theorem complete_errcode : (complete c).errcode = (c.failure.map (fun f => f.why.code.number)).getD 0#4 := by
  unfold complete; cases c.failure <;> rfl
@[simp] theorem complete_errOp : (complete c).errOp = (c.failure.map (fun f => f.op)).getD 0#8 := by
  unfold complete; cases c.failure <;> rfl
@[simp] theorem complete_fv : (complete c).fv = c.state.fv := by
  unfold complete; cases c.failure <;> rfl
@[simp] theorem complete_cv : (complete c).cv = c.state.cv := by
  unfold complete; cases c.failure <;> rfl
@[simp] theorem complete_pv : (complete c).pv = c.state.pv := by
  unfold complete; cases c.failure <;> rfl
@[simp] theorem complete_ov : (complete c).ov = c.state.ov := by
  unfold complete; cases c.failure <;> rfl
@[simp] theorem complete_pend : (complete c).pend = c.state.pend := by
  unfold complete; cases c.failure <;> rfl
@[simp] theorem complete_doneEn : (complete c).doneEn = c.state.doneEn := by
  unfold complete; cases c.failure <;> rfl
@[simp] theorem complete_donePend : (complete c).donePend = true := by
  unfold complete; cases c.failure <;> rfl
@[simp] theorem complete_errInfo : (complete c).errInfo = (c.failure.map (fun f => f.why.info)).getD 0#32 := by
  unfold complete; cases c.failure <;> rfl
@[simp] theorem complete_tag : (complete c).tag = c.state.tag := by
  unfold complete; cases c.failure <;> rfl
@[simp] theorem complete_nLen : (complete c).nLen = c.state.nLen := by
  unfold complete; cases c.failure <;> rfl
@[simp] theorem complete_shape0 : (complete c).shape0 = c.state.shape0 := by
  unfold complete; cases c.failure <;> rfl
@[simp] theorem complete_shape1 : (complete c).shape1 = c.state.shape1 := by
  unfold complete; cases c.failure <;> rfl
@[simp] theorem complete_shape2 : (complete c).shape2 = c.state.shape2 := by
  unfold complete; cases c.failure <;> rfl
@[simp] theorem complete_contLen : (complete c).contLen = c.state.contLen := by
  unfold complete; cases c.failure <;> rfl
@[simp] theorem complete_kCnt : (complete c).kCnt = c.state.kCnt := by
  unfold complete; cases c.failure <;> rfl
@[simp] theorem complete_payLen : (complete c).payLen = c.state.payLen := by
  unfold complete; cases c.failure <;> rfl
@[simp] theorem complete_pad : (complete c).pad = c.state.pad := by
  unfold complete; cases c.failure <;> rfl
@[simp] theorem complete_encBits : (complete c).encBits = c.state.encBits := by
  unfold complete; cases c.failure <;> rfl
@[simp] theorem complete_outLen : (complete c).outLen = c.state.outLen := by
  unfold complete; cases c.failure <;> rfl
@[simp] theorem complete_winSel : (complete c).winSel = c.state.winSel := by
  unfold complete; cases c.failure <;> rfl
@[simp] theorem complete_winIdx : (complete c).winIdx = c.state.winIdx := by
  unfold complete; cases c.failure <;> rfl
@[simp] theorem complete_sym : (complete c).sym = c.state.sym := by
  unfold complete; cases c.failure <;> rfl
@[simp] theorem complete_freq : (complete c).freq = c.state.freq := by
  unfold complete; cases c.failure <;> rfl
@[simp] theorem complete_code : (complete c).code = c.state.code := by
  unfold complete; cases c.failure <;> rfl
@[simp] theorem complete_pay : (complete c).pay = c.state.pay := by
  unfold complete; cases c.failure <;> rfl
@[simp] theorem complete_cont : (complete c).cont = c.state.cont := by
  unfold complete; cases c.failure <;> rfl
@[simp] theorem complete_out : (complete c).out = c.state.out := by
  unfold complete; cases c.failure <;> rfl
@[simp] theorem complete_rdata : (complete c).rdata = c.state.rdata := by
  unfold complete; cases c.failure <;> rfl
@[simp] theorem complete_input : (complete c).input = c.state.input := by
  unfold complete; cases c.failure <;> rfl
end

end Sys2Proof.Machine
end

