-- ==== Sys2Proof/Laws/Bus.lean ====
section
/-! SUPPORT. The register bus: which register an offset reaches, and what an access can do, said once. -/

namespace Sys2Proof.Machine

/-- The bits of a field placed in a register word (10_state.md R26). -/
theorem fieldAt_getLsbD (lo : Nat) {n : Nat} (v : BitVec n) (k : Nat) :
    (fieldAt lo v).getLsbD k = (decide (k < 32) && !decide (k < lo) && v.getLsbD (k - lo)) := by
  unfold fieldAt
  by_cases h : k < 32 <;> simp [h]

theorem Reg.mem_all (r : Reg) : r ∈ Reg.all := by cases r <;> decide

/-- No two registers share an offset (10_state.md R22). -/
theorem Reg.offset_injective {r q : Reg} (h : r.offset = q.offset) : r = q := by
  have key : ∀ r ∈ Reg.all, ∀ q ∈ Reg.all, r.offset = q.offset → r = q := by decide
  exact key r r.mem_all q q.mem_all h

/-- An offset reaches register r exactly if it is r's offset but for its two low bits (20_memory.md R62). -/
theorem regAt_eq_some {off : BitVec 12} {r : Reg} : regAt off = some r ↔ off &&& 0xFFC#12 = r.offset := by
  constructor
  · intro h
    have := List.find?_some h
    exact (beq_iff_eq.1 this).symm
  · intro h
    unfold regAt
    cases hf : Reg.all.find? (fun r => r.offset == off &&& 0xFFC#12) with
    | none =>
      rw [List.find?_eq_none] at hf
      exact absurd h.symm (by simpa using hf r r.mem_all)
    | some q =>
      have hq : (q.offset == off &&& 0xFFC#12) = true :=
        List.find?_some (p := fun r : Reg => r.offset == off &&& 0xFFC#12) hf
      rw [Reg.offset_injective ((beq_iff_eq.1 hq).trans h)]

theorem regAt_eq_none {off : BitVec 12} : regAt off = none ↔ ∀ r : Reg, off &&& 0xFFC#12 ≠ r.offset := by
  constructor
  · intro h r hr
    rw [regAt_eq_some.2 hr] at h
    cases h
  · intro h
    cases hr : regAt off with
    | none => rfl
    | some r => exact absurd (regAt_eq_some.1 hr) (h r)

@[simp] theorem regAt_offset (r : Reg) : regAt r.offset = some r := by cases r <;> decide

theorem busRead_of {s : State} {off : BitVec 12} {r : Reg} (h : off &&& 0xFFC#12 = r.offset) :
    busRead s off = { afterRead s r with rdata := readReg s r } := by
  unfold busRead; rw [regAt_eq_some.2 h]

theorem busWrite_of {s : State} {off : BitVec 12} {d : Word} {r : Reg} (h : off &&& 0xFFC#12 = r.offset) :
    busWrite s off d = if r.locked && s.busy then s.flagOverrun else writeReg s r d := by
  unfold busWrite; rw [regAt_eq_some.2 h]

/-- A host write of a register by its own offset. -/
theorem hostStep_write (s : State) (r : Reg) (d : Word) :
    hostStep s (.write r.offset d) = if r.locked && s.busy then s.flagOverrun else writeReg s r d := by
  show busWrite s r.offset d = _
  unfold busWrite; rw [regAt_offset]

/-- A host read of a register by its own offset. -/
theorem hostStep_read (s : State) (r : Reg) :
    hostStep s (.read r.offset) = { afterRead s r with rdata := readReg s r } := by
  show busRead s r.offset = _
  unfold busRead; rw [regAt_offset]

/-- A window store changes at most one element of SYM or of CONT (20_memory.md R75). -/
theorem windowStore_cases (s : State) (d : Word) :
    (s.winSel = 0#3 ∧ s.winIdx.toNat < s.cfg.maxN ∧
      s.windowStore d = { s with sym := s.sym.write s.winIdx.toNat d }) ∨
    (s.winSel = 4#3 ∧ s.winIdx.toNat < s.cfg.maxCont ∧
      s.windowStore d = { s with cont := s.cont.write s.winIdx.toNat (d.setWidth 8) }) ∨
    (s.windowStore d = s ∧ ¬ (s.winSel = 0#3 ∧ s.winIdx.toNat < s.cfg.maxN) ∧
      ¬ (s.winSel = 4#3 ∧ s.winIdx.toNat < s.cfg.maxCont)) := by
  unfold State.windowStore
  split
  · rename_i h
    have h0 : s.winSel = 0#3 := BitVec.eq_of_toNat_eq h
    have h4 : s.winSel ≠ 4#3 := by rw [h0]; decide
    split
    · exact .inl ⟨h0, ‹_›, rfl⟩
    · exact .inr (.inr ⟨rfl, fun h' => absurd h'.2 ‹_›, fun h' => h4 h'.1⟩)
  · rename_i h
    have h4 : s.winSel = 4#3 := BitVec.eq_of_toNat_eq h
    have h0 : s.winSel ≠ 0#3 := by rw [h4]; decide
    split
    · exact .inr (.inl ⟨h4, ‹_›, rfl⟩)
    · exact .inr (.inr ⟨rfl, fun h' => h0 h'.1, fun h' => absurd h'.2 ‹_›⟩)
  · rename_i h0 h4
    refine .inr (.inr ⟨rfl, fun h => h0 ?_, fun h => h4 ?_⟩)
    · rw [h.1]; rfl
    · rw [h.1]; rfl

/-- What a host write can do: nothing, raise OVR, accept a command word, or write one register or window element. -/
theorem busWrite_cases (s : State) (off : BitVec 12) (d : Word) :
    (regAt off = none ∧ busWrite s off d = s) ∨
    (∃ r, regAt off = some r ∧ r.locked = true ∧ s.busy = true ∧ busWrite s off d = s.flagOverrun) ∨
    (∃ r, regAt off = some r ∧ (r.locked = false ∨ s.busy = false) ∧ busWrite s off d = writeReg s r d) := by
  unfold busWrite
  cases h : regAt off with
  | none => exact .inl ⟨rfl, rfl⟩
  | some r =>
    refine .inr ?_
    cases hl : r.locked <;> cases hb : s.busy
    · exact .inr ⟨r, rfl, .inl hl, by simp [hl]⟩
    · exact .inr ⟨r, rfl, .inl hl, by simp [hl]⟩
    · exact .inr ⟨r, rfl, .inr rfl, by simp [hl]⟩
    · exact .inl ⟨r, rfl, hl, rfl, by simp [hl]⟩

/-- What a host read can do: the read data, and one step of the window index. -/
theorem busRead_cases (s : State) (off : BitVec 12) :
    (regAt off = some .winData ∧ s.busy = false ∧
      busRead s off = { s with winIdx := s.winIdx + 1#32, rdata := s.windowView }) ∨
    (¬ (regAt off = some .winData ∧ s.busy = false) ∧ ∃ v, busRead s off = { s with rdata := v }) := by
  unfold busRead
  cases h : regAt off with
  | none => exact .inr ⟨by simp, _, rfl⟩
  | some r =>
    by_cases hr : r = .winData
    · subst hr
      cases hb : s.busy with
      | false => exact .inl ⟨rfl, rfl, by simp [afterRead, readReg, hb, State.bumpIndex]⟩
      | true => exact .inr ⟨by simp, 0#32, by simp [afterRead, readReg, hb]⟩
    · refine .inr ⟨by simp [hr], readReg s r, ?_⟩
      cases r <;> first | rfl | exact absurd rfl hr

end Sys2Proof.Machine
end

