-- ==== Sys2Proof/Laws/Codes.lean ====
section
/-! SUPPORT. Code tables: the two lookups, translation and packing, and the decode loop. -/

namespace Sys2Proof.Machine

/-! ## Entries -/

@[simp] theorem CodeEntry.bits_length (e : CodeEntry) : e.bits.length = e.len.toNat := by simp [CodeEntry.bits]

theorem bitsVal_entry {e : CodeEntry} (h : e.val.toNat < 2 ^ e.len.toNat) : bitsVal e.bits = e.val.toNat := by
  rw [CodeEntry.bits, bitsVal_codeOf, Nat.mod_eq_of_lt h]

theorem codeEntry_len {c : Bits} (h : c.length ≤ 64) (x : Symbol) : (codeEntry x c).len.toNat = c.length := by
  show (BitVec.ofNat 7 c.length).toNat = _
  rw [BitVec.toNat_ofNat]
  exact Nat.mod_eq_of_lt (by omega)

theorem codeEntry_val {c : Bits} (h : c.length ≤ 64) (x : Symbol) : (codeEntry x c).val.toNat = bitsVal c := by
  show (BitVec.ofNat 64 (bitsVal c)).toNat = _
  rw [BitVec.toNat_ofNat]
  exact Nat.mod_eq_of_lt (Nat.lt_of_lt_of_le (bitsVal_lt c) (Nat.pow_le_pow_right (by omega) h))

theorem codeEntry_bits_of_le {c : Bits} (h : c.length ≤ 64) (x : Symbol) : (codeEntry x c).bits = c := by
  rw [CodeEntry.bits, codeEntry_len h, codeEntry_val h, codeOf_bitsVal]

/-! ## Tables -/

theorem distinctSymbols_iff {table : List CodeEntry} : distinctSymbols table = true ↔ (table.map (·.sym)).Nodup := by
  simp [distinctSymbols]

theorem codesApart_iff {a b : CodeEntry} : codesApart a b = true ↔ ¬ a.bits <+: b.bits ∧ ¬ b.bits <+: a.bits := by
  simp [codesApart, ← List.isPrefixOf_iff_prefix]

theorem prefixFree_iff {table : List CodeEntry} :
    prefixFree table = true ↔ table.Pairwise (fun a b => ¬ a.bits <+: b.bits ∧ ¬ b.bits <+: a.bits) := by
  simp only [prefixFree, codesApart_iff, decide_eq_true_eq]

/-- In a prefix-free table an entry whose code begins another entry's code is that entry. -/
theorem eq_of_bits_prefix {table : List CodeEntry} (ht : prefixFree table = true) {a b : CodeEntry} (ha : a ∈ table)
    (hb : b ∈ table) (h : a.bits <+: b.bits) : a = b := by
  rw [prefixFree_iff] at ht
  obtain ⟨i, hi, rfl⟩ := List.mem_iff_getElem.1 ha
  obtain ⟨j, hj, rfl⟩ := List.mem_iff_getElem.1 hb
  rw [List.pairwise_iff_getElem] at ht
  rcases Nat.lt_trichotomy i j with hij | rfl | hij
  · exact absurd h (ht i j hi hj hij).1
  · rfl
  · exact absurd h (ht j i hj hi hij).2

/-- symbol → code finds the one entry with the symbol (43_bit_packer.md R171). -/
theorem findBySym_of_mem {table : List CodeEntry} (ht : distinctSymbols table = true) {e : CodeEntry} (he : e ∈ table)
    {w : Word} (hw : e.sym.setWidth 32 = w) : findBySym table w = some e := by
  rw [distinctSymbols_iff] at ht
  unfold findBySym
  cases hf : table.find? (fun e => e.sym.setWidth 32 == w) with
  | none =>
    rw [List.find?_eq_none] at hf
    exact absurd hw (by simpa using hf e he)
  | some d =>
    have hd := List.find?_some (p := fun e : CodeEntry => e.sym.setWidth 32 == w) hf
    have hsym : d.sym = e.sym := by
      have h : d.sym.setWidth 32 = e.sym.setWidth 32 := (beq_iff_eq.1 hd).trans hw.symm
      have h' := congrArg (BitVec.setWidth 24) h
      simpa [BitVec.setWidth_setWidth_of_le] using h'
    rw [List.inj_on_of_nodup_map ht (List.mem_of_find?_eq_some hf) he hsym]

theorem findBySym_eq_none {table : List CodeEntry} {w : Word} :
    findBySym table w = none ↔ ∀ e ∈ table, e.sym.setWidth 32 ≠ w := by
  simp [findBySym, List.find?_eq_none]

theorem findBySym_some {table : List CodeEntry} {w : Word} {e : CodeEntry} (h : findBySym table w = some e) :
    e ∈ table ∧ e.sym.setWidth 32 = w :=
  ⟨List.mem_of_find?_eq_some h, beq_iff_eq.1 (List.find?_some (p := fun e : CodeEntry => e.sym.setWidth 32 == w) h)⟩

/-- code → symbol finds only entries whose code is the string, if values fit their lengths (44_bit_unpacker.md R193). -/
theorem findByCode_some {table : List CodeEntry} {c : Bits} {e : CodeEntry} (h : findByCode table c = some e) :
    e ∈ table ∧ e.bits = c := by
  have hp := List.find?_some (p := fun e : CodeEntry => e.len.toNat == c.length && e.val.toNat == bitsVal c) h
  simp only [Bool.and_eq_true, beq_iff_eq] at hp
  exact ⟨List.mem_of_find?_eq_some h, by rw [CodeEntry.bits, hp.1, hp.2, codeOf_bitsVal]⟩

theorem findByCode_of_mem {table : List CodeEntry} (ht : prefixFree table = true)
    (hv : ∀ e ∈ table, e.val.toNat < 2 ^ e.len.toNat) {e : CodeEntry} (he : e ∈ table) :
    findByCode table e.bits = some e := by
  cases hf : findByCode table e.bits with
  | none =>
    unfold findByCode at hf
    rw [List.find?_eq_none] at hf
    exact absurd (hf e he) (by simp [bitsVal_entry (hv e he)])
  | some d =>
    obtain ⟨hd, hb⟩ := findByCode_some hf
    rw [eq_of_bits_prefix ht hd he (by rw [hb])]

/-! ## Translation (43_bit_packer.md R171, R172) -/

/-- Words that all have a code translate to the concatenation of their codes, in order. -/
theorem translate_ok {table : List CodeEntry} {ws : List Word} {es : List CodeEntry} :
    ws.map (findBySym table) = es.map some → ∀ i, translate table i ws = .ok (es.flatMap CodeEntry.bits) := by
  induction ws generalizing es with
  | nil => intro h i; rw [List.map_eq_nil_iff.1 h.symm]; rfl
  | cons w ws ih =>
    intro h i
    match es, h with
    | e :: es, h =>
      rw [List.map_cons, List.map_cons, List.cons.injEq] at h
      rw [translate, h.1]
      simp only [ih h.2 (i + 1)]
      rfl

/-- The index reported is the first word without a code. -/
theorem translate_error {table : List CodeEntry} {ws : List Word} {k : Nat} (hk : k < ws.length)
    (hbad : findBySym table ws[k] = none) (hgood : ∀ j (hj : j < k), findBySym table ws[j] ≠ none) (i : Nat) :
    translate table i ws = .error (i + k) := by
  induction ws generalizing k i with
  | nil => simp at hk
  | cons w ws ih =>
    cases k with
    | zero =>
      rw [List.getElem_cons_zero] at hbad
      rw [translate, hbad]
      rfl
    | succ k =>
      obtain ⟨e, he⟩ := Option.ne_none_iff_exists'.1 (hgood 0 (by omega))
      rw [List.getElem_cons_zero] at he
      rw [translate, he]
      simp only
      rw [ih (k := k) (by simpa using hk) hbad (fun j hj => hgood (j + 1) (by omega)), Nat.add_right_comm, Nat.add_assoc]

/-- What a translation that succeeds says: there is an entry for each word, in order. -/
theorem translate_inv {table : List CodeEntry} {ws : List Word} {enc : Bits} {i : Nat}
    (h : translate table i ws = .ok enc) :
    ∃ es : List CodeEntry, ws.map (findBySym table) = es.map some ∧ enc = es.flatMap CodeEntry.bits := by
  induction ws generalizing i enc with
  | nil => exact ⟨[], rfl, (Except.ok.inj h).symm⟩
  | cons w ws ih =>
    unfold translate at h
    cases he : findBySym table w with
    | none => simp [he] at h
    | some e =>
      rw [he] at h
      simp only at h
      cases hr : translate table (i + 1) ws with
      | error j => simp [hr] at h
      | ok rest =>
        rw [hr] at h
        obtain ⟨es, h1, h2⟩ := ih hr
        exact ⟨e :: es, by rw [List.map_cons, List.map_cons, he, h1], by
          rw [List.flatMap_cons, ← h2]; exact (Except.ok.inj h).symm⟩

/-! ## Packing (43_bit_packer.md R173, R174) -/

theorem paddingCount_bounds (n : Nat) : 1 ≤ paddingCount n ∧ paddingCount n ≤ 8 ∧ (n + paddingCount n) % 8 = 0 := by
  unfold paddingCount; omega

theorem packBits_length (enc : Bits) :
    (bits8 (BitVec.ofNat 8 (paddingCount enc.length)) ++ enc ++ zeros (paddingCount enc.length)).length =
      8 * payloadLength enc.length := by
  have := paddingCount_bounds enc.length
  simp only [List.length_append, bits8_length, zeros, List.length_replicate, payloadLength]
  omega

@[simp] theorem packBytes_length (enc : Bits) : (packBytes enc).length = payloadLength enc.length :=
  bytesOf_length (packBits_length enc)

/-- The packed bits: the padding count, the codes, the padding (30_encoding.md R107). -/
theorem packBytes_bits (enc : Bits) :
    (packBytes enc).flatMap bits8 =
      bits8 (BitVec.ofNat 8 (paddingCount enc.length)) ++ enc ++ zeros (paddingCount enc.length) :=
  flatMap_bytesOf (packBits_length enc)

theorem packBytes_cons (enc : Bits) :
    packBytes enc = BitVec.ofNat 8 (paddingCount enc.length) :: bytesOf (enc ++ zeros (paddingCount enc.length)) := by
  unfold packBytes
  rw [List.append_assoc, bytesOf_append (bits8_length _), bitsVal_bits8, BitVec.ofNat_toNat, BitVec.setWidth_eq]

/-- The code bits of a packed payload are the codes that were packed (44_bit_unpacker.md R192). -/
theorem encodedBits_packBytes (enc : Bits) : encodedBits (packBytes enc) = enc := by
  have hb := paddingCount_bounds enc.length
  have hlen : (enc ++ zeros (paddingCount enc.length)).length = 8 * ((enc.length + paddingCount enc.length) / 8) := by
    simp only [List.length_append, zeros, List.length_replicate]; omega
  unfold encodedBits payloadBits payloadHeader
  rw [packBytes_cons, List.tail_cons, List.headD_cons, flatMap_bytesOf hlen, List.length_cons, bytesOf_length hlen,
    BitVec.toNat_ofNat]
  rw [show 8 * ((enc.length + paddingCount enc.length) / 8 + 1 - 1) - paddingCount enc.length % 2 ^ 8 = enc.length by
    omega]
  exact List.take_left

theorem payloadHeader_packBytes (enc : Bits) : payloadHeader (packBytes enc) = paddingCount enc.length := by
  have hb := paddingCount_bounds enc.length
  rw [payloadHeader, packBytes_cons, List.headD_cons, BitVec.toNat_ofNat]
  omega

/-! ## The decode loop (44_bit_unpacker.md R193 to R195) -/

section
variable {table : List CodeEntry} {maxN : Nat}

/-- Bits that complete an entry's code emit its symbol, or overrun the output. -/
theorem decodeLoop_code (ht : prefixFree table = true) (hv : ∀ e ∈ table, e.val.toNat < 2 ^ e.len.toNat) {e : CodeEntry}
    (he : e ∈ table) {acc c : Bits} (hc : c ≠ []) (hb : e.bits = acc ++ c) (out : List Word) (rest : Bits) :
    decodeLoop table maxN acc out (c ++ rest) =
      if out.length = maxN then .error .capacity
      else decodeLoop table maxN [] (out ++ [e.sym.setWidth 32]) rest := by
  induction c generalizing acc with
  | nil => exact absurd rfl hc
  | cons b c ih =>
    rw [List.cons_append, decodeLoop]
    by_cases hc' : c = []
    · subst hc'
      rw [← hb, findByCode_of_mem ht hv he]
      rfl
    · have hnone : findByCode table (acc ++ [b]) = none := by
        cases hf : findByCode table (acc ++ [b]) with
        | none => rfl
        | some d =>
          obtain ⟨hd, hdb⟩ := findByCode_some hf
          have hde : d = e := eq_of_bits_prefix ht hd he (by rw [hdb, hb]; exact ⟨c, by simp⟩)
          rw [hde, hb] at hdb
          have := congrArg List.length hdb
          simp at this
          exact absurd this hc'
      rw [hnone]
      exact ih hc' (by rw [hb]; simp)

/-- A sequence of codes that fits into the output. -/
theorem decodeLoop_codes (ht : prefixFree table = true) (hv : ∀ e ∈ table, 1 ≤ e.len.toNat ∧ e.val.toNat < 2 ^ e.len.toNat)
    {es : List CodeEntry} (hes : ∀ e ∈ es, e ∈ table) (out : List Word) (rest : Bits) (hn : out.length + es.length ≤ maxN) :
    decodeLoop table maxN [] out (es.flatMap CodeEntry.bits ++ rest) =
      decodeLoop table maxN [] (out ++ es.map (fun e => e.sym.setWidth 32)) rest := by
  induction es generalizing out with
  | nil => simp
  | cons e es ih =>
    have he := hes e (by simp)
    have hne : e.bits ≠ [] := by
      rw [← List.length_pos_iff_ne_nil, CodeEntry.bits_length]; exact (hv e he).1
    rw [List.length_cons] at hn
    rw [List.flatMap_cons, List.append_assoc, decodeLoop_code ht (fun e he => (hv e he).2) he hne rfl, if_neg (by omega),
      ih (fun e he => hes e (List.mem_cons_of_mem _ he)) _ (by simp; omega)]
    simp

/-- A sequence of codes that does not fit. -/
theorem decodeLoop_overrun (ht : prefixFree table = true)
    (hv : ∀ e ∈ table, 1 ≤ e.len.toNat ∧ e.val.toNat < 2 ^ e.len.toNat) {es : List CodeEntry} (hes : ∀ e ∈ es, e ∈ table)
    (out : List Word) (rest : Bits) (ho : out.length ≤ maxN) (hn : maxN < out.length + es.length) :
    decodeLoop table maxN [] out (es.flatMap CodeEntry.bits ++ rest) = .error .capacity := by
  induction es generalizing out with
  | nil => simp at hn; omega
  | cons e es ih =>
    have he := hes e (by simp)
    have hne : e.bits ≠ [] := by
      rw [← List.length_pos_iff_ne_nil, CodeEntry.bits_length]; exact (hv e he).1
    rw [List.length_cons] at hn
    rw [List.flatMap_cons, List.append_assoc, decodeLoop_code ht (fun e he => (hv e he).2) he hne rfl]
    split
    · rfl
    · exact ih (fun e he => hes e (List.mem_cons_of_mem _ he)) _ (by simp; omega) (by simp; omega)

/-- Bits that no code begins are left over. -/
theorem decodeLoop_leftover {acc rest : Bits} (out : List Word) (hne : acc ++ rest ≠ [])
    (hno : ∀ e ∈ table, ¬ (e.bits <+: acc ++ rest ∧ acc.length < e.bits.length)) :
    decodeLoop table maxN acc out rest = .error .corruptContainer := by
  induction rest generalizing acc with
  | nil => rw [decodeLoop, if_neg (by simpa using hne)]
  | cons b rest ih =>
    rw [decodeLoop]
    have hnone : findByCode table (acc ++ [b]) = none := by
      cases hf : findByCode table (acc ++ [b]) with
      | none => rfl
      | some d =>
        obtain ⟨hd, hdb⟩ := findByCode_some hf
        exact absurd ⟨by rw [hdb]; exact ⟨rest, by simp⟩, by rw [hdb]; simp⟩ (hno d hd)
    rw [hnone]
    refine ih (by simp) fun e he => ?_
    rintro ⟨h1, h2⟩
    refine hno e he ⟨by simpa using h1, ?_⟩
    rw [List.length_append] at h2
    omega

/-- Every output word is a symbol zero-extended (44_bit_unpacker.md R193), and the output fits. -/
theorem decodeLoop_output {acc enc : Bits} {out ws : List Word} (h : decodeLoop table maxN acc out enc = .ok ws)
    (ho : out.length ≤ maxN) (hw : ∀ w ∈ out, wellFormedSymbolWord w = true) :
    ws.length ≤ maxN ∧ ∀ w ∈ ws, wellFormedSymbolWord w = true := by
  induction enc generalizing acc out with
  | nil =>
    unfold decodeLoop at h
    split at h
    · rw [← Except.ok.inj h]; exact ⟨ho, hw⟩
    · cases h
  | cons b enc ih =>
    unfold decodeLoop at h
    split at h
    · exact ih h ho hw
    · split at h
      · cases h
      · refine ih h (by simp; omega) fun w hw' => ?_
        rcases List.mem_append.1 hw' with hw' | hw'
        · exact hw w hw'
        · rw [List.mem_singleton.1 hw']
          have : ∀ x : Symbol, wellFormedSymbolWord (x.setWidth 32) = true := by
            intro x
            unfold wellFormedSymbolWord
            rw [beq_iff_eq]
            ext i hi
            simp
          exact this _

end

end Sys2Proof.Machine
end

