-- ==== Sys2Proof/Laws/Container.lean ====
section
/-! SUPPORT. The container: each field parser reads its field and nothing more, fails as truncated on less, and gives back
what was written. -/

namespace Sys2Proof.Machine

/-! ## Field parsers -/

@[simp] theorem except_bind_ok {ε α β : Type} (a : α) (f : α → Except ε β) : (Except.ok a >>= f) = f a := rfl

@[simp] theorem except_bind_error {ε α β : Type} (e : ε) (f : α → Except ε β) :
    ((Except.error e : Except ε α) >>= f) = .error e := rfl

theorem except_bind_eq_ok {ε α β : Type} {x : Except ε α} {f : α → Except ε β} {b : β} :
    (x >>= f) = .ok b ↔ ∃ a, x = .ok a ∧ f a = .ok b := by
  cases x with
  | error e => simp
  | ok a => simp

theorem requireThat_eq_ok {c : Bool} {e : ErrCode} {u : Unit} : requireThat c e = .ok u ↔ c = true := by
  unfold requireThat; cases c <;> simp

@[simp] theorem requireThat_true (e : ErrCode) : requireThat true e = .ok () := rfl

@[simp] theorem requireThat_false (e : ErrCode) : requireThat false e = .error e := rfl

theorem requireThat_of {p : Prop} {d : Decidable p} (h : p) (e : ErrCode) : requireThat (@decide p d) e = .ok () := by
  simp [h]

theorem requireThat_of_not {p : Prop} {d : Decidable p} (h : ¬ p) (e : ErrCode) :
    requireThat (@decide p d) e = .error e := by
  simp [h]

theorem takeBytes_append {n : Nat} {f : List Byte} (h : f.length = n) (rest : List Byte) :
    takeBytes n (f ++ rest) = .ok (f, rest) := by
  subst h
  unfold takeBytes
  rw [if_neg (by simp), List.take_left, List.drop_left]

theorem takeBytes_short {n : Nat} {bs : List Byte} (h : bs.length < n) : takeBytes n bs = .error .corruptContainer := by
  unfold takeBytes; rw [if_pos h]

theorem takeBytes_eq_ok {n : Nat} {bs f rest : List Byte} (h : takeBytes n bs = .ok (f, rest)) :
    f.length = n ∧ bs = f ++ rest := by
  unfold takeBytes at h
  split at h
  · cases h
  · obtain ⟨rfl, rfl⟩ := Prod.mk.inj (Except.ok.inj h)
    exact ⟨by rw [List.length_take]; omega, (List.take_append_drop n bs).symm⟩

theorem takeNat_append {n : Nat} {f : List Byte} (h : f.length = n) (rest : List Byte) :
    takeNat n (f ++ rest) = .ok (beVal f, rest) := by
  unfold takeNat; rw [takeBytes_append h]

theorem takeNat_short {n : Nat} {bs : List Byte} (h : bs.length < n) : takeNat n bs = .error .corruptContainer := by
  unfold takeNat; rw [takeBytes_short h]

theorem takeNat_eq_ok {n : Nat} {bs rest : List Byte} {v : Nat} (h : takeNat n bs = .ok (v, rest)) :
    ∃ f, f.length = n ∧ bs = f ++ rest ∧ v = beVal f := by
  unfold takeNat at h
  cases hf : takeBytes n bs with
  | error e => simp [hf] at h
  | ok p =>
    obtain ⟨f, r⟩ := p
    rw [hf] at h
    obtain ⟨rfl, rfl⟩ := Prod.mk.inj (Except.ok.inj h)
    exact ⟨f, (takeBytes_eq_ok hf).1, (takeBytes_eq_ok hf).2, rfl⟩

/-! ## Parsers that read a field and nothing more -/

/-- A parser is local if what it reads does not depend on what follows, and every shorter beginning of it is truncated
(45_container.md R222). -/
def LocalParser {α : Type} (p : List Byte → Except ErrCode (α × List Byte)) : Prop :=
  ∀ bs a rest, p bs = .ok (a, rest) →
    ∃ f, bs = f ++ rest ∧ (∀ rest', p (f ++ rest') = .ok (a, rest')) ∧
      ∀ g, g <+: f → g ≠ f → p g = .error .corruptContainer

theorem LocalParser.pure {α : Type} (a : α) : LocalParser (fun bs => .ok (a, bs)) := by
  intro bs b rest h
  obtain ⟨rfl, rfl⟩ := Prod.mk.inj (Except.ok.inj h)
  exact ⟨[], rfl, fun _ => rfl, fun g hg hne => absurd (List.prefix_nil.1 hg) hne⟩

theorem LocalParser.bind {α β : Type} {p : List Byte → Except ErrCode (α × List Byte)}
    {q : α × List Byte → Except ErrCode (β × List Byte)} (hp : LocalParser p)
    (hq : ∀ a, LocalParser (fun bs => q (a, bs))) : LocalParser (fun bs => p bs >>= q) := by
  intro bs b rest h
  obtain ⟨⟨a, bs'⟩, h1, h2⟩ := except_bind_eq_ok.1 h
  obtain ⟨f, rfl, hf, hfs⟩ := hp bs a bs' h1
  obtain ⟨g, rfl, hg, hgs⟩ := hq a _ b rest h2
  refine ⟨f ++ g, by simp, fun rest' => ?_, fun k hk hne => ?_⟩
  · show (p (f ++ g ++ rest') >>= _) = _
    rw [List.append_assoc, hf]
    exact hg rest'
  · show (p k >>= _) = _
    rcases List.prefix_or_prefix_of_prefix hk (List.prefix_append f g) with hkf | hkf
    · by_cases he : k = f
      · subst he
        rw [← List.append_nil k, hf]
        have hgne : g ≠ [] := by rintro rfl; simp at hne
        exact hgs [] List.nil_prefix (Ne.symm hgne)
      · rw [hfs k hkf he]; rfl
    · obtain ⟨k', rfl⟩ := hkf
      rw [hf]
      refine hgs k' ((List.prefix_append_right_inj f).1 hk) fun h' => hne (by rw [h'])

theorem LocalParser.require {α : Type} {c : Bool} {e : ErrCode} {p : List Byte → Except ErrCode (α × List Byte)}
    (hp : LocalParser p) : LocalParser (fun bs => requireThat c e >>= fun _ => p bs) := by
  cases c with
  | true => exact hp
  | false => intro bs a rest h; cases h

theorem takeBytes_local (n : Nat) : LocalParser (takeBytes n) := by
  intro bs f rest h
  obtain ⟨h1, rfl⟩ := takeBytes_eq_ok h
  refine ⟨f, rfl, fun _ => takeBytes_append h1 _, fun g hg hne => takeBytes_short ?_⟩
  have := hg.length_le
  have : g.length ≠ f.length := fun h' => hne (hg.eq_of_length h')
  omega

theorem takeNat_local (n : Nat) : LocalParser (takeNat n) := by
  intro bs v rest h
  obtain ⟨f, h1, rfl, rfl⟩ := takeNat_eq_ok h
  refine ⟨f, rfl, fun _ => takeNat_append h1 _, fun g hg hne => takeNat_short ?_⟩
  have := hg.length_le
  have : g.length ≠ f.length := fun h' => hne (hg.eq_of_length h')
  omega

theorem parseShape_local (tag : Byte) : LocalParser (parseShape tag) := by
  unfold parseShape
  split
  · refine (takeNat_local 4).bind fun w => ?_
    refine (takeNat_local 4).bind fun h => ?_
    refine (takeNat_local 4).bind fun c => ?_
    exact .pure (w, h, c)
  · exact .pure (0, 0, 0)

theorem parseHeader_local : LocalParser parseHeader := by
  unfold parseHeader
  refine (takeBytes_local 4).bind fun _ => .require ?_
  refine (takeBytes_local 1).bind fun _ => .require ?_
  refine (takeBytes_local 1).bind fun _ => .require ?_
  refine (takeBytes_local 1).bind fun _ => .require (.require ?_)
  refine (takeBytes_local 1).bind fun _ => .require ?_
  refine (parseShape_local _).bind fun _ => ?_
  exact .pure _

theorem parseEntry_local (maxCodeLen : Nat) (tag : Byte) : LocalParser (parseEntry maxCodeLen tag) := by
  unfold parseEntry
  refine (takeNat_local 3).bind fun _ => .require ?_
  refine (takeNat_local 1).bind fun _ => .require (.require ?_)
  refine (takeNat_local _).bind fun _ => .require ?_
  exact .pure _

theorem parseEntries_local (maxCodeLen : Nat) (tag : Byte) : ∀ k, LocalParser (parseEntries maxCodeLen tag k)
  | 0 => .pure []
  | k + 1 => by
    show LocalParser (fun bs => parseEntry maxCodeLen tag bs >>= fun x =>
      parseEntries maxCodeLen tag k x.2 >>= fun y => .ok (x.1 :: y.1, y.2))
    refine (parseEntry_local maxCodeLen tag).bind fun e => ?_
    show LocalParser (fun bs => parseEntries maxCodeLen tag k bs >>= fun y => .ok (e :: y.1, y.2))
    exact (parseEntries_local maxCodeLen tag k).bind fun es => .pure (e :: es)

/-- The fields of a body without the last check, that nothing follows. -/
def parseFields (cfg : Config) (bs : List Byte) : Except ErrCode (Parsed × List Byte) := do
  let (header, bs) ← parseHeader bs
  let (k, bs) ← takeNat 4 bs
  requireThat (decide (k ≠ 0)) .corruptContainer
  requireThat (decide (k ≤ cfg.maxK)) .capacity
  let (table, bs) ← parseEntries cfg.maxCodeLen header.tag k bs
  requireThat (distinctSymbols table) .corruptContainer
  requireThat (prefixFree table) .corruptContainer
  let (p, bs) ← takeNat 4 bs
  requireThat (decide (p ≠ 0)) .corruptContainer
  requireThat (decide (p ≤ cfg.maxPay)) .capacity
  let (payload, bs) ← takeBytes p bs
  requireThat (payload.headD 0#8 == header.padf) .corruptContainer
  .ok ({ header := header, table := table, payload := payload }, bs)

theorem parseFields_local (cfg : Config) : LocalParser (parseFields cfg) := by
  unfold parseFields
  refine parseHeader_local.bind fun _ => ?_
  refine (takeNat_local 4).bind fun _ => .require (.require ?_)
  refine (parseEntries_local _ _ _).bind fun _ => .require (.require ?_)
  refine (takeNat_local 4).bind fun _ => .require (.require ?_)
  refine (takeBytes_local _).bind fun _ => .require ?_
  exact .pure _

theorem parseBody_eq (cfg : Config) (bs : List Byte) :
    parseBody cfg bs = parseFields cfg bs >>= fun x => requireThat x.2.isEmpty .corruptContainer >>= fun _ => .ok x.1 := by
  unfold parseBody parseFields
  simp only [bind_assoc]
  rfl

/-- The body of a container is the fields and nothing more. -/
theorem parseBody_eq_ok {cfg : Config} {bs : List Byte} {r : Parsed} :
    parseBody cfg bs = .ok r ↔ parseFields cfg bs = .ok (r, []) := by
  rw [parseBody_eq]
  constructor
  · intro h
    obtain ⟨⟨q, rest⟩, h1, h2⟩ := except_bind_eq_ok.1 h
    obtain ⟨u, h3, h4⟩ := except_bind_eq_ok.1 h2
    have h5 : rest = [] := by simpa using requireThat_eq_ok.1 h3
    rw [h1, h5, ← Except.ok.inj h4]
  · intro h
    rw [h]
    rfl

/-- A body that is cut short is corrupt (45_container.md R222). -/
theorem parseBody_truncated {cfg : Config} {bs g : List Byte} {r : Parsed} (h : parseBody cfg bs = .ok r)
    (hg : g <+: bs) (hne : g ≠ bs) : parseBody cfg g = .error .corruptContainer := by
  obtain ⟨f, hf, -, ht⟩ := parseFields_local cfg _ _ _ (parseBody_eq_ok.1 h)
  rw [List.append_nil] at hf
  subst hf
  rw [parseBody_eq, ht g hg hne]
  rfl

/-! ## What is written is read back -/

theorem beBytes_beVal (l : List Byte) : beBytes l.length (beVal l) = l := by
  have h : (beBytes l.length (beVal l)).flatMap bits8 = l.flatMap bits8 := by
    rw [flatMap_beBytes]
    refine bits_ext (by rw [codeOf_length, flatMap_bits8_length]) ?_
    rw [bitsVal_codeOf]
    have hv : bitsVal (l.flatMap bits8) = beVal l := by
      induction l with
      | nil => rfl
      | cons b l ih =>
        rw [List.flatMap_cons, bitsVal_append, ih, bitsVal_bits8, beVal_cons, flatMap_bits8_length, pow_mul,
          show (2 : Nat) ^ 8 = 256 from rfl]
    rw [hv, Nat.mod_eq_of_lt]
    rw [pow_mul]
    exact beVal_lt l
  have := congrArg bytesOf h
  rwa [bytesOf_flatMap, bytesOf_flatMap] at this

theorem beVal_beBytes_of_lt {n v : Nat} (h : v < 256 ^ n) : beVal (beBytes n v) = v := by
  rw [beVal_beBytes, Nat.mod_eq_of_lt h]

theorem takeNat_beBytes {n v : Nat} (h : v < 256 ^ n) (rest : List Byte) :
    takeNat n (beBytes n v ++ rest) = .ok (v, rest) := by
  rw [takeNat_append (beBytes_length n v), beVal_beBytes_of_lt h]

theorem ceilDiv8_bounds (n : Nat) : n ≤ 8 * ceilDiv8 n ∧ 8 * ceilDiv8 n < n + 8 := by unfold ceilDiv8; omega

theorem shiftedCode_lt {len val : Nat} (h : val < 2 ^ len) :
    val * 2 ^ (8 * ceilDiv8 len - len) < 256 ^ ceilDiv8 len := by
  have hb := ceilDiv8_bounds len
  calc val * 2 ^ (8 * ceilDiv8 len - len) < 2 ^ len * 2 ^ (8 * ceilDiv8 len - len) :=
        (Nat.mul_lt_mul_right (by positivity)).2 h
    _ = 256 ^ ceilDiv8 len := by
        rw [← pow_add, show len + (8 * ceilDiv8 len - len) = 8 * ceilDiv8 len by omega, pow_mul,
          show (2 : Nat) ^ 8 = 256 from rfl]

/-- A code entry is read back (45_container.md R224). -/
theorem parseEntry_entryBytes {maxCodeLen : Nat} {tag : Byte} {e : CodeEntry} (hs : validSymbol tag e.sym = true)
    (h1 : 1 ≤ e.len.toNat) (h2 : e.len.toNat ≤ maxCodeLen) (h64 : e.len.toNat ≤ 64)
    (hv : e.val.toNat < 2 ^ e.len.toNat) (rest : List Byte) :
    parseEntry maxCodeLen tag (entryBytes e ++ rest) = .ok (e, rest) := by
  have hsym := e.sym.isLt
  have hlen : beVal [e.len.setWidth 8] = e.len.toNat := by
    rw [beVal_cons, List.length_nil, beVal_nil, BitVec.toNat_setWidth]
    have := e.len.isLt
    omega
  have hsh := shiftedCode_lt hv
  have hpos : 0 < 2 ^ (8 * ceilDiv8 e.len.toNat - e.len.toNat) := by positivity
  unfold parseEntry entryBytes codeBytes
  rw [List.append_assoc, List.append_assoc, takeNat_beBytes (n := 3) (by omega)]
  simp only [except_bind_ok, BitVec.ofNat_toNat, BitVec.setWidth_eq, hs, requireThat_true]
  rw [takeNat_append (n := 1) (f := [e.len.setWidth 8]) rfl, hlen]
  simp only [except_bind_ok, show decide (e.len.toNat ≠ 0) = true by simp; omega, h64, h2, decide_true, Bool.and_self,
    requireThat_true, takeNat_beBytes hsh, Nat.mul_mod_left, Nat.mul_div_cancel _ hpos, BitVec.ofNat_toNat,
    BitVec.setWidth_eq]

/-- What an entry that is read looks like. -/
theorem parseEntry_eq_ok {maxCodeLen : Nat} {tag : Byte} {bs rest : List Byte} {e : CodeEntry}
    (h : parseEntry maxCodeLen tag bs = .ok (e, rest)) :
    bs = entryBytes e ++ rest ∧ validSymbol tag e.sym = true ∧ 1 ≤ e.len.toNat ∧ e.len.toNat ≤ maxCodeLen ∧
      e.len.toNat ≤ 64 ∧ e.val.toNat < 2 ^ e.len.toNat := by
  unfold parseEntry at h
  obtain ⟨⟨x, bs1⟩, hx, h⟩ := except_bind_eq_ok.1 h
  obtain ⟨_, hval, h⟩ := except_bind_eq_ok.1 h
  obtain ⟨⟨n, bs2⟩, hn, h⟩ := except_bind_eq_ok.1 h
  obtain ⟨_, hn0, h⟩ := except_bind_eq_ok.1 h
  obtain ⟨_, hnm, h⟩ := except_bind_eq_ok.1 h
  obtain ⟨⟨v, bs3⟩, hv, h⟩ := except_bind_eq_ok.1 h
  obtain ⟨_, hvz, h⟩ := except_bind_eq_ok.1 h
  rw [requireThat_eq_ok] at hval hn0 hnm hvz
  simp only [Bool.and_eq_true, decide_eq_true_eq] at hn0 hnm hvz
  obtain ⟨f1, hf1, rfl, rfl⟩ := takeNat_eq_ok hx
  obtain ⟨f2, hf2, hbs1, rfl⟩ := takeNat_eq_ok hn
  obtain ⟨f3, hf3, hbs2, rfl⟩ := takeNat_eq_ok hv
  obtain ⟨rfl, rfl⟩ := Prod.mk.inj (Except.ok.inj h)
  have hfx := beVal_lt f1
  have hfv := beVal_lt f3
  obtain ⟨b, rfl⟩ : ∃ b, f2 = [b] := List.length_eq_one_iff.1 hf2
  have hb : beVal [b] = b.toNat := by rw [beVal_cons]; simp
  rw [hb] at hn0 hnm hvz hf3 ⊢
  have hc := ceilDiv8_bounds b.toNat
  have hlen : (BitVec.ofNat 7 b.toNat).toNat = b.toNat := by rw [BitVec.toNat_ofNat]; omega
  have hsh : beVal f3 / 2 ^ (8 * ceilDiv8 b.toNat - b.toNat) < 2 ^ b.toNat := by
    rw [Nat.div_lt_iff_lt_mul (by positivity), ← pow_add,
      show b.toNat + (8 * ceilDiv8 b.toNat - b.toNat) = 8 * ceilDiv8 b.toNat by omega, pow_mul, ← hf3]
    exact hfv
  have h64 : (2 : Nat) ^ b.toNat ≤ 2 ^ 64 := Nat.pow_le_pow_right (by omega) hn0.2
  have hvt : (BitVec.ofNat 64 (beVal f3 / 2 ^ (8 * ceilDiv8 b.toNat - b.toNat))).toNat =
      beVal f3 / 2 ^ (8 * ceilDiv8 b.toNat - b.toNat) := by
    rw [BitVec.toNat_ofNat, Nat.mod_eq_of_lt (by omega)]
  refine ⟨?_, hval, ?_, ?_, ?_, ?_⟩
  · rw [hbs1, hbs2]
    unfold entryBytes codeBytes
    simp only [hlen, hvt, Nat.div_mul_cancel (Nat.dvd_of_mod_eq_zero hvz)]
    have e1 : beBytes 3 (BitVec.ofNat 24 (beVal f1)).toNat = f1 := by
      rw [BitVec.toNat_ofNat, Nat.mod_eq_of_lt (by rw [hf1] at hfx; omega), ← hf1, beBytes_beVal]
    have e2 : (BitVec.ofNat 7 b.toNat).setWidth 8 = b := by
      refine BitVec.eq_of_toNat_eq ?_
      rw [BitVec.toNat_setWidth, hlen]
      exact Nat.mod_eq_of_lt b.isLt
    have e3 : beBytes (ceilDiv8 b.toNat) (beVal f3) = f3 := by rw [← hf3, beBytes_beVal]
    rw [e1, e2, e3]
    simp
  · simp only [hlen]; omega
  · simp only [hlen]; exact hnm
  · simp only [hlen]; exact hn0.2
  · simp only [hlen, hvt]; exact hsh

/-- What `PARSE` asks of each entry (45_container.md R224). -/
structure EntryReadable (maxCodeLen : Nat) (tag : Byte) (e : CodeEntry) : Prop where
  valid : validSymbol tag e.sym = true
  pos : 1 ≤ e.len.toNat
  le : e.len.toNat ≤ maxCodeLen
  held : e.len.toNat ≤ 64
  val : e.val.toNat < 2 ^ e.len.toNat

theorem parseEntries_entryBytes {maxCodeLen : Nat} {tag : Byte} {table : List CodeEntry}
    (h : ∀ e ∈ table, EntryReadable maxCodeLen tag e) (rest : List Byte) :
    parseEntries maxCodeLen tag table.length (table.flatMap entryBytes ++ rest) = .ok (table, rest) := by
  induction table with
  | nil => rfl
  | cons e table ih =>
    have he := h e (by simp)
    rw [List.length_cons, parseEntries, List.flatMap_cons, List.append_assoc,
      parseEntry_entryBytes he.valid he.pos he.le he.held he.val]
    simp only [except_bind_ok, ih fun e he => h e (List.mem_cons_of_mem _ he)]

theorem parseEntries_eq_ok {maxCodeLen : Nat} {tag : Byte} {k : Nat} {bs rest : List Byte} {table : List CodeEntry}
    (h : parseEntries maxCodeLen tag k bs = .ok (table, rest)) :
    bs = table.flatMap entryBytes ++ rest ∧ table.length = k ∧ ∀ e ∈ table, EntryReadable maxCodeLen tag e := by
  induction k generalizing bs table with
  | zero =>
    obtain ⟨rfl, rfl⟩ := Prod.mk.inj (Except.ok.inj h)
    exact ⟨rfl, rfl, by simp⟩
  | succ k ih =>
    rw [parseEntries] at h
    obtain ⟨⟨e, bs1⟩, he, h⟩ := except_bind_eq_ok.1 h
    obtain ⟨⟨es, bs2⟩, hes, h⟩ := except_bind_eq_ok.1 h
    obtain ⟨rfl, rfl⟩ := Prod.mk.inj (Except.ok.inj h)
    obtain ⟨rfl, h1, h2, h3, h4, h5⟩ := parseEntry_eq_ok he
    obtain ⟨h6, h7, h8⟩ := ih hes
    refine ⟨by rw [h6, List.flatMap_cons, List.append_assoc], by rw [List.length_cons, h7], fun x hx => ?_⟩
    rcases List.mem_cons.1 hx with rfl | hx
    · exact ⟨h1, h2, h3, h4, h5⟩
    · exact h8 x hx

/-! ## Header and whole body -/

/-- SHAPE as PARSE commits it: (0, 0, 0) for text (45_container.md R220). -/
def shapeRead (tag : Byte) (x : Word) : Word := if tag = tagPixels then x else 0#32

theorem parseShape_shapeBytes (tag : Byte) (w h c : Word) (rest : List Byte) :
    parseShape tag (shapeBytes tag w h c ++ rest) =
      .ok (((shapeRead tag w).toNat, (shapeRead tag h).toNat, (shapeRead tag c).toNat), rest) := by
  unfold parseShape shapeBytes shapeRead
  have hw := w.isLt
  have hh := h.isLt
  have hc := c.isLt
  split
  · rw [List.append_assoc, List.append_assoc, takeNat_beBytes (n := 4) (by omega)]
    simp only [except_bind_ok]
    rw [takeNat_beBytes (n := 4) (by omega)]
    simp only [except_bind_ok]
    rw [takeNat_beBytes (n := 4) (by omega)]
    rfl
  · rfl

theorem parseShape_eq_ok {tag : Byte} {bs rest : List Byte} {w h c : Nat}
    (hp : parseShape tag bs = .ok ((w, h, c), rest)) :
    bs = shapeBytes tag (BitVec.ofNat 32 w) (BitVec.ofNat 32 h) (BitVec.ofNat 32 c) ++ rest ∧
      (tag ≠ tagPixels → w = 0 ∧ h = 0 ∧ c = 0) := by
  unfold parseShape at hp
  unfold shapeBytes
  split at hp
  · rename_i ht
    rw [if_pos ht]
    obtain ⟨⟨w', b1⟩, h1, hp⟩ := except_bind_eq_ok.1 hp
    obtain ⟨⟨h', b2⟩, h2, hp⟩ := except_bind_eq_ok.1 hp
    obtain ⟨⟨c', b3⟩, h3, hp⟩ := except_bind_eq_ok.1 hp
    obtain ⟨he, rfl⟩ := Prod.mk.inj (Except.ok.inj hp)
    obtain ⟨rfl, he'⟩ := Prod.mk.inj he
    obtain ⟨rfl, rfl⟩ := Prod.mk.inj he'
    obtain ⟨f1, l1, rfl, rfl⟩ := takeNat_eq_ok h1
    obtain ⟨f2, l2, e2, rfl⟩ := takeNat_eq_ok h2
    obtain ⟨f3, l3, e3, rfl⟩ := takeNat_eq_ok h3
    have field : ∀ f : List Byte, f.length = 4 → beBytes 4 (BitVec.ofNat 32 (beVal f)).toNat = f := by
      intro f hf
      have := beVal_lt f
      rw [BitVec.toNat_ofNat, Nat.mod_eq_of_lt (by rw [hf] at this; omega), ← hf, beBytes_beVal]
    rw [field f1 l1, field f2 l2, field f3 l3, e2, e3]
    exact ⟨by simp, fun h => absurd ht h⟩
  · rename_i ht
    rw [if_neg ht]
    obtain ⟨he, rfl⟩ := Prod.mk.inj (Except.ok.inj hp)
    obtain ⟨rfl, he'⟩ := Prod.mk.inj he
    obtain ⟨rfl, rfl⟩ := Prod.mk.inj he'
    exact ⟨rfl, fun _ => ⟨rfl, rfl, rfl⟩⟩

/-- The FLAGS byte that PARSE accepts for a tag is the one SERIALIZE writes (30_encoding.md R100). -/
theorem shapeFlag_iff (tag flags : Byte) :
    (flags.extractLsb' 1 7 == 0#7) = true ∧ (flags.getLsbD 0 == (tag == tagPixels)) = true ↔ flags = shapeFlag tag := by
  have key : ∀ f : Byte, ∀ b : Bool,
      ((f.extractLsb' 1 7 == 0#7) = true ∧ (f.getLsbD 0 == b) = true ↔ f = if b then 0x01#8 else 0x00#8) := by decide
  rw [key flags (tag == tagPixels), shapeFlag]
  by_cases h : tag = tagPixels <;> simp [h]

theorem parseHeader_layout {tag padf : Byte} (ht : knownTag tag = true) (hp : padf.toNat ≤ 8) (w h c : Word)
    (rest : List Byte) :
    parseHeader (magicBytes ++ [containerVersion, tag, shapeFlag tag, padf] ++ shapeBytes tag w h c ++ rest) =
      .ok ({ tag := tag, padf := padf, shape0 := shapeRead tag w, shape1 := shapeRead tag h,
             shape2 := shapeRead tag c }, rest) := by
  obtain ⟨f1, f2⟩ := (shapeFlag_iff tag (shapeFlag tag)).2 rfl
  unfold parseHeader
  rw [List.append_assoc, List.append_assoc, takeBytes_append (n := 4) (f := magicBytes) rfl]
  simp only [except_bind_ok, beq_self_eq_true, requireThat_true]
  rw [show ∀ r : List Byte, [containerVersion, tag, shapeFlag tag, padf] ++ r =
    [containerVersion] ++ ([tag] ++ ([shapeFlag tag] ++ ([padf] ++ r))) from fun _ => rfl, takeBytes_append (n := 1) rfl]
  simp only [except_bind_ok, beq_self_eq_true, requireThat_true]
  rw [takeBytes_append (n := 1) rfl]
  simp only [except_bind_ok, List.headD_cons, ht, requireThat_true]
  rw [takeBytes_append (n := 1) rfl]
  simp only [except_bind_ok, List.headD_cons, f1, f2, requireThat_true]
  rw [takeBytes_append (n := 1) rfl]
  simp only [except_bind_ok, List.headD_cons, hp, decide_true, requireThat_true, parseShape_shapeBytes,
    BitVec.ofNat_toNat, BitVec.setWidth_eq]

theorem takeOne_eq_ok {bs f rest : List Byte} (h : takeBytes 1 bs = .ok (f, rest)) :
    f = [f.headD 0#8] ∧ bs = f.headD 0#8 :: rest := by
  obtain ⟨h1, rfl⟩ := takeBytes_eq_ok h
  obtain ⟨b, rfl⟩ := List.length_eq_one_iff.1 h1
  exact ⟨rfl, rfl⟩

theorem parseHeader_eq_ok {bs rest : List Byte} {hd : Header} (h : parseHeader bs = .ok (hd, rest)) :
    bs = magicBytes ++ [containerVersion, hd.tag, shapeFlag hd.tag, hd.padf] ++
        shapeBytes hd.tag hd.shape0 hd.shape1 hd.shape2 ++ rest ∧
      knownTag hd.tag = true ∧ hd.padf.toNat ≤ 8 ∧
      (hd.tag ≠ tagPixels → hd.shape0 = 0#32 ∧ hd.shape1 = 0#32 ∧ hd.shape2 = 0#32) := by
  unfold parseHeader at h
  obtain ⟨⟨m, b1⟩, hm, h⟩ := except_bind_eq_ok.1 h
  obtain ⟨_, hmv, h⟩ := except_bind_eq_ok.1 h
  obtain ⟨⟨v, b2⟩, hv, h⟩ := except_bind_eq_ok.1 h
  obtain ⟨_, hvv, h⟩ := except_bind_eq_ok.1 h
  obtain ⟨⟨t, b3⟩, ht, h⟩ := except_bind_eq_ok.1 h
  obtain ⟨_, htv, h⟩ := except_bind_eq_ok.1 h
  obtain ⟨⟨f, b4⟩, hf, h⟩ := except_bind_eq_ok.1 h
  obtain ⟨_, hf1, h⟩ := except_bind_eq_ok.1 h
  obtain ⟨_, hf2, h⟩ := except_bind_eq_ok.1 h
  obtain ⟨⟨p, b5⟩, hp, h⟩ := except_bind_eq_ok.1 h
  obtain ⟨_, hpv, h⟩ := except_bind_eq_ok.1 h
  obtain ⟨⟨⟨w, hh, c⟩, b6⟩, hs, h⟩ := except_bind_eq_ok.1 h
  rw [requireThat_eq_ok] at hmv hvv htv hf1 hf2 hpv
  obtain ⟨rfl, rfl⟩ := Prod.mk.inj (Except.ok.inj h)
  obtain ⟨_, rfl⟩ := takeBytes_eq_ok hm
  obtain ⟨hv1, hv2⟩ := takeOne_eq_ok hv
  obtain ⟨ht1, ht2⟩ := takeOne_eq_ok ht
  obtain ⟨hf3, hf4⟩ := takeOne_eq_ok hf
  obtain ⟨hp1, hp2⟩ := takeOne_eq_ok hp
  obtain ⟨hs1, hs2⟩ := parseShape_eq_ok hs
  have hflag := (shapeFlag_iff _ _).1 ⟨hf1, hf2⟩
  have hver : v.headD 0#8 = containerVersion := by
    have := beq_iff_eq.1 hvv
    rw [this]; rfl
  refine ⟨?_, htv, of_decide_eq_true hpv, fun hne => ?_⟩
  · rw [beq_iff_eq.1 hmv, hv2, ht2, hf4, hp2, hs1, hver, hflag]
    simp
  · obtain ⟨rfl, rfl, rfl⟩ := hs2 hne
    exact ⟨rfl, rfl, rfl⟩

/-- What a parsed container satisfies (45_container.md R222 to R226). -/
structure ParsedOk (cfg : Config) (r : Parsed) : Prop where
  known : knownTag r.header.tag = true
  shape : r.header.tag ≠ tagPixels → r.header.shape0 = 0#32 ∧ r.header.shape1 = 0#32 ∧ r.header.shape2 = 0#32
  padf : r.header.padf.toNat ≤ 8
  entries : 1 ≤ r.table.length ∧ r.table.length ≤ cfg.maxK ∧ r.table.length < 2 ^ 32
  readable : ∀ e ∈ r.table, EntryReadable cfg.maxCodeLen r.header.tag e
  distinct : distinctSymbols r.table = true
  apart : prefixFree r.table = true
  payload : 1 ≤ r.payload.length ∧ r.payload.length ≤ cfg.maxPay ∧ r.payload.length < 2 ^ 32
  header : r.payload.headD 0#8 = r.header.padf

theorem parseFields_layout {cfg : Config} {r : Parsed} (h : ParsedOk cfg r) (w hh c : Word)
    (h0 : r.header.shape0 = shapeRead r.header.tag w) (h1 : r.header.shape1 = shapeRead r.header.tag hh)
    (h2 : r.header.shape2 = shapeRead r.header.tag c) (rest : List Byte) :
    parseFields cfg (containerBody r.header.tag w hh c r.table r.payload ++ rest) = .ok (r, rest) := by
  unfold parseFields containerBody
  simp only [h.header, List.append_assoc]
  have := parseHeader_layout h.known h.padf w hh c (beBytes 4 r.table.length ++ (r.table.flatMap entryBytes ++
    (beBytes 4 r.payload.length ++ (r.payload ++ rest))))
  simp only [List.append_assoc] at this
  rw [this]
  simp only [except_bind_ok]
  rw [takeNat_beBytes (n := 4) (by have := h.entries.2.2; omega)]
  have hk := h.entries
  have hp := h.payload
  simp only [except_bind_ok, show decide (r.table.length ≠ 0) = true by simp; intro h'; simp [h'] at hk,
    hk.2.1, decide_true, requireThat_true, parseEntries_entryBytes h.readable, h.distinct, h.apart]
  rw [takeNat_beBytes (n := 4) (by omega)]
  simp only [except_bind_ok, show decide (r.payload.length ≠ 0) = true by simp; intro h'; simp [h'] at hp,
    hp.2.1, decide_true, requireThat_true, takeBytes_append, h.header, beq_self_eq_true, ← h0, ← h1, ← h2]

theorem parseFields_eq_ok {cfg : Config} {r : Parsed} {bs rest : List Byte} (h : parseFields cfg bs = .ok (r, rest)) :
    bs = containerBody r.header.tag r.header.shape0 r.header.shape1 r.header.shape2 r.table r.payload ++ rest ∧
      ParsedOk cfg r := by
  unfold parseFields at h
  obtain ⟨⟨hd, b1⟩, hh, h⟩ := except_bind_eq_ok.1 h
  obtain ⟨⟨k, b2⟩, hk, h⟩ := except_bind_eq_ok.1 h
  obtain ⟨_, hk1, h⟩ := except_bind_eq_ok.1 h
  obtain ⟨_, hk2, h⟩ := except_bind_eq_ok.1 h
  obtain ⟨⟨table, b3⟩, ht, h⟩ := except_bind_eq_ok.1 h
  obtain ⟨_, hd1, h⟩ := except_bind_eq_ok.1 h
  obtain ⟨_, hd2, h⟩ := except_bind_eq_ok.1 h
  obtain ⟨⟨p, b4⟩, hp, h⟩ := except_bind_eq_ok.1 h
  obtain ⟨_, hp1, h⟩ := except_bind_eq_ok.1 h
  obtain ⟨_, hp2, h⟩ := except_bind_eq_ok.1 h
  obtain ⟨⟨pay, b5⟩, hpay, h⟩ := except_bind_eq_ok.1 h
  obtain ⟨_, hpad, h⟩ := except_bind_eq_ok.1 h
  rw [requireThat_eq_ok] at hk1 hk2 hd1 hd2 hp1 hp2 hpad
  rw [decide_eq_true_eq] at hk1 hk2 hp1 hp2
  obtain ⟨rfl, rfl⟩ := Prod.mk.inj (Except.ok.inj h)
  obtain ⟨e1, hknown, hpadf, hshape⟩ := parseHeader_eq_ok hh
  obtain ⟨fk, lk, ek, rfl⟩ := takeNat_eq_ok hk
  obtain ⟨et, lt, hread⟩ := parseEntries_eq_ok ht
  obtain ⟨fp, lp, ep, rfl⟩ := takeNat_eq_ok hp
  obtain ⟨lpay, epay⟩ := takeBytes_eq_ok hpay
  have hkl := beVal_lt fk
  have hpl := beVal_lt fp
  rw [lk] at hkl
  rw [lp] at hpl
  have hpd := beq_iff_eq.1 hpad
  have hl : 1 ≤ table.length ∧ table.length ≤ cfg.maxK ∧ table.length < 2 ^ 32 ∧
      1 ≤ pay.length ∧ pay.length ≤ cfg.maxPay ∧ pay.length < 2 ^ 32 := by omega
  refine ⟨?_, ⟨hknown, hshape, hpadf, ⟨hl.1, hl.2.1, hl.2.2.1⟩, hread, hd1, hd2, hl.2.2.2, hpd⟩⟩
  unfold containerBody
  rw [e1, ek, et, ep, epay, hpd, lt, lpay, ← lk, beBytes_beVal, lk, ← lp, beBytes_beVal]
  simp

/-- A container is accepted exactly if it is the layout of fields that satisfy the conditions, with a right check byte. -/
theorem parseContainer_eq_ok {cfg : Config} {bytes : List Byte} {r : Parsed} (h : parseContainer cfg bytes = .ok r) :
    bytes = withCheckByte
        (containerBody r.header.tag r.header.shape0 r.header.shape1 r.header.shape2 r.table r.payload) ∧
      ParsedOk cfg r := by
  unfold parseContainer at h
  split at h
  · cases h
  · rename_i hc
    obtain ⟨hne, hx⟩ := not_or.1 hc
    rw [not_not] at hx
    obtain ⟨hb, hok⟩ := parseFields_eq_ok (parseBody_eq_ok.1 h)
    rw [List.append_nil] at hb
    refine ⟨?_, hok⟩
    have hsplit := List.dropLast_append_getLast hne
    rw [← hsplit, xorBytes_append, xorBytes_singleton] at hx
    rw [withCheckByte, ← hb, ← hsplit, List.dropLast_concat, BitVec.xor_eq_zero_iff.1 hx]

theorem parseContainer_layout {cfg : Config} {r : Parsed} (h : ParsedOk cfg r) (w hh c : Word)
    (h0 : r.header.shape0 = shapeRead r.header.tag w) (h1 : r.header.shape1 = shapeRead r.header.tag hh)
    (h2 : r.header.shape2 = shapeRead r.header.tag c) :
    parseContainer cfg (withCheckByte (containerBody r.header.tag w hh c r.table r.payload)) = .ok r := by
  unfold parseContainer
  rw [if_neg (by rw [xorBytes_withCheckByte]; simp [withCheckByte]), withCheckByte, List.dropLast_concat, parseBody_eq_ok]
  simpa using parseFields_layout h w hh c h0 h1 h2 []

end Sys2Proof.Machine
end

