-- ==== Sys2Proof/Laws/Frequency.lean ====
section
/-! SUPPORT. The counting pass of COUNT: what the table says of the symbols counted so far. -/

namespace Sys2Proof.Machine

/-- The table `t` is the tally of the symbols `xs`, in order of first occurrence (41_frequency.md R122, R123). -/
structure TallyOf (xs : List Symbol) (t : List FreqEntry) : Prop where
  nodup : (t.map (·.sym)).Nodup
  mem : ∀ x, x ∈ t.map (·.sym) ↔ x ∈ xs
  count : ∀ e ∈ t, e.count.toNat = xs.count e.sym
  order : (t.map (fun e => xs.idxOf e.sym)).Pairwise (· < ·)
  sum : (t.map (fun e => e.count.toNat)).sum = xs.length

theorem TallyOf.nil : TallyOf [] [] := by constructor <;> simp

/-- The table has as many entries as there are distinct symbols. -/
theorem TallyOf.length {xs : List Symbol} {t : List FreqEntry} (h : TallyOf xs t) : t.length = xs.dedup.length := by
  have : (t.map (·.sym)).Perm xs.dedup :=
    (List.perm_ext_iff_of_nodup h.nodup xs.nodup_dedup).2 fun x => by rw [h.mem, List.mem_dedup]
  simpa using this.length_eq

@[simp] theorem bumpCount_sym (t : List FreqEntry) (s : Symbol) :
    (bumpCount t s).map (·.sym) = t.map (·.sym) := by
  unfold bumpCount
  rw [List.map_map]
  refine List.map_congr_left fun e _ => ?_
  show (if e.sym = s then _ else e : FreqEntry).sym = e.sym
  split <;> rfl

theorem idxOf_append_of_mem {xs ys : List Symbol} {x : Symbol} (h : x ∈ xs) : (xs ++ ys).idxOf x = xs.idxOf x :=
  List.idxOf_append_of_mem h

/-- Counting a symbol that the table holds. -/
theorem TallyOf.bump {xs : List Symbol} {t : List FreqEntry} {x : Symbol} (h : TallyOf xs t)
    (hx : x ∈ t.map (·.sym)) (hl : xs.length < 2 ^ 32 - 1) : TallyOf (xs ++ [x]) (bumpCount t x) := by
  have hcount : ∀ e ∈ t, (if e.sym = x then { e with count := e.count + 1#32 } else e : FreqEntry).count.toNat =
      (xs ++ [x]).count e.sym := by
    intro e he
    have hc := h.count e he
    have hle : xs.count e.sym ≤ xs.length := List.count_le_length
    rw [List.count_append]
    split
    · rename_i hs
      subst hs
      rw [BitVec.toNat_add, hc]
      simp only [BitVec.toNat_ofNat, List.count_singleton_self]
      omega
    · rename_i hs
      rw [hc, List.count_singleton, if_neg (by simpa using fun h' => hs h'.symm)]
      rfl
  have hsum : ((bumpCount t x).map (fun e => e.count.toNat)).sum = (xs ++ [x]).length := by
    have key : ∀ l : List FreqEntry, (∀ e ∈ l, e.count.toNat < 2 ^ 32 - 1) → (l.map (·.sym)).Nodup →
        ((bumpCount l x).map (fun e => e.count.toNat)).sum =
          (l.map (fun e => e.count.toNat)).sum + if x ∈ l.map (·.sym) then 1 else 0 := by
      intro l hb hn
      induction l with
      | nil => simp [bumpCount]
      | cons e l ih =>
        rw [List.map_cons, List.nodup_cons] at hn
        have ih' := ih (fun e he => hb e (List.mem_cons_of_mem _ he)) hn.2
        have he := hb e (by simp)
        show (((if e.sym = x then { e with count := e.count + 1#32 } else e : FreqEntry) :: bumpCount l x).map
          (fun e => e.count.toNat)).sum = _
        rw [List.map_cons, List.sum_cons, ih', List.map_cons, List.sum_cons, List.map_cons]
        by_cases hs : e.sym = x
        · have hnot : x ∉ l.map (·.sym) := hs ▸ hn.1
          rw [if_pos hs, if_neg hnot, if_pos (by simp [hs]), BitVec.toNat_add]
          simp only [BitVec.toNat_ofNat]
          omega
        · rw [if_neg hs]
          have : (x ∈ e.sym :: l.map (·.sym)) ↔ x ∈ l.map (·.sym) := by
            rw [List.mem_cons]
            exact ⟨fun h => h.resolve_left fun h' => hs h'.symm, Or.inr⟩
          simp only [this]
          omega
    rw [key t ?_ h.nodup, if_pos hx, h.sum, List.length_append, List.length_singleton]
    intro e he
    rw [h.count e he]
    exact Nat.lt_of_le_of_lt List.count_le_length hl
  refine ⟨by rw [bumpCount_sym]; exact h.nodup, fun y => ?_, ?_, ?_, hsum⟩
  · rw [bumpCount_sym, h.mem, List.mem_append, List.mem_singleton]
    refine ⟨Or.inl, fun hy => hy.elim id fun hy => ?_⟩
    rw [hy, ← h.mem]
    exact hx
  · intro e he
    obtain ⟨d, hd, rfl⟩ := List.mem_map.1 he
    have := hcount d hd
    split
    · rename_i hs
      rw [if_pos hs] at this
      exact this
    · rename_i hs
      rw [if_neg hs] at this
      exact this
  · have hmap : (bumpCount t x).map (fun e => (xs ++ [x]).idxOf e.sym) = t.map (fun e => xs.idxOf e.sym) := by
      have h1 : (bumpCount t x).map (fun e => (xs ++ [x]).idxOf e.sym) =
          ((bumpCount t x).map (·.sym)).map (fun y => (xs ++ [x]).idxOf y) := by rw [List.map_map]; rfl
      rw [h1, bumpCount_sym, List.map_map]
      refine List.map_congr_left fun e he => ?_
      exact idxOf_append_of_mem ((h.mem _).1 (List.mem_map_of_mem he))
    rw [hmap]
    exact h.order

/-- Counting a new symbol. -/
theorem TallyOf.push {xs : List Symbol} {t : List FreqEntry} {x : Symbol} (h : TallyOf xs t)
    (hx : x ∉ t.map (·.sym)) : TallyOf (xs ++ [x]) (t ++ [{ sym := x, count := 1#32 }]) := by
  have hx' : x ∉ xs := fun h' => hx ((h.mem x).2 h')
  refine ⟨?_, fun y => ?_, ?_, ?_, ?_⟩
  · rw [List.map_append, List.map_singleton]
    exact List.nodup_append.2 ⟨h.nodup, by simp, by simpa using hx⟩
  · rw [List.map_append, List.mem_append, h.mem, List.mem_append]
    simp
  · intro e he
    rcases List.mem_append.1 he with he | he
    · have hne : e.sym ≠ x := fun h' => hx (h' ▸ List.mem_map_of_mem he)
      rw [h.count e he, List.count_append, List.count_singleton, if_neg (by simpa using fun h' => hne h'.symm)]
      rfl
    · rw [List.mem_singleton.1 he, List.count_append, List.count_eq_zero_of_not_mem hx']
      simp
  · rw [List.map_append, List.pairwise_append]
    have hmap : t.map (fun e => (xs ++ [x]).idxOf e.sym) = t.map (fun e => xs.idxOf e.sym) :=
      List.map_congr_left fun e he => idxOf_append_of_mem ((h.mem _).1 (List.mem_map_of_mem he))
    rw [hmap]
    refine ⟨h.order, by simp, ?_⟩
    intro a ha b hb
    obtain ⟨e, he, rfl⟩ := List.mem_map.1 ha
    rw [List.map_singleton, List.mem_singleton] at hb
    subst hb
    have h1 : xs.idxOf e.sym < xs.length := List.idxOf_lt_length_iff.2 ((h.mem _).1 (List.mem_map_of_mem he))
    rw [List.idxOf_append_of_notMem hx']
    omega
  · rw [List.map_append, List.sum_append, h.sum, List.length_append]
    simp

/-- What the counting pass gives: the tally of all the symbols, or nothing when there are more than `maxK` distinct ones. -/
theorem countInto_spec {maxK : Nat} {ys : List Symbol} : ∀ {xs : List Symbol} {t : List FreqEntry}, TallyOf xs t →
    t.length ≤ maxK → (xs ++ ys).length < 2 ^ 32 →
    (∃ t', countInto maxK t ys = some t' ∧ TallyOf (xs ++ ys) t' ∧ t'.length ≤ maxK) ∨
    (countInto maxK t ys = none ∧ maxK < (xs ++ ys).dedup.length) := by
  induction ys with
  | nil =>
    intro xs t h hk _
    exact .inl ⟨t, rfl, by simpa using h, hk⟩
  | cons y ys ih =>
    intro xs t h hk hl
    have hassoc : xs ++ y :: ys = (xs ++ [y]) ++ ys := by simp
    have hl' : ((xs ++ [y]) ++ ys).length < 2 ^ 32 := by rw [← hassoc]; exact hl
    have hany : (t.any (fun e => e.sym == y)) = true ↔ y ∈ t.map (·.sym) := by
      rw [List.any_eq_true, List.mem_map]
      simp
    unfold countInto
    rw [hassoc]
    split
    · rename_i hin
      have hlen : xs.length < 2 ^ 32 - 1 := by simp at hl; omega
      refine ih (h.bump (hany.1 hin) hlen) ?_ hl'
      simpa [bumpCount] using hk
    · rename_i hin
      have hnew : y ∉ t.map (·.sym) := fun h' => hin (hany.2 h')
      split
      · rename_i hfull
        refine .inr ⟨rfl, ?_⟩
        have h1 := (h.push hnew).length
        have h2 : (xs ++ [y]).dedup.length ≤ ((xs ++ [y]) ++ ys).dedup.length := by
          refine List.Subperm.length_le (List.Nodup.subperm (List.nodup_dedup _) fun z hz => ?_)
          rw [List.mem_dedup] at hz ⊢
          exact List.mem_append_left _ hz
        simp at h1
        omega
      · rename_i hfull
        refine ih (h.push hnew) ?_ hl'
        simp
        omega

end Sys2Proof.Machine
end

