-- ==== Sys2Proof/Laws/Memory.lean ====
section
/-! SUPPORT. The laws of on-block memory: read after write, frames, and that every operation keeps the canonical form. -/

namespace Sys2Proof.Machine

section
variable {α : Type} [Inhabited α]

@[simp] theorem Mem.read_nil (i : Nat) : Mem.read ([] : Mem α) i = unlisted := rfl

theorem Mem.read_cons (a : Nat) (v : α) (m : Mem α) (i : Nat) :
    Mem.read ((a, v) :: m) i = if i = a then v else Mem.read m i := rfl

theorem Mem.wf_nil : Mem.wf ([] : Mem α) := ⟨List.Pairwise.nil, by simp⟩

theorem Mem.wf_cons {a : Nat} {v : α} {m : Mem α} :
    Mem.wf ((a, v) :: m) ↔ (∀ c ∈ m, a < c.1) ∧ v ≠ unlisted ∧ Mem.wf m := by
  constructor
  · rintro ⟨h1, h2⟩
    rw [List.map_cons, List.pairwise_cons] at h1
    exact ⟨fun c hc => h1.1 _ (List.mem_map_of_mem hc), h2 (a, v) (by simp), h1.2,
      fun c hc => h2 c (List.mem_cons_of_mem _ hc)⟩
  · rintro ⟨h1, h2, h3⟩
    refine ⟨?_, ?_⟩
    · rw [List.map_cons, List.pairwise_cons]
      refine ⟨fun x hx => ?_, h3.1⟩
      obtain ⟨c, hc, rfl⟩ := List.mem_map.1 hx
      exact h1 c hc
    · intro c hc
      rcases List.mem_cons.1 hc with rfl | hc
      · exact h2
      · exact h3.2 c hc

/-- An index below every listed one reads as unlisted. -/
theorem Mem.read_of_lt {m : Mem α} {i : Nat} (h : ∀ c ∈ m, i < c.1) : Mem.read m i = unlisted := by
  induction m with
  | nil => rfl
  | cons c m ih =>
    obtain ⟨a, v⟩ := c
    have ha : i < a := h (a, v) (by simp)
    rw [Mem.read_cons, if_neg (by omega)]
    exact ih fun c hc => h c (List.mem_cons_of_mem _ hc)

@[simp] theorem Mem.slice_length (m : Mem α) (n : Nat) : (m.slice n).length = n := by simp [Mem.slice]

@[simp] theorem Mem.slice_getElem (m : Mem α) (n j : Nat) (h : j < (m.slice n).length) : (m.slice n)[j] = m.read j := by
  simp [Mem.slice]

theorem Mem.mem_slice {m : Mem α} {n : Nat} {x : α} : x ∈ m.slice n ↔ ∃ j < n, m.read j = x := by
  simp [Mem.slice]

theorem MemOk.nil (cap : Nat) : MemOk ([] : Mem α) cap := ⟨Mem.wf_nil, by simp⟩

variable [DecidableEq α]

/-- The cells after a write are the written one and cells from before. -/
theorem Mem.mem_write {m : Mem α} {i : Nat} {v : α} {c : Nat × α} (h : c ∈ Mem.write m i v) : c = (i, v) ∨ c ∈ m := by
  induction m with
  | nil =>
    unfold Mem.write at h
    split at h
    · simp at h
    · exact .inl (by simpa using h)
  | cons d m ih =>
    obtain ⟨a, w⟩ := d
    unfold Mem.write at h
    split at h
    · split at h
      · exact .inr h
      · simpa using h
    · split at h
      · split at h
        · exact .inr (List.mem_cons_of_mem _ h)
        · rcases List.mem_cons.1 h with h | h
          · exact .inl h
          · exact .inr (List.mem_cons_of_mem _ h)
      · rcases List.mem_cons.1 h with h | h
        · exact .inr (by simp [h])
        · rcases ih h with h | h
          · exact .inl h
          · exact .inr (List.mem_cons_of_mem _ h)

/-- A write leaves every other element alone. -/
theorem Mem.read_write_other {m : Mem α} {i j : Nat} {v : α} (h : j ≠ i) :
    Mem.read (Mem.write m i v) j = Mem.read m j := by
  induction m with
  | nil => unfold Mem.write; split <;> simp [Mem.read_cons, h]
  | cons c m ih =>
    obtain ⟨a, w⟩ := c
    unfold Mem.write
    split
    · split <;> simp [Mem.read_cons, h]
    · split
      · rename_i h1 h2
        subst h2
        split <;> simp [Mem.read_cons, h]
      · simp [Mem.read_cons, ih]

/-- A read after a write to the same element gives the value written. -/
theorem Mem.read_write_same {m : Mem α} (hm : m.wf) (i : Nat) (v : α) : Mem.read (Mem.write m i v) i = v := by
  induction m with
  | nil => unfold Mem.write; split <;> simp_all [Mem.read_cons]
  | cons c m ih =>
    obtain ⟨a, w⟩ := c
    obtain ⟨h1, h2, h3⟩ := Mem.wf_cons.1 hm
    unfold Mem.write
    split
    · rename_i hlt
      split
      · rename_i hv
        rw [hv]
        refine Mem.read_of_lt fun c hc => ?_
        rcases List.mem_cons.1 hc with rfl | hc
        · exact hlt
        · exact Nat.lt_trans hlt (h1 c hc)
      · simp [Mem.read_cons]
    · split
      · rename_i _ heq
        subst heq
        split
        · rename_i hv
          rw [hv]
          exact Mem.read_of_lt h1
        · simp [Mem.read_cons]
      · rename_i _ hne
        rw [Mem.read_cons, if_neg hne]
        exact ih h3

theorem Mem.read_write {m : Mem α} (hm : m.wf) (i j : Nat) (v : α) :
    Mem.read (Mem.write m i v) j = if j = i then v else Mem.read m j := by
  split
  · rename_i h
    rw [h, Mem.read_write_same hm]
  · exact Mem.read_write_other ‹_›

/-- A write keeps the canonical form. -/
theorem Mem.wf_write {m : Mem α} (hm : m.wf) (i : Nat) (v : α) : (Mem.write m i v).wf := by
  induction m with
  | nil => unfold Mem.write; split <;> simp_all [Mem.wf]
  | cons c m ih =>
    obtain ⟨a, w⟩ := c
    obtain ⟨h1, h2, h3⟩ := Mem.wf_cons.1 hm
    unfold Mem.write
    split
    · rename_i hlt
      split
      · exact hm
      · refine Mem.wf_cons.2 ⟨fun c hc => ?_, ‹_›, hm⟩
        rcases List.mem_cons.1 hc with rfl | hc
        · exact hlt
        · exact Nat.lt_trans hlt (h1 c hc)
    · split
      · rename_i _ heq
        subst heq
        split
        · exact h3
        · exact Mem.wf_cons.2 ⟨h1, ‹_›, h3⟩
      · rename_i hnlt hne
        refine Mem.wf_cons.2 ⟨fun c hc => ?_, h2, ih h3⟩
        rcases Mem.mem_write hc with rfl | hc
        · show a < i
          omega
        · exact h1 c hc

theorem MemOk.write {m : Mem α} {cap : Nat} (h : MemOk m cap) {i : Nat} (hi : i < cap) (v : α) :
    MemOk (Mem.write m i v) cap := by
  refine ⟨Mem.wf_write h.1 i v, fun c hc => ?_⟩
  rcases Mem.mem_write hc with rfl | hc
  · exact hi
  · exact h.2 c hc

/-! ## A run of writes -/

theorem Mem.wf_writeFrom {m : Mem α} (hm : m.wf) (base : Nat) (xs : List α) : (m.writeFrom base xs).wf := by
  induction xs generalizing m base with
  | nil => exact hm
  | cons x xs ih => exact ih (Mem.wf_write hm base x) (base + 1)

theorem MemOk.writeFrom {m : Mem α} {cap : Nat} (h : MemOk m cap) {base : Nat} {xs : List α}
    (hb : base + xs.length ≤ cap) : MemOk (m.writeFrom base xs) cap := by
  induction xs generalizing m base with
  | nil => exact h
  | cons x xs ih =>
    rw [List.length_cons] at hb
    exact ih (h.write (by omega) x) (by omega)

/-- A run of writes leaves every element outside it alone. -/
theorem Mem.read_writeFrom_outside {m : Mem α} {base : Nat} {xs : List α} {j : Nat}
    (h : j < base ∨ base + xs.length ≤ j) : Mem.read (m.writeFrom base xs) j = Mem.read m j := by
  induction xs generalizing m base with
  | nil => rfl
  | cons x xs ih =>
    rw [List.length_cons] at h
    rw [Mem.writeFrom, ih (by omega), Mem.read_write_other (by omega)]

/-- An element inside a run of writes reads as the value written there. -/
theorem Mem.read_writeFrom_inside {m : Mem α} (hm : m.wf) {base : Nat} {xs : List α} {k : Nat} (h : k < xs.length) :
    Mem.read (m.writeFrom base xs) (base + k) = xs[k] := by
  induction xs generalizing m base k with
  | nil => simp at h
  | cons x xs ih =>
    cases k with
    | zero =>
      rw [Mem.writeFrom, Mem.read_writeFrom_outside (by omega), Nat.add_zero, Mem.read_write_same hm]
      rfl
    | succ k =>
      rw [Mem.writeFrom, show base + (k + 1) = base + 1 + k by omega,
        ih (Mem.wf_write hm base x) (by simpa using h)]
      rfl

/-- The slice that a run of writes from 0 leaves is the list written. -/
theorem Mem.slice_writeFrom {m : Mem α} (hm : m.wf) (xs : List α) : (m.writeFrom 0 xs).slice xs.length = xs := by
  refine List.ext_getElem (by simp) fun j h1 h2 => ?_
  rw [Mem.slice_getElem]
  simpa using Mem.read_writeFrom_inside hm (base := 0) h2

/-! ## A memory from pairs -/

theorem MemOk.ofPairs (cap : Nat) (l : List (Nat × α)) : MemOk (Mem.ofPairs cap l) cap := by
  unfold Mem.ofPairs
  have : ∀ m : Mem α, MemOk m cap →
      MemOk (l.foldl (fun m c => if c.1 < cap then Mem.write m c.1 c.2 else m) m) cap := by
    induction l with
    | nil => exact fun m h => h
    | cons c l ih =>
      intro m h
      refine ih _ ?_
      beta_reduce
      split
      · exact h.write ‹_› _
      · exact h
  exact this [] (MemOk.nil cap)

end

end Sys2Proof.Machine
end

