-- ==== Sys2Proof/Laws/Ops.lean ====
section
/-! SUPPORT. What a stage, a completion and a step can do, said once. -/

namespace Sys2Proof.Machine

/-! ## Stages and completions -/

/-- A stage ends in one of two ways: it fails with its invalidation set applied, or it succeeds and commits. -/
theorem stage_cases {α : Type} (op : Byte) (inv : State → State) (r : Except Reason α) (commit : State → α → State)
    (s : State) :
    (∃ why, r = .error why ∧
      stage op inv r commit s = { state := inv s, failure := some { op := op, why := why } }) ∨
    (∃ a, r = .ok a ∧ stage op inv r commit s = { state := commit (inv s) a, failure := none }) := by
  cases r with
  | error why => exact .inl ⟨why, rfl, rfl⟩
  | ok a => exact .inr ⟨a, rfl, rfl⟩

theorem stage_error {α : Type} {op : Byte} {inv : State → State} {r : Except Reason α} {commit : State → α → State}
    {s : State} {why : Reason} (h : r = .error why) :
    stage op inv r commit s = { state := inv s, failure := some { op := op, why := why } } := by rw [h]; rfl

theorem stage_ok {α : Type} {op : Byte} {inv : State → State} {r : Except Reason α} {commit : State → α → State}
    {s : State} {a : α} (h : r = .ok a) :
    stage op inv r commit s = { state := commit (inv s) a, failure := none } := by rw [h]; rfl

/-- The stage succeeds exactly when its computation does. -/
theorem stage_failure {α : Type} {op : Byte} {inv : State → State} {r : Except Reason α} {commit : State → α → State}
    {s : State} (h : (stage op inv r commit s).failure = none) :
    ∃ a, r = .ok a ∧ (stage op inv r commit s).state = commit (inv s) a := by
  rcases stage_cases op inv r commit s with ⟨why, _, h'⟩ | ⟨a, hr, h'⟩
  · rw [h'] at h; cases h
  · exact ⟨a, hr, by rw [h']⟩

theorem complete_err_false {c : Completion} : (complete c).err = false ↔ c.failure = none := by
  rw [complete_err]; cases c.failure <;> simp

theorem ErrCode.number_pos (c : ErrCode) : 1 ≤ c.number.toNat := by cases c <;> decide

theorem ErrCode.number_le (c : ErrCode) : c.number.toNat ≤ 8 := by cases c <;> decide

theorem ErrCode.number_ne (c : ErrCode) : c.number ≠ 0#4 := by cases c <;> decide

/-- A chain of stages either fails in its first part or runs its second part on the state the first leaves. -/
theorem andThen_cases (c : Completion) (next : State → Completion) :
    (c.failure = none ∧ c.andThen next = next c.state) ∨ (c.failure ≠ none ∧ c.andThen next = c) := by
  unfold Completion.andThen
  cases h : c.failure with
  | none => exact .inl ⟨rfl, rfl⟩
  | some f => exact .inr ⟨by simp, rfl⟩

/-- A property that the first part gives and the second part keeps holds after the chain. -/
theorem andThen_keeps {P : State → Prop} {c : Completion} {next : State → Completion} (h : P c.state)
    (hn : c.failure = none → ∀ s, P s → P (next s).state) : P (c.andThen next).state := by
  rcases andThen_cases c next with ⟨hf, h'⟩ | ⟨_, h'⟩ <;> rw [h']
  · exact hn hf _ h
  · exact h

/-- The completion that a command ends with. -/
def completionOf : Instr → State → Completion
  | .nop, s => { state := s, failure := none }
  | .count, s => runCount s
  | .build, s => runBuild s
  | .pack, s => runPack s
  | .serialize, s => runSerialize s
  | .parse, s => runParse s
  | .unpack, s => runUnpack s
  | .compress, s => runCompress s
  | .decompress, s => runDecompress s
  | .clear, s => { state := s.invalidateFreq.invalidateOut, failure := none }

theorem exec_eq (i : Instr) (s : State) : exec i s = .next (complete (completionOf i s)) := by cases i <;> rfl

/-! ## The step -/

/-- The engine's step: idle, a command, or an illegal word. -/
theorem engineStep_cases (s : State) :
    (s.busy = false ∧ engineStep s = .next s) ∨
    (s.busy = true ∧ ∃ i, decode s.pend = .ok i ∧ engineStep s = .next (complete (completionOf i s))) ∨
    (s.busy = true ∧ (∃ e, decode s.pend = .error e) ∧
      engineStep s = .next (complete
        { state := s, failure := some { op := opField s.pend, why := { code := .illegalCommand, info := 0#32 } } })) := by
  unfold engineStep
  cases hb : s.busy with
  | false => exact .inl ⟨rfl, rfl⟩
  | true =>
    refine .inr ?_
    show _ ∨ _
    simp only [State.fetch, if_true]
    cases hd : decode s.pend with
    | ok i => exact .inl ⟨trivial, i, rfl, exec_eq i s⟩
    | error e => exact .inr ⟨trivial, ⟨e, rfl⟩, rfl⟩

/-- A step is the engine's, a host access, or a reset. -/
theorem step_cases (s : State) :
    (s.input = [] ∧ step s = engineStep s) ∨
    (∃ rest, s.input = .engine :: rest ∧ step s = engineStep { s with input := rest }) ∨
    (∃ a rest, s.input = .host a :: rest ∧ step s = .next (hostStep { s with input := rest } a)) ∨
    (∃ c rest, s.input = .reset c :: rest ∧ step s = .next (resetStep { s with input := rest } c)) := by
  unfold step
  split
  · exact .inl ⟨‹_›, rfl⟩
  · exact .inr (.inl ⟨_, ‹_›, rfl⟩)
  · exact .inr (.inr (.inl ⟨_, _, ‹_›, rfl⟩))
  · exact .inr (.inr (.inr ⟨_, _, ‹_›, rfl⟩))

/-! ## Frames of the stages -/

/-- What no command writes: the host's registers but TAG and SHAPE, SYM, and the model's own fields. -/
structure HostSide (s t : State) : Prop where
  cfg : t.cfg = s.cfg
  ovr : t.ovr = s.ovr
  pend : t.pend = s.pend
  doneEn : t.doneEn = s.doneEn
  nLen : t.nLen = s.nLen
  winSel : t.winSel = s.winSel
  winIdx : t.winIdx = s.winIdx
  sym : t.sym = s.sym
  rdata : t.rdata = s.rdata
  input : t.input = s.input

theorem HostSide.refl (s : State) : HostSide s s := by constructor <;> rfl

theorem HostSide.trans {s t u : State} (h : HostSide s t) (k : HostSide t u) : HostSide s u := by
  constructor
  · exact k.cfg.trans h.cfg
  · exact k.ovr.trans h.ovr
  · exact k.pend.trans h.pend
  · exact k.doneEn.trans h.doneEn
  · exact k.nLen.trans h.nLen
  · exact k.winSel.trans h.winSel
  · exact k.winIdx.trans h.winIdx
  · exact k.sym.trans h.sym
  · exact k.rdata.trans h.rdata
  · exact k.input.trans h.input

theorem HostSide.complete (c : Completion) : HostSide c.state (complete c) := by
  unfold Machine.complete
  cases c.failure <;> constructor <;> rfl

theorem runCount_hostSide (s : State) : HostSide s (runCount s).state := by
  rcases stage_cases (opcode .count) State.invalidateFreq (countResult s) State.commitFreq s with ⟨_, _, h⟩ | ⟨_, _, h⟩ <;>
    rw [runCount, h] <;> constructor <;> rfl

theorem runBuild_hostSide (s : State) : HostSide s (runBuild s).state := by
  rcases stage_cases (opcode .build) State.invalidateCode (buildResult s) State.commitCode s with ⟨_, _, h⟩ | ⟨_, _, h⟩ <;>
    rw [runBuild, h] <;> constructor <;> rfl

theorem runPack_hostSide (s : State) : HostSide s (runPack s).state := by
  rcases stage_cases (opcode .pack) State.invalidatePay (packResult s) commitPack s with ⟨_, _, h⟩ | ⟨_, _, h⟩ <;>
    rw [runPack, h] <;> constructor <;> rfl

theorem runSerialize_hostSide (s : State) : HostSide s (runSerialize s).state := by
  rcases stage_cases (opcode .serialize) State.invalidateCont (serializeResult s) State.commitCont s with
    ⟨_, _, h⟩ | ⟨_, _, h⟩ <;> rw [runSerialize, h] <;> constructor <;> rfl

theorem runParse_hostSide (s : State) : HostSide s (runParse s).state := by
  rcases stage_cases (opcode .parse) State.invalidateFreq (parseResult s) commitParsed s with ⟨_, _, h⟩ | ⟨_, _, h⟩ <;>
    rw [runParse, h] <;> constructor <;> rfl

theorem runUnpack_hostSide (s : State) : HostSide s (runUnpack s).state := by
  rcases stage_cases (opcode .unpack) State.invalidateOut (unpackResult s) State.commitOut s with
    ⟨_, _, h⟩ | ⟨_, _, h⟩ <;> rw [runUnpack, h] <;> constructor <;> rfl

theorem invalidateCont_hostSide (s : State) : HostSide s s.invalidateCont := by constructor <;> rfl

theorem invalidateOut_hostSide (s : State) : HostSide s s.invalidateOut := by constructor <;> rfl

/-- No command writes the host's side of the state. -/
theorem completionOf_hostSide (i : Instr) (s : State) : HostSide s (completionOf i s).state := by
  cases i with
  | nop => exact HostSide.refl s
  | count => exact runCount_hostSide s
  | build => exact runBuild_hostSide s
  | pack => exact runPack_hostSide s
  | serialize => exact runSerialize_hostSide s
  | parse => exact runParse_hostSide s
  | unpack => exact runUnpack_hostSide s
  | clear => constructor <;> rfl
  | compress =>
    refine andThen_keeps (P := HostSide s) (andThen_keeps (P := HostSide s) (andThen_keeps (P := HostSide s) ?_ ?_) ?_) ?_
    · exact (invalidateCont_hostSide s).trans (runCount_hostSide _)
    · exact fun _ t h => h.trans (runBuild_hostSide t)
    · exact fun _ t h => h.trans (runPack_hostSide t)
    · exact fun _ t h => h.trans (runSerialize_hostSide t)
  | decompress =>
    refine andThen_keeps (P := HostSide s) ?_ fun _ t h => h.trans (runUnpack_hostSide t)
    exact (invalidateOut_hostSide s).trans (runParse_hostSide _)

end Sys2Proof.Machine
end

