-- ==== Sys2Proof/Laws/PerInstr.lean ====
section
/-! SUPPORT. Facts of every command as syntax, one lemma per constructor. -/

/-- The word of a command: its OP field is the command's opcode, its RSV field is 0, and the opcode is one of the
assigned ones, 0x00 to 0x08 and 0x0F (30_encoding.md R90 to R92). -/
def Sys2Proof.Laws.Encoding.Statement (i : Sys2Proof.Instr) : Prop :=
  Sys2Proof.opField (Sys2Proof.encode i) = Sys2Proof.opcode i ∧ Sys2Proof.rsvField (Sys2Proof.encode i) = 0#24 ∧
  ((Sys2Proof.opcode i).toNat ≤ 8 ∨ (Sys2Proof.opcode i).toNat = 15) ∧ i.wf = true

theorem Sys2Proof.Laws.Encoding.nop : Sys2Proof.Laws.Encoding.Statement .nop := by
  unfold Sys2Proof.Laws.Encoding.Statement; decide

theorem Sys2Proof.Laws.Encoding.count : Sys2Proof.Laws.Encoding.Statement .count := by
  unfold Sys2Proof.Laws.Encoding.Statement; decide

theorem Sys2Proof.Laws.Encoding.build : Sys2Proof.Laws.Encoding.Statement .build := by
  unfold Sys2Proof.Laws.Encoding.Statement; decide

theorem Sys2Proof.Laws.Encoding.pack : Sys2Proof.Laws.Encoding.Statement .pack := by
  unfold Sys2Proof.Laws.Encoding.Statement; decide

theorem Sys2Proof.Laws.Encoding.serialize : Sys2Proof.Laws.Encoding.Statement .serialize := by
  unfold Sys2Proof.Laws.Encoding.Statement; decide

theorem Sys2Proof.Laws.Encoding.parse : Sys2Proof.Laws.Encoding.Statement .parse := by
  unfold Sys2Proof.Laws.Encoding.Statement; decide

theorem Sys2Proof.Laws.Encoding.unpack : Sys2Proof.Laws.Encoding.Statement .unpack := by
  unfold Sys2Proof.Laws.Encoding.Statement; decide

theorem Sys2Proof.Laws.Encoding.compress : Sys2Proof.Laws.Encoding.Statement .compress := by
  unfold Sys2Proof.Laws.Encoding.Statement; decide

theorem Sys2Proof.Laws.Encoding.decompress : Sys2Proof.Laws.Encoding.Statement .decompress := by
  unfold Sys2Proof.Laws.Encoding.Statement; decide

theorem Sys2Proof.Laws.Encoding.clear : Sys2Proof.Laws.Encoding.Statement .clear := by
  unfold Sys2Proof.Laws.Encoding.Statement; decide
end

