-- ==== Sys2Proof/Laws/TreeBuilder.lean ====
section
/-! SUPPORT. The tree builder: the queue, the reduction loop as one induction principle, and the paths of a tree. -/

namespace Sys2Proof.Machine

/-! ## The queue -/

theorem keyBefore_iff {a b : Tree} :
    keyBefore a b = true ↔ treeFreq a < treeFreq b ∨ (treeFreq a = treeFreq b ∧ treeSeq a < treeSeq b) := by
  simp [keyBefore]

theorem queueInsert_perm (t : Tree) (q : List Tree) : (queueInsert t q).Perm (t :: q) := by
  induction q with
  | nil => exact List.Perm.refl _
  | cons u q ih =>
    unfold queueInsert
    split
    · exact List.Perm.refl _
    · exact (ih.cons u).trans (List.Perm.swap t u q)

@[simp] theorem queueInsert_length (t : Tree) (q : List Tree) : (queueInsert t q).length = q.length + 1 := by
  rw [(queueInsert_perm t q).length_eq, List.length_cons]

/-- The reduction loop as an induction: a property of (next sequence number, queue) that one merge keeps holds of the root
that is left, whose sequence number is the last one given out (42_tree_builder.md R143, R144). -/
theorem reduceQueue_induct {P : Nat → List Tree → Prop}
    (merge : ∀ n a b q, P n (a :: b :: q) → P (n + 1) (queueInsert (mergeNodes n a b) q)) :
    ∀ fuel n q, q ≠ [] → q.length ≤ fuel + 1 → P n q →
      ∃ root, reduceQueue fuel n q = [root] ∧ P (n + (q.length - 1)) [root] := by
  intro fuel
  induction fuel with
  | zero =>
    intro n q hq hl h
    match q, hq with
    | [a], _ => exact ⟨a, rfl, h⟩
    | a :: b :: q, _ => simp at hl
  | succ fuel ih =>
    intro n q hq hl h
    match q, hq with
    | [a], _ => exact ⟨a, rfl, h⟩
    | a :: b :: q, _ =>
      have h' := ih (n + 1) (queueInsert (mergeNodes n a b) q)
        (by rw [← List.length_pos_iff_ne_nil, queueInsert_length]; omega) (by simp at hl ⊢; omega) (merge n a b q h)
      rw [queueInsert_length] at h'
      obtain ⟨root, h1, h2⟩ := h'
      refine ⟨root, h1, ?_⟩
      rw [List.length_cons, List.length_cons, show n + (q.length + 1 + 1 - 1) = n + 1 + (q.length + 1 - 1) by omega]
      exact h2

/-- Inserting the leaves one by one. -/
theorem insertAll_perm (l q : List Tree) : (l.foldl (fun q t => queueInsert t q) q).Perm (l ++ q) := by
  induction l generalizing q with
  | nil => exact List.Perm.refl _
  | cons t l ih =>
    refine (ih _).trans ?_
    refine ((queueInsert_perm t q).append_left l).trans ?_
    exact List.perm_middle

theorem initialQueue_perm (table : List FreqEntry) : (initialQueue table).Perm (leaves table) := by
  simpa [initialQueue] using insertAll_perm (leaves table) []

@[simp] theorem leaves_length (table : List FreqEntry) : (leaves table).length = table.length := by simp [leaves]

@[simp] theorem initialQueue_length (table : List FreqEntry) : (initialQueue table).length = table.length := by
  rw [(initialQueue_perm table).length_eq, leaves_length]

/-! ## The leaves and paths of a tree -/

/-- The sequence numbers of a tree's leaves, left to right. -/
def leafSeqs : Tree → List Nat
  | .leaf _ _ q => [q]
  | .node _ _ l r => leafSeqs l ++ leafSeqs r

theorem leafSeqs_pos (t : Tree) : 1 ≤ (leafSeqs t).length := by
  induction t with
  | leaf => simp [leafSeqs]
  | node f q l r ihl ihr => simp only [leafSeqs, List.length_append]; omega

theorem treePath_isSome {t : Tree} {k : Nat} : (treePath t k).isSome = true ↔ k ∈ leafSeqs t := by
  induction t with
  | leaf s f q =>
    unfold treePath leafSeqs
    split
    · rename_i h; simp [h]
    · rename_i h; simpa using fun h' => h h'.symm
  | node f q l r ihl ihr =>
    unfold treePath
    rw [leafSeqs, List.mem_append, ← ihl, ← ihr]
    cases treePath l k <;> cases treePath r k <;> simp

theorem treePath_of_mem {t : Tree} {k : Nat} (h : k ∈ leafSeqs t) : ∃ p, treePath t k = some p :=
  Option.isSome_iff_exists.1 (treePath_isSome.2 h)

/-- The path to a leaf of the left subtree begins with "0", one to a leaf of the right subtree with "1". -/
theorem treePath_node {f q : Nat} {l r : Tree} {k : Nat} {p : Bits} (h : treePath (.node f q l r) k = some p) :
    (∃ p', treePath l k = some p' ∧ p = false :: p') ∨
    (k ∉ leafSeqs l ∧ ∃ p', treePath r k = some p' ∧ p = true :: p') := by
  unfold treePath at h
  cases hl : treePath l k with
  | some p' =>
    rw [hl] at h
    exact .inl ⟨p', rfl, (Option.some.inj h).symm⟩
  | none =>
    rw [hl] at h
    refine .inr ⟨fun hm => ?_, ?_⟩
    · rw [← treePath_isSome, hl] at hm; cases hm
    · obtain ⟨p', hp', rfl⟩ := Option.map_eq_some_iff.1 h
      exact ⟨p', hp', rfl⟩

/-- A path is shorter than the tree has leaves (42_tree_builder.md R147, R149). -/
theorem treePath_length {t : Tree} {k : Nat} {p : Bits} (h : treePath t k = some p) :
    p.length + 1 ≤ (leafSeqs t).length := by
  induction t generalizing p with
  | leaf s f q =>
    unfold treePath at h
    split at h
    · rw [← Option.some.inj h]; simp [leafSeqs]
    · cases h
  | node f q l r ihl ihr =>
    have hl := leafSeqs_pos l
    have hr := leafSeqs_pos r
    rw [leafSeqs, List.length_append]
    rcases treePath_node h with ⟨p', hp', rfl⟩ | ⟨_, p', hp', rfl⟩
    · have := ihl hp'; rw [List.length_cons]; omega
    · have := ihr hp'; rw [List.length_cons]; omega

/-- No path to a leaf begins another: paths end at leaves (42_tree_builder.md R149). -/
theorem treePath_prefix {t : Tree} {i j : Nat} {p q : Bits} (hi : treePath t i = some p) (hj : treePath t j = some q)
    (h : p <+: q) : i = j := by
  induction t generalizing p q with
  | leaf s f k =>
    unfold treePath at hi hj
    split at hi
    · split at hj
      · omega
      · cases hj
    · cases hi
  | node f k l r ihl ihr =>
    rcases treePath_node hi with ⟨p', hp', rfl⟩ | ⟨_, p', hp', rfl⟩ <;>
      rcases treePath_node hj with ⟨q', hq', rfl⟩ | ⟨_, q', hq', rfl⟩
    · exact ihl hp' hq' (by simpa using h)
    · simp at h
    · simp at h
    · exact ihr hp' hq' (by simpa using h)

/-- Kraft's equality: the leaves of a binary tree divide its root (42_tree_builder.md R149). -/
theorem treePath_kraft {t : Tree} (hn : (leafSeqs t).Nodup) :
    ((leafSeqs t).map (fun k => (1 / 2 : ℚ) ^ ((treePath t k).getD []).length)).sum = 1 := by
  induction t with
  | leaf s f q => simp [leafSeqs, treePath]
  | node f q l r ihl ihr =>
    rw [leafSeqs, List.nodup_append] at hn
    obtain ⟨hl, hr, hd⟩ := hn
    rw [leafSeqs, List.map_append, List.sum_append]
    have h1 : (leafSeqs l).map (fun k => (1 / 2 : ℚ) ^ ((treePath (.node f q l r) k).getD []).length) =
        (leafSeqs l).map (fun k => (1 / 2 : ℚ) ^ ((treePath l k).getD []).length * (1 / 2)) := by
      refine List.map_congr_left fun k hk => ?_
      obtain ⟨p, hp⟩ := treePath_of_mem hk
      simp only [treePath, hp, Option.getD_some, List.length_cons, pow_succ]
    have h2 : (leafSeqs r).map (fun k => (1 / 2 : ℚ) ^ ((treePath (.node f q l r) k).getD []).length) =
        (leafSeqs r).map (fun k => (1 / 2 : ℚ) ^ ((treePath r k).getD []).length * (1 / 2)) := by
      refine List.map_congr_left fun k hk => ?_
      obtain ⟨p, hp⟩ := treePath_of_mem hk
      have hln : treePath l k = none := by
        cases hl' : treePath l k with
        | none => rfl
        | some p' => exact absurd rfl (hd k (treePath_isSome.1 (by rw [hl']; rfl)) k hk)
      simp only [treePath, hp, hln, Option.map_some, Option.getD_some, List.length_cons, pow_succ]
    rw [h1, h2, List.sum_map_mul_right, List.sum_map_mul_right, ihl hl, ihr hr]
    norm_num

/-! ## The tree of a frequency table -/

theorem leaves_leafSeqs (table : List FreqEntry) : (leaves table).flatMap leafSeqs = List.range table.length := by
  have key : ∀ l : List FreqEntry, ∀ n,
      (l.mapIdx (fun k e => Tree.leaf e.sym e.count.toNat (n + k))).flatMap leafSeqs = List.range' n l.length := by
    intro l
    induction l with
    | nil => intro n; rfl
    | cons e l ih =>
      intro n
      rw [List.mapIdx_cons, List.flatMap_cons, List.length_cons, List.range'_succ]
      have := ih (n + 1)
      simp only [show ∀ k, n + 1 + k = n + (k + 1) from fun k => by omega] at this
      rw [this]
      rfl
  have := key table 0
  simp only [Nat.zero_add] at this
  rw [leaves, this, List.range_eq_range']

/-- A property of (next sequence number, queue) that holds of the leaves in any order, and that one merge keeps, holds of
the root of a table's tree. -/
theorem finalQueue_induct {P : Nat → List Tree → Prop} {table : List FreqEntry} (ht : table ≠ [])
    (base : P table.length (initialQueue table))
    (merge : ∀ n a b q, P n (a :: b :: q) → P (n + 1) (queueInsert (mergeNodes n a b) q)) :
    ∃ root, finalQueue table = [root] ∧ P (2 * table.length - 1) [root] := by
  have hl : 1 ≤ table.length := List.length_pos_iff_ne_nil.2 ht
  obtain ⟨root, h1, h2⟩ := reduceQueue_induct merge table.length table.length (initialQueue table)
    (by rw [← List.length_pos_iff_ne_nil, initialQueue_length]; omega) (by rw [initialQueue_length]; omega) base
  refine ⟨root, h1, ?_⟩
  rw [initialQueue_length] at h2
  rwa [show 2 * table.length - 1 = table.length + (table.length - 1) by omega]

/-- The root's leaves are the entries 0 .. K-1, each once. -/
theorem finalQueue_leafSeqs {table : List FreqEntry} (ht : table ≠ []) :
    ∃ root, finalQueue table = [root] ∧ (leafSeqs root).Perm (List.range table.length) := by
  obtain ⟨root, h1, h2⟩ := finalQueue_induct
    (P := fun _ q => (q.flatMap leafSeqs).Perm (List.range table.length)) ht
    (by rw [← leaves_leafSeqs]; exact (initialQueue_perm table).flatMap_right _)
    (fun n a b q h => by
      refine ((queueInsert_perm _ _).flatMap_right _).trans ?_
      rw [List.flatMap_cons, mergeNodes, leafSeqs]
      rwa [List.flatMap_cons, List.flatMap_cons, ← List.append_assoc] at h)
  exact ⟨root, h1, by simpa using h2⟩

/-! ## The codes -/

@[simp] theorem huffmanCodes_single (e : FreqEntry) : huffmanCodes [e] = [[false]] := rfl

theorem huffmanCodes_of_two {table : List FreqEntry} (h : 2 ≤ table.length) :
    huffmanCodes table = treeCodes table.length (finalQueue table) := by
  match table, h with
  | _ :: _ :: _, _ => rfl

/-- For K ≥ 2 the code of entry k is the path from the one root to leaf k (42_tree_builder.md R146). -/
theorem huffmanCodes_paths {table : List FreqEntry} (h : 2 ≤ table.length) :
    ∃ root, finalQueue table = [root] ∧ (leafSeqs root).Perm (List.range table.length) ∧
      (huffmanCodes table).length = table.length ∧
      ∀ k (hk : k < (huffmanCodes table).length), treePath root k = some (huffmanCodes table)[k] := by
  obtain ⟨root, h1, h2⟩ := finalQueue_leafSeqs (table := table) (by rintro rfl; simp at h)
  have he : huffmanCodes table = (List.range table.length).map (fun i => (treePath root i).getD []) := by
    rw [huffmanCodes_of_two h, h1]; rfl
  refine ⟨root, h1, h2, by rw [he]; simp, fun k hk => ?_⟩
  have hk' : k < table.length := by rw [he] at hk; simpa using hk
  obtain ⟨p, hp⟩ := treePath_of_mem (h2.mem_iff.2 (List.mem_range.2 hk'))
  simp [he, hp]

@[simp] theorem huffmanCodes_length (table : List FreqEntry) : (huffmanCodes table).length = table.length := by
  match table with
  | [] => rfl
  | [_] => rfl
  | a :: b :: t =>
    obtain ⟨_, _, _, h, _⟩ := huffmanCodes_paths (table := a :: b :: t) (by simp)
    exact h

/-- Every code has at least one bit, and at most K - 1 bits for K ≥ 2 (42_tree_builder.md R149, 90_conflicts.md C4). -/
theorem huffmanCodes_bounds {table : List FreqEntry} {c : Bits} (hc : c ∈ huffmanCodes table) :
    1 ≤ c.length ∧ c.length ≤ max 1 (table.length - 1) := by
  match table with
  | [] => simp [huffmanCodes, treeCodes, finalQueue, reduceQueue, initialQueue, leaves] at hc
  | [_] => rw [huffmanCodes_single, List.mem_singleton] at hc; subst hc; simp
  | a :: b :: t =>
    obtain ⟨root, _, hp, hl, h⟩ := huffmanCodes_paths (table := a :: b :: t) (by simp)
    obtain ⟨k, hk, rfl⟩ := List.mem_iff_getElem.1 hc
    have hlen := treePath_length (h k hk)
    rw [hp.length_eq, List.length_range] at hlen
    refine ⟨?_, by omega⟩
    have hroot : ∃ f q l r, root = .node f q l r := by
      cases root with
      | leaf s f q =>
        have := hp.length_eq
        simp [leafSeqs] at this
      | node f q l r => exact ⟨f, q, l, r, rfl⟩
    obtain ⟨f, q, l, r, rfl⟩ := hroot
    rcases treePath_node (h k hk) with ⟨p', _, h'⟩ | ⟨_, p', _, h'⟩ <;> rw [h'] <;> simp

/-- No code of a table begins another one's code. -/
theorem huffmanCodes_prefix {table : List FreqEntry} {i j : Nat} (hi : i < (huffmanCodes table).length)
    (hj : j < (huffmanCodes table).length) (h : (huffmanCodes table)[i] <+: (huffmanCodes table)[j]) : i = j := by
  match table with
  | [] => simp at hi
  | [_] => simp at hi hj; omega
  | a :: b :: t =>
    obtain ⟨root, _, _, _, hc⟩ := huffmanCodes_paths (table := a :: b :: t) (by simp)
    exact treePath_prefix (hc i hi) (hc j hj) h

/-- The codes of two and more entries use up the code space. -/
theorem huffmanCodes_kraft {table : List FreqEntry} (h : 2 ≤ table.length) :
    ((huffmanCodes table).map (fun c => (1 / 2 : ℚ) ^ c.length)).sum = 1 := by
  obtain ⟨root, h1, hp, hl, hc⟩ := huffmanCodes_paths h
  have he : huffmanCodes table = (List.range table.length).map (fun i => (treePath root i).getD []) := by
    rw [huffmanCodes_of_two h, h1]; rfl
  rw [he, List.map_map]
  have hn : (leafSeqs root).Nodup := hp.nodup_iff.2 List.nodup_range
  refine Eq.trans ?_ (treePath_kraft hn)
  exact List.Perm.sum_eq
    ((hp.map (fun k => (1 / 2 : ℚ) ^ ((treePath root k).getD []).length)).symm)

end Sys2Proof.Machine
end

