-- ==== Sys2Proof/Laws/Results.lean ====
section
/-! SUPPORT. What it says of the state that a command's computation succeeds, one lemma per command. -/

namespace Sys2Proof.Machine

theorem countResult_eq_ok {s : State} {t : List FreqEntry} (h : countResult s = .ok t) :
    knownTag s.tag = true ∧ s.nLen ≠ 0#32 ∧ s.nLen.toNat ≤ s.cfg.maxN ∧
      (∀ w ∈ s.symbols, validSymbolWord s.tag w = true) ∧ countInto s.cfg.maxK [] (s.symbols.map symbolOf) = some t := by
  unfold countResult at h
  split at h
  · cases h
  · split at h
    · cases h
    · split at h
      · cases h
      · split at h
        · cases h
        · split at h
          · cases h
          · rename_i hk h0 hn _ hv _ _ hc
            rw [List.findIdx?_eq_none_iff] at hv
            rw [← Except.ok.inj h]
            exact ⟨by simpa using hk, h0, by omega, fun w hw => by simpa using hv w hw, hc⟩

theorem buildResult_eq_ok {s : State} {t : List CodeEntry} (h : buildResult s = .ok t) :
    s.fv = true ∧ (∀ c ∈ huffmanCodes s.freqTable, c.length ≤ s.cfg.maxCodeLen) ∧
      t = List.zipWith (fun e c => codeEntry e.sym c) s.freqTable (huffmanCodes s.freqTable) := by
  unfold buildResult at h
  split at h
  · cases h
  · split at h
    · cases h
    · rename_i hf hl
      exact ⟨by simpa using hf, by simpa using hl, (Except.ok.inj h).symm⟩

theorem packResult_eq_ok {s : State} {enc : Bits} (h : packResult s = .ok enc) :
    s.cv = true ∧ s.nLen ≠ 0#32 ∧ s.nLen.toNat ≤ s.cfg.maxN ∧ payloadLength enc.length ≤ s.cfg.maxPay ∧
      translate s.codeTable 0 s.symbols = .ok enc := by
  unfold packResult at h
  split at h
  · cases h
  · split at h
    · cases h
    · split at h
      · cases h
      · split at h
        · cases h
        · split at h
          · cases h
          · rename_i hc h0 hn _ _ ht hp
            rw [← Except.ok.inj h]
            exact ⟨by simpa using hc, h0, by omega, by omega, ht⟩

theorem serializeResult_eq_ok {s : State} {bs : List Byte} (h : serializeResult s = .ok bs) :
    s.cv = true ∧ s.pv = true ∧ knownTag s.tag = true ∧ (∀ e ∈ s.codeTable, validSymbol s.tag e.sym = true) ∧
      (containerOf s).length ≤ s.cfg.maxCont ∧ bs = containerOf s := by
  unfold serializeResult at h
  split at h
  · cases h
  · split at h
    · cases h
    · split at h
      · cases h
      · split at h
        · cases h
        · rename_i hv ht _ hi hl
          rw [List.findIdx?_eq_none_iff] at hi
          simp only [Bool.not_eq_true', Bool.not_eq_false, Bool.and_eq_true] at hv ht
          exact ⟨hv.1, hv.2, ht, fun e he => by simpa using hi e he, by omega, (Except.ok.inj h).symm⟩

theorem parseResult_eq_ok {s : State} {r : Parsed} (h : parseResult s = .ok r) :
    s.contLen.toNat ≤ s.cfg.maxCont ∧ parseContainer s.cfg s.container = .ok r := by
  unfold parseResult at h
  split at h
  · cases h
  · split at h
    · cases h
    · rename_i hl _ _ hp
      rw [← Except.ok.inj h]
      exact ⟨by omega, hp⟩

theorem unpackResult_eq_ok {s : State} {ws : List Word} (h : unpackResult s = .ok ws) :
    s.cv = true ∧ s.pv = true ∧ payloadHeader s.payload ≤ 8 ∧
      payloadHeader s.payload ≤ 8 * (s.payload.length - 1) ∧
      decodeLoop s.codeTable s.cfg.maxN [] [] (encodedBits s.payload) = .ok ws := by
  unfold unpackResult at h
  split at h
  · cases h
  · split at h
    · cases h
    · rename_i hv _ _ hu
      unfold unpackBytes at hu
      split at hu
      · cases hu
      · split at hu
        · cases hu
        · simp only [Bool.not_eq_true', Bool.not_eq_false, Bool.and_eq_true] at hv
          rw [← Except.ok.inj h]
          exact ⟨hv.1, hv.2, by omega, by omega, hu⟩

end Sys2Proof.Machine
end

