-- ==== Sys2Proof/Tests/Slice0.lean ====
section
/-! SUPPORT. The model's own tests, with expected results from the spec's vectors (95_test_vectors.md) and rules, and for
every obligation that has hypotheses a theorem that shows states and operands which meet them. -/

namespace Sys2Proof.Tests

open Sys2Proof Sys2Proof.Machine Sys2Proof.Spec

/-! ## Small states -/

/-- Small capacities, enough for the vectors used here. -/
def cfg : Config := { maxN := 11, maxK := 5, maxCodeLen := 4, maxPay := 16, maxCont := 80 }

/-- Right after reset, with the small capacities. -/
def fresh : State := { State.reset with cfg := cfg }

/-- With a tag and an input. -/
def fed (tag : Byte) (l : List Word) : State :=
  { fresh with tag := tag, sym := Mem.writeFrom [] 0 l, nLen := BitVec.ofNat 32 l.length }

/-- With a committed frequency table. -/
def counted (t : List (Symbol × Word)) : State :=
  { fresh with
    freq := Mem.writeFrom [] 0 (t.map (fun e => { sym := e.1, count := e.2 })), kCnt := BitVec.ofNat 32 t.length
    fv := true }

/-- A code entry from its three fields. -/
def entry (x : Symbol) (len : Nat) (val : Nat) : CodeEntry :=
  { sym := x, len := BitVec.ofNat 7 len, val := BitVec.ofNat 64 val }

/-- With a committed code table and payload, as PARSE leaves them. -/
def coded (t : List CodeEntry) (p : List Byte) : State :=
  { fresh with
    code := Mem.writeFrom [] 0 t, kCnt := BitVec.ofNat 32 t.length, cv := true
    pay := Mem.writeFrom [] 0 p, payLen := BitVec.ofNat 32 p.length, pad := p.headD 0#8, pv := true }

/-- With a container. -/
def holding (l : List Byte) : State :=
  { fresh with cont := Mem.writeFrom [] 0 l, contLen := BitVec.ofNat 32 l.length }

/-- The next state of a command. -/
def after (i : Instr) (s : State) : State :=
  match exec i s with
  | .next t => t
  | .fault _ => s
  | .refused _ => s

/-- The next state of a step. -/
def stepped (s : State) : State :=
  match step s with
  | .next t => t
  | .fault _ => s
  | .refused _ => s

theorem exec_after (i : Instr) (s : State) : exec i s = .next (after i s) := by cases i <;> rfl

/-- The code table of "abc" (vector B4). -/
def abcCode : List CodeEntry := [entry 0x61#24 2 2, entry 0x62#24 2 3, entry 0x63#24 1 0]

/-- The code table of "aabb" (vector B3). -/
def abCode : List CodeEntry := [entry 0x61#24 1 0, entry 0x62#24 1 1]

/-- The container of vector S5, "abc". -/
def abcContainer : List Byte :=
  [0x48#8, 0x55#8, 0x46#8, 0x5A#8, 0x01#8, 0x00#8, 0x00#8, 0x03#8, 0x00#8, 0x00#8, 0x00#8, 0x03#8, 0x00#8, 0x00#8, 0x61#8,
   0x02#8, 0x80#8] ++
  [0x00#8, 0x00#8, 0x62#8, 0x02#8, 0xC0#8, 0x00#8, 0x00#8, 0x63#8, 0x01#8, 0x00#8, 0x00#8, 0x00#8, 0x00#8, 0x02#8, 0x03#8,
   0xB0#8, 0x90#8]

/-- The container of vector S3, two pixels of shape (1, 2, 3). -/
def pixelContainer : List Byte :=
  [0x48#8, 0x55#8, 0x46#8, 0x5A#8, 0x01#8, 0x01#8, 0x01#8, 0x06#8, 0x00#8, 0x00#8, 0x00#8, 0x01#8, 0x00#8, 0x00#8, 0x00#8,
   0x02#8, 0x00#8, 0x00#8] ++
  [0x00#8, 0x03#8, 0x00#8, 0x00#8, 0x00#8, 0x01#8, 0x0A#8, 0x0A#8, 0x0A#8, 0x01#8, 0x00#8, 0x00#8, 0x00#8, 0x00#8, 0x02#8,
   0x06#8, 0x00#8, 0x08#8]

/-- After COMPRESS and DECOMPRESS of "abc", but with FREQ valid: everything is there. -/
def abcState : State :=
  { coded abcCode [0x03#8, 0xB0#8] with
    sym := Mem.writeFrom [] 0 [0x61#32, 0x62#32, 0x63#32], nLen := 3#32
    freq := Mem.writeFrom [] 0
      [{ sym := 0x61#24, count := 1#32 }, { sym := 0x62#24, count := 1#32 }, { sym := 0x63#24, count := 1#32 }]
    fv := true, encBits := 5#32, cont := Mem.writeFrom [] 0 abcContainer, contLen := 34#32
    out := Mem.writeFrom [] 0 [0x61#32, 0x62#32, 0x63#32], outLen := 3#32, ov := true, done := true, donePend := true }

theorem abcState_dataOk : DataOk abcState where
  cfg := by decide
  memories := ⟨by decide, by decide, by decide, by decide, by decide, by decide⟩
  tables := ⟨by decide, fun _ => ⟨by decide, by decide, by decide⟩, fun _ => ⟨by decide, by decide, by decide⟩, by decide⟩
  payload := ⟨by decide, by decide⟩
  output := ⟨fun _ => ⟨by decide, List.all_eq_true.mp (by decide : abcState.decoded.all wellFormedSymbolWord = true)⟩,
    by decide⟩

theorem abcState_inv : Inv abcState := ⟨abcState_dataOk, ⟨by decide, by decide, by decide, by decide, by decide⟩⟩

theorem fresh_dataOk : DataOk fresh where
  cfg := by decide
  memories := ⟨by decide, by decide, by decide, by decide, by decide, by decide⟩
  tables := ⟨by decide, by simp [fresh, State.reset], by simp [fresh, State.reset], by decide⟩
  payload := ⟨by decide, by decide⟩
  output := ⟨by simp [fresh, State.reset], by decide⟩

/-! ## Well-formedness: each constraint of 00_scope.md R7 refuses -/

theorem test_wf_example : Config.example.wf = true := by decide
theorem test_wf_smallest :
    Config.wf { maxN := 1, maxK := 1, maxCodeLen := 1, maxPay := 2, maxCont := 1 } = true := by decide
theorem test_wf_largest :
    Config.wf { maxN := 4294967295, maxK := 16777216, maxCodeLen := 64, maxPay := 536870911, maxCont := 4294967295 } = true :=
  by decide
theorem test_wf_refuses_no_symbols : Config.wf { Config.example with maxN := 0 } = false := by decide
theorem test_wf_refuses_too_many_symbols : Config.wf { Config.example with maxN := 4294967296 } = false := by decide
theorem test_wf_refuses_no_entries : Config.wf { Config.example with maxK := 0 } = false := by decide
theorem test_wf_refuses_too_many_entries : Config.wf { Config.example with maxK := 16777217 } = false := by decide
theorem test_wf_refuses_no_code_length : Config.wf { Config.example with maxCodeLen := 0 } = false := by decide
theorem test_wf_refuses_long_codes : Config.wf { Config.example with maxCodeLen := 65 } = false := by decide
theorem test_wf_refuses_short_payload : Config.wf { Config.example with maxPay := 1 } = false := by decide
theorem test_wf_refuses_long_payload : Config.wf { Config.example with maxPay := 536870912 } = false := by decide
theorem test_wf_refuses_no_container : Config.wf { Config.example with maxCont := 0 } = false := by decide
theorem test_wf_refuses_long_container : Config.wf { Config.example with maxCont := 4294967296 } = false := by decide

/-! ## Decoding: words written bit by bit from 30_encoding.md R90, R91 -/

theorem test_decode_nop : decode 0b00000000000000000000000000000000#32 = .ok .nop := by decide
theorem test_decode_count : decode 0b00000000000000000000000000000001#32 = .ok .count := by decide
theorem test_decode_build : decode 0b00000000000000000000000000000010#32 = .ok .build := by decide
theorem test_decode_pack : decode 0b00000000000000000000000000000011#32 = .ok .pack := by decide
theorem test_decode_serialize : decode 0b00000000000000000000000000000100#32 = .ok .serialize := by decide
theorem test_decode_parse : decode 0b00000000000000000000000000000101#32 = .ok .parse := by decide
theorem test_decode_unpack : decode 0b00000000000000000000000000000110#32 = .ok .unpack := by decide
theorem test_decode_compress : decode 0b00000000000000000000000000000111#32 = .ok .compress := by decide
theorem test_decode_decompress : decode 0b00000000000000000000000000001000#32 = .ok .decompress := by decide
theorem test_decode_clear : decode 0b00000000000000000000000000001111#32 = .ok .clear := by decide

/-- The words of vectors K6 to K12. -/
theorem test_decode_rejects :
    decode 0x00000042#32 = .error .unassignedOpcode ∧ decode 0x00000009#32 = .error .unassignedOpcode ∧
    decode 0x0000000E#32 = .error .unassignedOpcode ∧ decode 0x00000010#32 = .error .unassignedOpcode ∧
    decode 0x00000101#32 = .error .reservedBits ∧ decode 0xFFFFFFFF#32 = .error .reservedBits ∧
    decode 0x80000007#32 = .error .reservedBits := by decide

theorem test_table_word : decodeTableWord 32 0x0000000F = some .clear ∧ decodeTableWord 8 7 = some .compress := by decide
theorem test_table_word_too_wide : decodeTableWord 40 0x0100000001 = none := by decide

/-! ## One command, one step -/

/-- Vector K1. -/
theorem test_nop : (stepped (fresh.withFetchWord 32 0)).statusWord = 0x00000002#32 := by decide

/-- Vector C1: "abracadabra". -/
theorem test_count :
    (after .count (fed 0x00#8 [0x61#32, 0x62#32, 0x72#32, 0x61#32, 0x63#32, 0x61#32, 0x64#32, 0x61#32, 0x62#32, 0x72#32,
      0x61#32])).freqTable.map (fun e => (e.sym, e.count)) =
    [(0x61#24, 5#32), (0x62#24, 2#32), (0x72#24, 2#32), (0x63#24, 1#32), (0x64#24, 1#32)] := by decide

/-- The frequency table that the statements compute from the input is that of vector C1. -/
theorem test_input_table :
    (inputTable (fed 0x00#8 [0x61#32, 0x62#32, 0x72#32, 0x61#32, 0x63#32, 0x61#32, 0x64#32, 0x61#32, 0x62#32, 0x72#32,
      0x61#32])).map (fun e => (e.sym, e.count)) =
    [(0x61#24, 5#32), (0x62#24, 2#32), (0x72#24, 2#32), (0x63#24, 1#32), (0x64#24, 1#32)] := by decide

/-- Vector C8: bits 31:24 set in word 1. -/
theorem test_count_invalid : (after .count (fed 0x00#8 [0x61#32, 0x01000061#32])).statusWord = 0x00010506#32 ∧
    (after .count (fed 0x00#8 [0x61#32, 0x01000061#32])).errInfo = 1#32 := by decide

/-- Vector B1: "abracadabra". -/
theorem test_build :
    (after .build (counted [(0x61#24, 5#32), (0x62#24, 2#32), (0x72#24, 2#32), (0x63#24, 1#32), (0x64#24, 1#32)])).codeTable
      = [entry 0x61#24 1 0, entry 0x62#24 3 6, entry 0x72#24 3 7, entry 0x63#24 3 4, entry 0x64#24 3 5] := by decide

/-- Vector B4: a leaf beats a merged node of equal frequency. -/
theorem test_build_tie : (after .build (counted [(0x61#24, 1#32), (0x62#24, 1#32), (0x63#24, 1#32)])).codeTable = abcCode := by
  decide

/-- Vector P4. -/
theorem test_pack : (after .pack abcState).payload = [0x03#8, 0xB0#8] ∧ (after .pack abcState).pad = 3#8 ∧
    (after .pack abcState).encBits = 5#32 := by decide

/-- Vector P9: the second symbol has no code. -/
theorem test_pack_unencodable :
    (after .pack { abcState with sym := Mem.writeFrom [] 0 [0x61#32, 0x7A#32, 0x63#32] }).statusWord = 0x0B030206#32 ∧
    (after .pack { abcState with sym := Mem.writeFrom [] 0 [0x61#32, 0x7A#32, 0x63#32] }).errInfo = 1#32 := by decide

/-- Vector S5. -/
theorem test_serialize : containerOf abcState = abcContainer := by decide

/-- Vector S12: CONT_LEN becomes 0. -/
theorem test_serialize_format : (after .serialize { abcState with tag := 0x02#8 }).statusWord = 0x0F040406#32 ∧
    (after .serialize { abcState with tag := 0x02#8 }).contLen = 0#32 := by decide

/-- Vector S5 read back. -/
theorem test_parse : (after .parse (holding abcContainer)).codeTable = abcCode ∧
    (after .parse (holding abcContainer)).payload = [0x03#8, 0xB0#8] := by decide

/-- Vector S3 read back: tag and shape. -/
theorem test_parse_pixels : (after .parse (holding pixelContainer)).tag = 0x01#8 ∧
    (after .parse (holding pixelContainer)).shape1 = 2#32 ∧ (after .parse (holding pixelContainer)).shape2 = 3#32 := by decide

/-- Vector U3: nonzero filler bits are ignored. -/
theorem test_unpack : (after .unpack (coded abCode [0x04#8, 0x3F#8])).decoded = [0x61#32, 0x61#32, 0x62#32, 0x62#32] := by
  decide

/-- Vector U10: a proper beginning of a code is left over. -/
theorem test_unpack_left_over : (after .unpack (coded abcCode [0x07#8, 0x80#8])).statusWord = 0x06060306#32 := by decide

/-- Vectors C1, B4, P4, S5 in one command: K_CNT, PAD, ENC_BITS, CONT_LEN. -/
theorem test_compress : (after .compress (fed 0x00#8 [0x61#32, 0x62#32, 0x63#32])).statusWord = 0x07000002#32 ∧
    (after .compress (fed 0x00#8 [0x61#32, 0x62#32, 0x63#32])).encBits = 5#32 := by decide

/-- Vector M3. -/
theorem test_compress_format : (after .compress (fed 0x02#8 [0x61#32, 0x62#32])).statusWord = 0x00010406#32 := by decide

/-- Vector M8, for "abc". -/
theorem test_decompress : (after .decompress (holding abcContainer)).decoded = [0x61#32, 0x62#32, 0x63#32] := by decide

/-- Vector M11: from reset. -/
theorem test_decompress_reset : (after .decompress fresh).statusWord = 0x00050306#32 := by decide

/-- Vector K3: CONT_LEN stays. -/
theorem test_clear : (after .clear abcState).statusWord = 0x00000002#32 ∧ (after .clear abcState).contLen = 34#32 := by decide

/-- Vectors K6 and K12. -/
theorem test_illegal : (stepped (fresh.withFetchWord 32 0x42)).statusWord = 0x00420806#32 ∧
    (stepped (fresh.withFetchWord 32 0x80000007)).statusWord = 0x00070806#32 := by decide

/-! ## The bus -/

/-- Vector K14: BUSY while pending, the valid bits as before. -/
theorem test_pending : (hostStep abcState (.write 0x020#12 1#32)).statusWord = 0x0F000001#32 := by decide

/-- Vectors A1, A4, A5: offsets. -/
theorem test_offsets : (hostStep fresh (.read 0x000#12)).rdata = 0x4855465A#32 ∧
    (hostStep fresh (.read 0x03C#12)).rdata = 0#32 ∧ (hostStep fresh (.write 0x042#12 1#32)).tag = 1#8 := by decide

/-- Vector A8: the index wraps and nothing is stored. -/
theorem test_window_wrap :
    (hostStep { fresh with winSel := 4#3, winIdx := 0xFFFFFFFF#32 } (.write 0x088#12 0x1AB#32)).winIdx = 0#32 ∧
    (hostStep { fresh with winSel := 4#3, winIdx := 0xFFFFFFFF#32 } (.write 0x088#12 0x1AB#32)).cont = [] := by decide

/-- Vector A9: a byte store takes bits 7:0. -/
theorem test_window_byte : (hostStep { fresh with winSel := 4#3 } (.write 0x088#12 0x1AB#32)).cont.read 0 = 0xAB#8 := by
  decide

/-- Vector A20: the CODE view's length word. -/
theorem test_window_code :
    (hostStep { abcState with winSel := 2#3, winIdx := 5#32 } (.read 0x088#12)).rdata = 2#32 := by decide

/-- Vector A15: a dropped write. -/
theorem test_overrun : (hostStep { abcState with busy := true } (.write 0x044#12 5#32)).ovr = true ∧
    (hostStep { abcState with busy := true } (.write 0x044#12 5#32)).nLen = 3#32 := by decide

/-! ## Memory -/

theorem test_memory_removes_the_default : Mem.write [(3, 7#8)] 3 0#8 = [] := by decide
theorem test_memory_sorts : Mem.write [(3, 7#8), (5, 1#8)] 4 2#8 = [(3, 7#8), (4, 2#8), (5, 1#8)] := by decide
theorem test_reset_memory_wf : State.reset.sym.wf ∧ State.reset.cont.wf ∧ State.reset.freq.wf ∧ State.reset.code.wf ∧
    State.reset.pay.wf ∧ State.reset.out.wf :=
  ⟨Mem.wf_nil, Mem.wf_nil, Mem.wf_nil, Mem.wf_nil, Mem.wf_nil, Mem.wf_nil⟩

/-! ## Witnesses: the command words and the step -/

/-- A pending command: `w` accepted, the schedule as given. -/
def pendingWith (w : Word) (es : List Event) : State := { abcState.accept w with input := es }

/-- A reset with nothing in the memories. -/
def noContents : Contents := { sym := [], freq := [], code := [], pay := [], cont := [], out := [] }

theorem witness_DecodeInvertsEncode : Instr.wf .nop = true ∧ Instr.wf .clear = true := by decide

theorem witness_IllegalWordsCompleteWithIllegalCommand :
    ((0x00000101#32).extractLsb' 8 24 ≠ 0#24 ∧ (0x80000007#32).extractLsb' 8 24 ≠ 0#24) ∧
    (∀ n ∈ [0x09, 0x0E], 0x09 ≤ ((BitVec.ofNat 32 n).extractLsb' 0 8).toNat ∧
      ((BitVec.ofNat 32 n).extractLsb' 0 8).toNat ≤ 0x0E) ∧
    (∀ n ∈ [0x10, 0xFF], 0x10 ≤ ((BitVec.ofNat 32 n).extractLsb' 0 8).toNat) ∧
    abcState.busy = false ∧
    (∀ w, (pendingWith w [.engine]).busy = true ∧ (pendingWith w [.engine]).pend = w ∧
      (pendingWith w [.engine]).input = .engine :: []) :=
  ⟨by decide, by decide, by decide, rfl, fun _ => ⟨rfl, rfl, rfl⟩⟩

theorem witness_StepRunsDecodedCommand :
    (∀ i : Instr, (pendingWith (encode i) []).busy = true ∧ decode (pendingWith (encode i) []).pend = .ok i ∧
      (pendingWith (encode i) []).input = [] ∧ (pendingWith (encode i) [.engine]).input = .engine :: []) ∧
    (pendingWith 0#32 [.host (.read 0#12)]).input = .host (.read 0#12) :: [] ∧
    (pendingWith 0#32 [.reset noContents]).input = .reset noContents :: [] ∧
    abcState.busy = false ∧ abcState.input = [] ∧ (∃ t : State, t.busy = false ∧ t.input = .engine :: []) :=
  ⟨fun i => by cases i <;> decide, rfl, rfl, rfl, rfl, ⟨{ abcState with input := [.engine] }, rfl, rfl⟩⟩

theorem witness_BusyAndDoneFollowTheCommand :
    (∃ t, step { abcState with input := [.host (.write 0x020#12 1#32)] } = .next t ∧ abcState.busy = false ∧
      t.busy = true ∧ t.done ≠ abcState.done) ∧
    (∃ t, step (pendingWith 1#32 []) = .next t ∧ (pendingWith 1#32 []).busy = true ∧ t.busy = false) ∧
    (∃ t, step (pendingWith 1#32 [.host (.read 0x024#12)]) = .next t ∧ t.busy = true) :=
  ⟨⟨_, rfl, rfl, rfl, by decide⟩, ⟨_, rfl, rfl, rfl⟩, ⟨_, rfl, rfl⟩⟩

theorem witness_OverrunIsStickyAndDropsTheWrite :
    (∃ t, step (pendingWith 1#32 [.host (.write 0x088#12 1#32)]) = .next t ∧
      aligned 0x088#12 ∈ lockedOffsets ∧ t.ovr = true) ∧
    (∃ t, step (pendingWith 1#32 [.host (.write 0x024#12 8#32)]) = .next t ∧ aligned 0x024#12 = 0x024#12) ∧
    (∃ t, step (pendingWith 1#32 [.host (.write 0x028#12 8#32)]) = .next t ∧ aligned 0x028#12 ≠ 0x024#12 ∧
      aligned 0x028#12 ∉ lockedOffsets) ∧
    (∃ t, step { abcState with input := [.host (.write 0x020#12 8#32)] } = .next t ∧ aligned 0x020#12 ≠ 0x024#12 ∧
      abcState.busy = false) ∧
    (∃ t, step (pendingWith 1#32 [.reset noContents]) = .next t) ∧ ∃ t, step (pendingWith 1#32 []) = .next t :=
  ⟨⟨_, rfl, by decide, rfl⟩, ⟨_, rfl, by decide⟩, ⟨_, rfl, by decide⟩, ⟨_, rfl, by decide⟩, ⟨_, rfl⟩, ⟨_, rfl⟩⟩

theorem witness_IrqStaysUntilTheHostClearsIt :
    (∃ t, exec .nop abcState = .next t) ∧ (1#32).getLsbD 0 = true ∧
    (∃ t, step { abcState with doneEn := true, input := [.host (.write 0x02C#12 1#32)] } = .next t ∧
      { abcState with doneEn := true }.irq = true ∧ t.irq = false) ∧
    (∃ t, step { abcState with doneEn := true, input := [.host (.write 0x028#12 0#32)] } = .next t ∧ t.irq = false) ∧
    (∃ t, step { abcState with doneEn := true, input := [.reset noContents] } = .next t ∧ t.irq = false) :=
  ⟨⟨_, rfl⟩, by decide, ⟨_, rfl, by decide⟩, ⟨_, rfl, by decide⟩, ⟨_, rfl, by decide⟩⟩

/-! ## Witnesses: reset and the bus -/

theorem witness_ResetClearsEveryRegister :
    (pendingWith 1#32 [.reset noContents]).input = .reset noContents :: [] ∧
    ∀ off ∈ [0x020#12, 0x084#12], off ∈ registerOffsets ∧
      off ∉ [0x000#12, 0x004#12, 0x008#12, 0x00C#12, 0x010#12, 0x014#12, 0x018#12, 0x088#12] :=
  ⟨rfl, by simp [registerOffsets]⟩

theorem witness_ResetAdmitsAnyMemoryContents : 0 < fresh.cfg.maxN ∧ 79 < fresh.cfg.maxCont := by decide

theorem witness_IdentityAndCapacityRegistersAreConstant : abcState.cfg.wf = true := by decide

theorem witness_ReservedSpaceReadsZeroAndIgnoresWrites :
    (0x040#12).extractLsb' 2 10 = (0x043#12).extractLsb' 2 10 ∧ aligned 0x01C#12 ∉ registerOffsets ∧
    aligned 0xFFF#12 ∉ registerOffsets ∧ aligned 0x000#12 ∈ readOnlyOffsets ∧ aligned 0x073#12 ∈ readOnlyOffsets := by
  decide

theorem witness_CommandRegisterAcceptsOneWord : abcState.busy = false ∧ (pendingWith 1#32 []).busy = true := ⟨rfl, rfl⟩

theorem witness_RegistersHoldTheirFields : abcState.busy = false := rfl

theorem witness_OnlyWindowReadsHaveASideEffect :
    aligned 0x08B#12 = 0x088#12 ∧ abcState.busy = false ∧ (pendingWith 1#32 []).busy = true ∧
    aligned 0x084#12 ≠ 0x088#12 ∧ aligned 0x08C#12 ≠ 0x088#12 := by decide

theorem witness_WindowWriteStoresOneElement :
    DataOk abcState ∧ abcState.busy = false ∧ DataOk { abcState with busy := true } :=
  ⟨abcState_dataOk, rfl, ⟨abcState_dataOk.cfg, ⟨abcState_dataOk.memories.sym, abcState_dataOk.memories.freq,
    abcState_dataOk.memories.code, abcState_dataOk.memories.pay, abcState_dataOk.memories.cont,
    abcState_dataOk.memories.out⟩, ⟨abcState_dataOk.tables.kCnt, abcState_dataOk.tables.freq, abcState_dataOk.tables.code,
    abcState_dataOk.tables.same⟩, ⟨abcState_dataOk.payload.valid, abcState_dataOk.payload.absent⟩,
    ⟨abcState_dataOk.output.valid, abcState_dataOk.output.absent⟩⟩⟩

/-- The window of `abcState` at an index. -/
def windowAt (sel : BitVec 3) (j : Word) : State := { abcState with winSel := sel, winIdx := j }

theorem witness_WindowReadsAreMaskedByTheValidBits :
    (∀ sel j, (windowAt sel j).busy = false ∧ (windowAt sel j).winSel = sel ∧ (windowAt sel j).winIdx = j) ∧
    ((windowAt 1#3 4#32).fv = true ∧ 4 / 2 < abcState.kCnt.toNat ∧ 4 % 2 = 0 ∧ 5 / 2 < abcState.kCnt.toNat ∧ 5 % 2 = 1 ∧
      abcState.kCnt.toNat ≤ 6 / 2 ∧ fresh.fv = false) ∧
    ((windowAt 2#3 8#32).cv = true ∧ 8 / 4 < abcState.kCnt.toNat ∧ 8 % 4 = 0 ∧ 11 / 4 < abcState.kCnt.toNat ∧
      9 % 4 = 1 ∧ 10 % 4 = 2 ∧ 11 % 4 = 3 ∧ abcState.kCnt.toNat ≤ 12 / 4 ∧ fresh.cv = false) :=
  ⟨fun _ _ => ⟨rfl, rfl, rfl⟩, by decide, by decide⟩

theorem dataOk_with_input (es : List Event) : DataOk { fresh with input := es } :=
  ⟨fresh_dataOk.cfg, ⟨fresh_dataOk.memories.sym, fresh_dataOk.memories.freq, fresh_dataOk.memories.code,
    fresh_dataOk.memories.pay, fresh_dataOk.memories.cont, fresh_dataOk.memories.out⟩,
    ⟨fresh_dataOk.tables.kCnt, fresh_dataOk.tables.freq, fresh_dataOk.tables.code, fresh_dataOk.tables.same⟩,
    ⟨fresh_dataOk.payload.valid, fresh_dataOk.payload.absent⟩, ⟨fresh_dataOk.output.valid, fresh_dataOk.output.absent⟩⟩

theorem witness_LoadSymFillsTheInput :
    ∀ l ∈ [[], List.replicate 11 0xFFFFFFFF#32], DataOk { fresh with input := loadSym l ++ [.engine] } ∧
      fresh.busy = false ∧ l.length ≤ fresh.cfg.maxN ∧
      ({ fresh with input := loadSym l ++ [.engine] } : State).input = loadSym l ++ [.engine] :=
  fun l h => ⟨dataOk_with_input _, rfl, by simp at h; rcases h with h | h <;> subst h <;> decide, rfl⟩

/-! ## Witnesses: commands as a whole -/

theorem witness_CommandsWriteOnlyTheirSets :
    abcState.cfg.wf = true ∧ ∀ i : Instr, ∃ t, exec i abcState = .next t := ⟨by decide, fun i => ⟨_, exec_after i _⟩⟩

theorem witness_FailedCommandsCommitNothing :
    ∀ i ∈ [Instr.build, .pack, .serialize, .unpack, .count, .parse],
      i ∉ [Instr.compress, .decompress] ∧ exec i fresh = .next (after i fresh) ∧ (after i fresh).err = true := by
  intro i h
  simp at h
  rcases h with h | h | h | h | h | h <;> subst h <;> exact ⟨by decide, rfl, by decide⟩

theorem witness_PendingCommandSeesTheAcceptedState : (pendingWith 1#32 []).busy = true := rfl

theorem witness_CompletionTimeDoesNotMatter : (pendingWith 1#32 []).busy = true := rfl

theorem witness_SymbolsBeyondTheInputAreNotRead :
    ∀ i ∈ [Instr.count, .pack, .compress], i ∈ [Instr.count, .pack, .compress] ∧
      (∀ j, j < abcState.nLen.toNat → j < abcState.cfg.maxN →
        (Mem.write abcState.sym 10 9#32).read j = abcState.sym.read j) ∧
      exec i abcState = .next (after i abcState) :=
  fun i h => ⟨h, by decide, exec_after i _⟩

/-! ## Witnesses: COUNT -/

theorem abcState_valid : ∀ i < abcState.nLen.toNat, validAt abcState i := by
  intro i h
  have h3 : i < 3 := h
  interval_cases i <;> exact ⟨by decide, fun _ => by decide⟩

theorem witness_CountBuildsTheFrequencyTable :
    DataOk abcState ∧ tagKnown abcState ∧ 1 ≤ abcState.nLen.toNat ∧ abcState.nLen.toNat ≤ abcState.cfg.maxN ∧
    (∀ i < abcState.nLen.toNat, validAt abcState i) ∧ (inputSymbols abcState).dedup.length ≤ abcState.cfg.maxK :=
  ⟨abcState_dataOk, .inl rfl, by decide, by decide, abcState_valid, by decide⟩

theorem witness_CountReportsTheFirstError :
    (cfg.wf = true ∧ ¬ tagKnown (fed 0x02#8 [])) ∧ (tagKnown (fed 0x01#8 []) ∧ (fed 0x01#8 []).nLen = 0#32) ∧
    (tagKnown { abcState with nLen := 12#32 } ∧ abcState.cfg.maxN < { abcState with nLen := 12#32 }.nLen.toNat) ∧
    (∃ s i, s.cfg.wf = true ∧ tagKnown s ∧ s.nLen.toNat ≤ s.cfg.maxN ∧ i < s.nLen.toNat ∧ ¬ validAt s i ∧
      ∀ j < i, validAt s j) ∧
    (∃ s : State, s.cfg.wf = true ∧ tagKnown s ∧ s.nLen.toNat ≤ s.cfg.maxN ∧ (∀ i < s.nLen.toNat, validAt s i) ∧
      s.cfg.maxK < (inputSymbols s).dedup.length) := by
  refine ⟨⟨by decide, by simp [tagKnown, fed]⟩, ⟨.inr rfl, rfl⟩, ⟨.inl rfl, by decide⟩, ?_, ?_⟩
  · refine ⟨fed 0x00#8 [0x61#32, 0x110000#32], 1, by decide, .inl rfl, by decide, by decide, ?_, ?_⟩
    · rintro ⟨-, h⟩; exact absurd (h rfl) (by decide)
    · intro j hj; interval_cases j; exact ⟨by decide, fun _ => by decide⟩
  · exact ⟨{ abcState with cfg := { cfg with maxK := 2 } }, by decide, .inl rfl, by decide, abcState_valid, by decide⟩

/-! ## Witnesses: BUILD -/

/-- Four symbols of one count with MAX_CODE_LEN = 2: more than MAX_CODE_LEN + 1 symbols, and every code fits. -/
def even : State :=
  { counted [(0x61#24, 1#32), (0x62#24, 1#32), (0x63#24, 1#32), (0x64#24, 1#32)] with cfg := { cfg with maxCodeLen := 2 } }

theorem even_dataOk : DataOk even where
  cfg := by decide
  memories := ⟨by decide, by decide, by decide, by decide, by decide, by decide⟩
  tables := ⟨by decide, fun _ => ⟨by decide, by decide, by decide⟩, fun h => absurd h (by decide), by decide⟩
  payload := ⟨by decide, by decide⟩
  output := ⟨fun h => absurd h (by decide), by decide⟩

theorem witness_BuildSucceedsWhenCodesFit :
    DataOk even ∧ even.fv = true ∧ (∀ c ∈ huffmanCodes (freqs even), c.length ≤ even.cfg.maxCodeLen) ∧
      even.cfg.maxCodeLen + 1 < even.kCnt.toNat :=
  ⟨even_dataOk, rfl, by decide, by decide⟩

/-- A single symbol, counted. -/
def single : State := counted [(0x61#24, 4#32)]

theorem single_dataOk : DataOk single where
  cfg := by decide
  memories := ⟨by decide, by decide, by decide, by decide, by decide, by decide⟩
  tables := ⟨by decide, fun _ => ⟨by decide, by decide, by decide⟩, fun h => absurd h (by decide),
    fun _ h => absurd h (by decide)⟩
  payload := ⟨by decide, by decide⟩
  output := ⟨fun h => absurd h (by decide), by decide⟩

theorem witness_BuildGivesACompletePrefixCode :
    (∃ t, DataOk abcState ∧ exec .build abcState = .next t ∧ t.err = false ∧ 2 < t.kCnt.toNat) ∧
    ∃ t, DataOk single ∧ exec .build single = .next t ∧ t.err = false ∧ t.kCnt.toNat = 1 :=
  ⟨⟨_, abcState_dataOk, exec_after _ _, by decide, by decide⟩, ⟨_, single_dataOk, exec_after _ _, by decide, by decide⟩⟩

theorem witness_SingleSymbolGetsCodeZero : DataOk single ∧ single.fv = true ∧ single.kCnt = 1#32 :=
  ⟨single_dataOk, rfl, rfl⟩

theorem witness_ReductionLeavesOneRoot :
    ((initialQueue single.freqTable).Pairwise (fun a b => keyBefore a b = true) ∧ (initialQueue single.freqTable).length ≤ 1) ∧
    ((initialQueue abcState.freqTable).Pairwise (fun a b => keyBefore a b = true) ∧
      2 ≤ (initialQueue abcState.freqTable).length) ∧ 2 ≤ abcState.freqTable.length := by decide

theorem witness_QueueStaysInKeyOrder :
    [Tree.leaf 0#24 1 0, .leaf 1#24 2 1].Pairwise (fun a b => keyBefore a b = true) ∧
    treeSeq (.leaf 0#24 1 0) ≠ treeSeq (.leaf 2#24 1 2) := by decide

theorem witness_CodesAreRootToLeafPaths :
    ∃ t, DataOk abcState ∧ 2 ≤ abcState.kCnt.toNat ∧ exec .build abcState = .next t ∧ t.err = false :=
  ⟨_, abcState_dataOk, by decide, exec_after _ _, by decide⟩

/-- Vector B10: MAX_CODE_LEN is too small. -/
theorem witness_BuildReportsItsErrors :
    fresh.fv = false ∧
    (∃ s : State, s.fv = true ∧ ∃ c ∈ huffmanCodes (freqs s), s.cfg.maxCodeLen < c.length) ∧
    (DataOk abcState ∧ abcState.fv = true ∧ abcState.cfg.maxK - 1 ≤ abcState.cfg.maxCodeLen ∧
      [true, false] ∈ huffmanCodes (freqs abcState)) :=
  ⟨rfl, ⟨{ abcState with cfg := { cfg with maxCodeLen := 1 } }, rfl, [true, false], by decide, by decide⟩,
    abcState_dataOk, rfl, by decide, by decide⟩

theorem witness_CodewordsAreHeldByLengthAndValue :
    Config.example.wf = true ∧ (∀ c ∈ [[true], List.replicate 64 true], 1 ≤ c.length ∧ c.length ≤ Config.example.maxCodeLen)
    := ⟨by decide, by decide⟩

/-! ## Witnesses: PACK and UNPACK -/

theorem abcState_cover : ∀ i (h : i < abcCode.length), abcCode[i] ∈ codes abcState ∧
    abcCode[i].sym.setWidth 32 = abcState.sym.read i := by decide

theorem witness_PackTranslatesAndPads :
    DataOk abcState ∧ abcState.cv = true ∧ 1 ≤ abcState.nLen.toNat ∧ abcState.nLen.toNat ≤ abcState.cfg.maxN ∧
    abcCode.length = abcState.nLen.toNat ∧
    (∀ i (h : i < abcCode.length), abcCode[i] ∈ codes abcState ∧ abcCode[i].sym.setWidth 32 = abcState.sym.read i) ∧
    1 + ((abcCode.flatMap CodeEntry.bits).length + (8 - (abcCode.flatMap CodeEntry.bits).length % 8)) / 8 ≤
      abcState.cfg.maxPay :=
  ⟨abcState_dataOk, rfl, by decide, by decide, rfl, abcState_cover, by decide⟩

/-- A payload capacity of 2 bytes, and nine symbols "ababababa" that need 3. -/
def nine : State :=
  { coded abCode [0x00#8] with
    cfg := { cfg with maxPay := 2 }, sym := Mem.writeFrom [] 0 (List.replicate 9 0x61#32), nLen := 9#32 }

theorem nine_dataOk : DataOk nine where
  cfg := by decide
  memories := ⟨by decide, by decide, by decide, by decide, by decide, by decide⟩
  tables := ⟨by decide, fun h => absurd h (by decide), fun _ => ⟨by decide, by decide, by decide⟩,
    fun h => absurd h (by decide)⟩
  payload := ⟨by decide, by decide⟩
  output := ⟨fun h => absurd h (by decide), by decide⟩

theorem witness_PackReportsTheFirstError :
    (fresh.cfg.wf = true ∧ fresh.cv = false) ∧
    ({ abcState with nLen := 0#32 }.cv = true ∧ { abcState with nLen := 0#32 }.nLen = 0#32) ∧
    (abcState.cfg.maxN < { abcState with nLen := 12#32 }.nLen.toNat) ∧
    (∃ s : State, s.cv = true ∧ s.nLen.toNat ≤ s.cfg.maxN ∧ 1 < s.nLen.toNat ∧
      (∀ e ∈ codes s, e.sym.setWidth 32 ≠ s.sym.read 1) ∧
      ∀ j < 1, ∃ e ∈ codes s, e.sym.setWidth 32 = s.sym.read j) ∧
    (∃ (s : State) (cs : List CodeEntry), DataOk s ∧ s.cv = true ∧ s.nLen ≠ 0#32 ∧ s.nLen.toNat ≤ s.cfg.maxN ∧
      cs.length = s.nLen.toNat ∧
      (∀ i (h : i < cs.length), cs[i] ∈ codes s ∧ cs[i].sym.setWidth 32 = s.sym.read i) ∧
      s.cfg.maxPay < 1 + ((cs.flatMap CodeEntry.bits).length + (8 - (cs.flatMap CodeEntry.bits).length % 8)) / 8) := by
  refine ⟨⟨by decide, rfl⟩, ⟨rfl, rfl⟩, by decide, ?_, ?_⟩
  · refine ⟨{ abcState with sym := Mem.writeFrom [] 0 [0x61#32, 0x01000062#32], nLen := 2#32 }, rfl, by decide, by decide,
      ?_, ?_⟩
    · have h : codes { abcState with sym := Mem.writeFrom [] 0 [0x61#32, 0x01000062#32], nLen := 2#32 } = abcCode := by
        decide
      rw [h]; simp only [abcCode, List.forall_mem_cons]; exact ⟨by decide, by decide, by decide, by simp⟩
    · intro j hj; interval_cases j; exact ⟨entry 0x61#24 2 2, by decide, by decide⟩
  · refine ⟨nine, List.replicate 9 (entry 0x61#24 1 0), nine_dataOk, rfl, by decide, by decide, by decide, by decide,
      by decide⟩

/-- A parsed table and payload, without output. -/
def parsed (t : List CodeEntry) (p : List Byte) (n : Nat) : State :=
  { coded t p with cfg := { cfg with maxN := n } }

theorem parsed_ab_dataOk : DataOk (parsed abCode [0x04#8, 0x30#8] 3) where
  cfg := by decide
  memories := ⟨by decide, by decide, by decide, by decide, by decide, by decide⟩
  tables := ⟨by decide, fun h => absurd h (by decide), fun _ => ⟨by decide, by decide, by decide⟩,
    fun h => absurd h (by decide)⟩
  payload := ⟨by decide, by decide⟩
  output := ⟨fun h => absurd h (by decide), by decide⟩

theorem parsed_abc_dataOk : DataOk (parsed abcCode [0x07#8, 0x80#8] 11) where
  cfg := by decide
  memories := ⟨by decide, by decide, by decide, by decide, by decide, by decide⟩
  tables := ⟨by decide, fun h => absurd h (by decide), fun _ => ⟨by decide, by decide, by decide⟩,
    fun h => absurd h (by decide)⟩
  payload := ⟨by decide, by decide⟩
  output := ⟨fun h => absurd h (by decide), by decide⟩

theorem codes_abcState : codes abcState = abcCode := by decide

theorem witness_UnpackDecodesCodeSequences :
    DataOk abcState ∧ abcState.cv = true ∧ abcState.pv = true ∧
    (abcState.pay.read 0).toNat ≤ 8 * (abcState.payLen.toNat - 1) ∧ (∀ e ∈ abcCode, e ∈ codes abcState) ∧
    codeBits abcState = abcCode.flatMap CodeEntry.bits ∧ abcCode.length ≤ abcState.cfg.maxN :=
  ⟨abcState_dataOk, rfl, rfl, by decide, by rw [codes_abcState]; exact fun _ h => h, by decide, by decide⟩

/-- Vectors U7, U8, U10, and U13 with MAX_N = 3. -/
theorem witness_UnpackReportsTheFirstError :
    (fresh.cv = false ∧ { abcState with pv := false }.pv = false) ∧
    (∀ p ∈ [[0x09#8, 0x30#8], [0x08#8]], (coded abCode p).cv = true ∧ (coded abCode p).pv = true ∧
      1 ≤ (coded abCode p).payLen.toNat ∧ (8 < ((coded abCode p).pay.read 0).toNat ∨
        8 * ((coded abCode p).payLen.toNat - 1) < ((coded abCode p).pay.read 0).toNat)) ∧
    (∃ (s : State) (rest : Bits), DataOk s ∧ s.cv = true ∧ s.pv = true ∧ (s.pay.read 0).toNat ≤ 8 * (s.payLen.toNat - 1) ∧
      codeBits s = [].flatMap CodeEntry.bits ++ rest ∧ rest ≠ [] ∧ ∀ e ∈ codes s, ¬ e.bits <+: rest) ∧
    (∃ (s : State) (es : List CodeEntry), DataOk s ∧ s.cv = true ∧ s.pv = true ∧ (s.pay.read 0).toNat ≤ 8 * (s.payLen.toNat - 1) ∧
      (∀ e ∈ es, e ∈ codes s) ∧ codeBits s = es.flatMap CodeEntry.bits ++ [] ∧ es.length = s.cfg.maxN + 1) := by
  refine ⟨⟨rfl, rfl⟩, ?_, ?_, ?_⟩
  · simp only [List.forall_mem_cons]; exact ⟨by decide, by decide, by simp⟩
  · refine ⟨parsed abcCode [0x07#8, 0x80#8] 11, [true], parsed_abc_dataOk, rfl, rfl, by decide, by decide, by decide, ?_⟩
    have h : codes (parsed abcCode [0x07#8, 0x80#8] 11) = abcCode := by decide
    rw [h]; simp only [abcCode, List.forall_mem_cons]; exact ⟨by decide, by decide, by decide, by simp⟩
  · refine ⟨parsed abCode [0x04#8, 0x30#8] 3, [entry 0x61#24 1 0, entry 0x61#24 1 0, entry 0x62#24 1 1, entry 0x62#24 1 1],
      parsed_ab_dataOk, rfl, rfl, by decide, ?_, by decide, by decide⟩
    simp only [List.forall_mem_cons]
    exact ⟨by decide, by decide, by decide, by decide, by simp⟩

theorem witness_EarlyStopIsUnobservable : ∀ e ∈ abcCode, e.len.toNat ≤ 2 := by
  simp only [abcCode, List.forall_mem_cons]; exact ⟨by decide, by decide, by decide, by simp⟩

theorem witness_PackThenUnpackGivesTheInputBack :
    ∃ t, DataOk abcState ∧ exec .pack abcState = .next t ∧ t.err = false :=
  ⟨_, abcState_dataOk, exec_after _ _, by decide⟩

/-! ## Witnesses: SERIALIZE and PARSE -/

theorem abcCode_forall {P : CodeEntry → Prop} (ha : P (entry 0x61#24 2 2)) (hb : P (entry 0x62#24 2 3))
    (hc : P (entry 0x63#24 1 0)) : ∀ e ∈ abcCode, P e := by
  simp only [abcCode, List.forall_mem_cons]; exact ⟨ha, hb, hc, by simp⟩

theorem dataOk_with_tag (x : Byte) : DataOk { abcState with tag := x } :=
  ⟨abcState_dataOk.cfg, ⟨abcState_dataOk.memories.sym, abcState_dataOk.memories.freq, abcState_dataOk.memories.code,
    abcState_dataOk.memories.pay, abcState_dataOk.memories.cont, abcState_dataOk.memories.out⟩,
    ⟨abcState_dataOk.tables.kCnt, abcState_dataOk.tables.freq, abcState_dataOk.tables.code, abcState_dataOk.tables.same⟩,
    ⟨abcState_dataOk.payload.valid, abcState_dataOk.payload.absent⟩,
    ⟨abcState_dataOk.output.valid, abcState_dataOk.output.absent⟩⟩

theorem witness_SerializeWritesTheLayout :
    (DataOk abcState ∧ abcState.cv = true ∧ abcState.pv = true ∧ tagKnown abcState ∧
      (∀ e ∈ codes abcState, e.sym.toNat ≤ 0x10FFFF) ∧
      containerLength 0 (codes abcState) abcState.payLen.toNat ≤ abcState.cfg.maxCont) ∧
    (DataOk { abcState with tag := 0x01#8 } ∧ tagKnown { abcState with tag := 0x01#8 } ∧
      containerLength 1 (codes abcState) abcState.payLen.toNat ≤ abcState.cfg.maxCont) := by
  refine ⟨⟨abcState_dataOk, rfl, rfl, .inl rfl, ?_, by decide⟩, dataOk_with_tag _, .inr rfl, by decide⟩
  rw [codes_abcState]; exact abcCode_forall (by decide) (by decide) (by decide)

/-- A table with a symbol that is no text, and little room for a container. -/
def narrow (x : Symbol) : State := { coded [entry x 1 0] [0x07#8, 0x00#8] with cfg := { cfg with maxCont := 23 } }

theorem narrow_dataOk : DataOk (narrow 0x61#24) ∧ DataOk (narrow 0x110000#24) := by
  constructor <;>
  exact
    { cfg := by decide
      memories := ⟨by decide, by decide, by decide, by decide, by decide, by decide⟩
      tables := ⟨by decide, fun h => absurd h (by decide), fun _ => ⟨by decide, by decide, by decide⟩,
        fun h => absurd h (by decide)⟩
      payload := ⟨by decide, by decide⟩
      output := ⟨fun h => absurd h (by decide), by decide⟩ }

theorem witness_SerializeReportsTheFirstError :
    (DataOk fresh ∧ fresh.cv = false) ∧
    (DataOk { abcState with tag := 0x02#8 } ∧ ¬ tagKnown { abcState with tag := 0x02#8 } ∧ abcState.cv = true ∧
      abcState.pv = true) ∧
    (DataOk (narrow 0x110000#24) ∧ 0 < (narrow 0x110000#24).kCnt.toNat ∧ (narrow 0x110000#24).tag = 0x00#8 ∧
      0x10FFFF < ((narrow 0x110000#24).code.read 0).sym.toNat) ∧
    (DataOk (narrow 0x61#24) ∧ tagKnown (narrow 0x61#24) ∧ (∀ e ∈ codes (narrow 0x61#24), e.sym.toNat ≤ 0x10FFFF) ∧
      (narrow 0x61#24).cfg.maxCont <
        containerLength 0 (codes (narrow 0x61#24)) (narrow 0x61#24).payLen.toNat) := by
  refine ⟨⟨fresh_dataOk, rfl⟩, ⟨dataOk_with_tag _, by simp [tagKnown], rfl, rfl⟩,
    ⟨narrow_dataOk.2, by decide, rfl, by decide⟩, narrow_dataOk.1, .inl rfl, ?_, by decide⟩
  have h : codes (narrow 0x61#24) = [entry 0x61#24 1 0] := by decide
  rw [h]; simp only [List.forall_mem_cons]; exact ⟨by decide, by simp⟩

theorem abc_acceptable : Acceptable cfg 0x00#8 abcCode [0x03#8, 0xB0#8] where
  known := .inl rfl
  codes := ⟨abcCode_forall (by decide) (by decide) (by decide), by decide, by decide⟩
  entries := by decide
  typed := fun _ => abcCode_forall (by decide) (by decide) (by decide)
  bytes := by decide
  header := by decide

/-- Vector S5 lies in CONT. -/
theorem abc_holds : HoldsContainer abcState 0x00#8 0#32 0#32 0#32 abcCode [0x03#8, 0xB0#8] :=
  ⟨by decide, by decide, by decide, by decide⟩

/-- The code table and the payload of vector S3. -/
theorem pixels_acceptable : Acceptable cfg 0x01#8 [entry 0x0A0A0A#24 1 0] [0x06#8, 0x00#8] where
  known := .inr rfl
  codes := ⟨by simp only [List.forall_mem_cons]; exact ⟨by decide, by simp⟩, by decide, by decide⟩
  entries := by decide
  typed := fun h => absurd h (by decide)
  bytes := by decide
  header := by decide

/-- Vector S3 in CONT, and nothing else. -/
def pixelState : State := holding pixelContainer

theorem pixelState_dataOk : DataOk pixelState where
  cfg := by decide
  memories := ⟨by decide, by decide, by decide, by decide, by decide, by decide⟩
  tables := ⟨by decide, fun h => absurd h (by decide), fun h => absurd h (by decide), fun h => absurd h (by decide)⟩
  payload := ⟨by decide, by decide⟩
  output := ⟨fun h => absurd h (by decide), by decide⟩

theorem witness_ParseReadsAcceptableContainers :
    (DataOk abcState ∧ Acceptable abcState.cfg 0x00#8 abcCode [0x03#8, 0xB0#8] ∧
      HoldsContainer abcState 0x00#8 0#32 0#32 0#32 abcCode [0x03#8, 0xB0#8]) ∧
    (DataOk pixelState ∧ Acceptable pixelState.cfg 0x01#8 [entry 0x0A0A0A#24 1 0] [0x06#8, 0x00#8] ∧
      HoldsContainer pixelState 0x01#8 1#32 2#32 3#32 [entry 0x0A0A0A#24 1 0] [0x06#8, 0x00#8]) :=
  ⟨⟨abcState_dataOk, abc_acceptable, abc_holds⟩, pixelState_dataOk, pixels_acceptable,
    ⟨by decide, by decide, by decide, by decide⟩⟩

theorem witness_ParseAcceptsOnlyTheLayout :
    ∃ t, DataOk pixelState ∧ exec .parse pixelState = .next t ∧ t.err = false :=
  ⟨_, pixelState_dataOk, exec_after _ _, by decide⟩

theorem witness_ParseAlwaysClearsCountsAndKeepsOutput :
    (∃ t, exec .parse abcState = .next t ∧ t.err = false) ∧ ∃ t, exec .parse fresh = .next t ∧ t.err = true :=
  ⟨⟨_, exec_after _ _, by decide⟩, ⟨_, exec_after _ _, by decide⟩⟩

theorem witness_SingleBitFlipsAreRejected :
    (abcState.cfg.maxCont < { abcState with contLen := 81#32 }.contLen.toNat) ∧
    (fresh.contLen.toNat ≤ fresh.cfg.maxCont ∧ fresh.contLen = 0#32) ∧
    (∃ s : State, s.contLen.toNat = s.cfg.maxCont ∧ contXor s s.contLen.toNat ≠ 0#8) ∧
    (∃ t, DataOk abcState ∧ exec .parse abcState = .next t ∧ t.err = false ∧ 33 < abcState.contLen.toNat) :=
  ⟨by decide, ⟨by decide, rfl⟩,
    ⟨{ holding [0x01#8] with cfg := { cfg with maxCont := 1 } }, by decide, by decide⟩,
    ⟨_, abcState_dataOk, exec_after _ _, by decide, by decide⟩⟩

theorem witness_TruncatedContainersAreRejected :
    ∃ t, exec .parse abcState = .next t ∧ t.err = false ∧ 0 < abcState.contLen.toNat ∧ 33 < abcState.contLen.toNat :=
  ⟨_, exec_after _ _, by decide, by decide, by decide⟩

/-- CONT holds these bytes and a right check byte. -/
def blob (c : Config) (body : List Byte) : State := { holding (withCheckByte body) with cfg := c }

/-- Every blob that fits meets the premises of the error statement, and its bytes before the check byte are `body`. -/
theorem blob_premises (c : Config) (body : List Byte) (h : body.length + 1 ≤ c.maxCont) (h32 : body.length + 1 < 2 ^ 32) :
    1 ≤ (blob c body).contLen.toNat ∧ (blob c body).contLen.toNat ≤ (blob c body).cfg.maxCont ∧
      contXor (blob c body) (blob c body).contLen.toNat = 0#8 ∧
      contBytes (blob c body) ((blob c body).contLen.toNat - 1) = body := by
  have hl : (blob c body).contLen.toNat = body.length + 1 := by
    show (BitVec.ofNat 32 (withCheckByte body).length).toNat = _
    rw [BitVec.toNat_ofNat, Nat.mod_eq_of_lt] <;> simp [withCheckByte]
    omega
  have hw : (withCheckByte body).length = body.length + 1 := by simp [withCheckByte]
  have hs : (blob c body).cont.slice (body.length + 1) = withCheckByte body := by
    rw [← hw]; exact Mem.slice_writeFrom (m := []) (by decide) _
  refine ⟨by omega, by rw [hl]; exact h, ?_, ?_⟩
  · rw [hl]
    exact (congrArg xorBytes hs).trans (xorBytes_withCheckByte body)
  · rw [hl]
    have ht := congrArg (List.take body.length) hs
    rw [Mem.slice, ← List.map_take, List.take_range, Nat.min_eq_left (Nat.le_succ _), withCheckByte, List.take_left] at ht
    exact ht

/-- The bytes of vector S4, "aabb", up to and with K. -/
def s4Head : List Byte := [0x48#8, 0x55#8, 0x46#8, 0x5A#8, 0x01#8, 0x00#8, 0x00#8, 0x04#8, 0x00#8, 0x00#8, 0x00#8, 0x02#8]

/-- Its two entries, its P and its payload. -/
def s4A : List Byte := [0x00#8, 0x00#8, 0x61#8, 0x01#8, 0x00#8]
def s4B : List Byte := [0x00#8, 0x00#8, 0x62#8, 0x01#8, 0x80#8]
def s4P : List Byte := [0x00#8, 0x00#8, 0x00#8, 0x02#8, 0x04#8, 0x30#8]

/-- What an entry of a text container needs to be read. -/
def fits (c : Config) (e : CodeEntry) : Bool :=
  decide (1 ≤ e.len.toNat) && decide (e.len.toNat ≤ c.maxCodeLen) && decide (e.val.toNat < 2 ^ e.len.toNat) &&
  decide (e.len.toNat ≤ 64) && decide (e.sym.toNat ≤ 0x10FFFF)

theorem began {c : Config} {padf : Byte} {k : Nat} {es : List CodeEntry} (hp : padf.toNat ≤ 8)
    (hk : 1 ≤ k ∧ k ≤ c.maxK ∧ k < 2 ^ 32) (he : es.all (fits c) = true) : Began c 0x00#8 padf k es where
  known := .inl rfl
  padding := hp
  count := hk
  entries e hm := by
    have := List.all_eq_true.mp he e hm
    simp only [fits, Bool.and_eq_true, decide_eq_true_eq] at this
    exact ⟨⟨this.1.1.1.1, this.1.1.1.2, this.1.1.2⟩, this.1.2, fun _ => this.2⟩

theorem abCode_apart : ∀ i j : Fin 2, i ≠ j →
    ¬ ((abCode[i.val]'i.isLt).sym = (abCode[j.val]'j.isLt).sym ∨ (abCode[i.val]'i.isLt).bits <+: (abCode[j.val]'j.isLt).bits) := by
  decide

theorem tableRead {c : Config} {padf : Byte} (hp : padf.toNat ≤ 8) (hk : 2 ≤ c.maxK) (he : abCode.all (fits c) = true) :
    TableRead c 0x00#8 padf 2 abCode where
  began := began hp ⟨by decide, hk, by decide⟩ he
  all := rfl
  apart i j hi hj hij := abCode_apart ⟨i, hi⟩ ⟨j, hj⟩ fun h => hij (congrArg Fin.val h)

/-- The checks of the header: vectors Q5 to Q9, Q11 to Q13 and blobs cut before TAG, after TAG, before PADF and in SHAPE or K. -/
theorem rejects_header :
    Rejects cfg ([0x48#8, 0x55#8, 0x46#8, 0x5B#8, 0x01#8, 0x00#8, 0x00#8, 0x04#8, 0x00#8, 0x00#8, 0x00#8, 0x02#8] ++ s4A
      ++ s4B ++ s4P) 3#4 ∧
    Rejects cfg ([]) 3#4 ∧
    Rejects cfg ([0x48#8, 0x55#8, 0x46#8, 0x5A#8, 0x02#8, 0x00#8, 0x00#8, 0x04#8, 0x00#8, 0x00#8, 0x00#8, 0x02#8] ++ s4A
      ++ s4B ++ s4P) 3#4 ∧
    Rejects cfg ([0x48#8, 0x55#8, 0x46#8, 0x5A#8, 0x01#8]) 3#4 ∧
    Rejects cfg ([0x48#8, 0x55#8, 0x46#8, 0x5A#8, 0x01#8, 0x02#8]) 4#4 ∧
    Rejects cfg ([0x48#8, 0x55#8, 0x46#8, 0x5A#8, 0x01#8, 0x02#8, 0x00#8, 0x04#8, 0x00#8, 0x00#8, 0x00#8, 0x02#8] ++ s4A
      ++ s4B ++ s4P) 4#4 ∧
    Rejects cfg ([0x48#8, 0x55#8, 0x46#8, 0x5A#8, 0x01#8, 0x00#8, 0x02#8, 0x04#8, 0x00#8, 0x00#8, 0x00#8, 0x02#8] ++ s4A
      ++ s4B ++ s4P) 3#4 ∧
    Rejects cfg ([0x48#8, 0x55#8, 0x46#8, 0x5A#8, 0x01#8, 0x01#8, 0x00#8, 0x04#8, 0x00#8, 0x00#8, 0x00#8, 0x02#8] ++ s4A
      ++ s4B ++ s4P) 3#4 ∧
    Rejects cfg ([0x48#8, 0x55#8, 0x46#8, 0x5A#8, 0x01#8, 0x01#8, 0x01#8]) 3#4 ∧
    Rejects cfg ([0x48#8, 0x55#8, 0x46#8, 0x5A#8, 0x01#8, 0x00#8, 0x00#8, 0x09#8, 0x00#8, 0x00#8, 0x00#8, 0x02#8] ++ s4A
      ++ s4B ++ [0x00#8, 0x00#8, 0x00#8, 0x02#8, 0x09#8, 0x30#8]) 3#4 ∧
    Rejects cfg ([0x48#8, 0x55#8, 0x46#8, 0x5A#8, 0x01#8, 0x00#8, 0x00#8, 0x08#8, 0x00#8, 0x00#8, 0x00#8]) 3#4 ∧
    Rejects cfg ([0x48#8, 0x55#8, 0x46#8, 0x5A#8, 0x01#8, 0x01#8, 0x01#8, 0x08#8] ++ List.replicate 15 0x00#8) 3#4 ∧
    Rejects cfg ([0x48#8, 0x55#8, 0x46#8, 0x5A#8, 0x01#8, 0x00#8, 0x00#8, 0x04#8, 0x00#8, 0x00#8, 0x00#8, 0x00#8] ++ s4A
      ++ s4B ++ s4P) 3#4 ∧
    Rejects { cfg with maxK := 1 } (s4Head ++ s4A ++ s4B ++ s4P) 6#4 :=
  ⟨
    .magic _ (by decide),
    .magic _ (by decide),
    .version _ (by decide),
    .noTag,
    .tag _ [] (by decide) (by decide),
    .tag _ _ (by decide) (by decide),
    .flags _ _ (.inl rfl) (by decide),
    .flags _ _ (.inr rfl) (by decide),
    .noPadding 0x01#8 (.inr rfl),
    .padding 0x00#8 _ _ (.inl rfl) (by decide),
    .shapeOrCount 0x00#8 _ _ (.inl rfl) (by decide) (by decide),
    .shapeOrCount 0x01#8 _ (List.replicate 15 0x00#8) (.inr rfl) (by decide) (by decide),
    .countZero 0x00#8 0x04#8 0#32 0#32 0#32 (s4A ++ s4B ++ s4P) (.inl rfl) (by decide),
    .countCapacity 0x00#8 0x04#8 0#32 0#32 0#32 2 (s4A ++ s4B ++ s4P) (.inl rfl) (by decide) (by decide) (by decide)⟩

/-- The checks of the entries and of the table: vectors Q14 to Q16, Q18, Q19, Q21, Q28, codes of 5 and 64 bits with
MAX_CODE_LEN = 4, and blobs cut in SYM and in CODEB. -/
theorem rejects_entries :
    Rejects cfg (s4Head ++ s4A ++ [0x00#8, 0x00#8]) 3#4 ∧
    Rejects cfg (s4Head ++ [0x11#8, 0x00#8, 0x00#8, 0x01#8, 0x00#8] ++ s4B ++ s4P) 3#4 ∧
    Rejects cfg (s4Head ++ s4A ++ [0x00#8, 0x00#8, 0x62#8]) 3#4 ∧
    Rejects cfg (s4Head ++ [0x00#8, 0x00#8, 0x61#8, 0x00#8, 0x00#8] ++ s4B ++ s4P) 3#4 ∧
    Rejects cfg (s4Head ++ [0x00#8, 0x00#8, 0x61#8, 0x41#8, 0x00#8] ++ s4B ++ s4P) 3#4 ∧
    Rejects cfg (s4Head ++ s4A ++ [0x00#8, 0x00#8, 0x62#8, 0x05#8]) 6#4 ∧
    Rejects cfg (s4Head ++ s4A ++ [0x00#8, 0x00#8, 0x62#8, 0x40#8]) 6#4 ∧
    Rejects cfg (s4Head ++ s4A ++ [0x00#8, 0x00#8, 0x62#8, 0x04#8]) 3#4 ∧
    Rejects cfg (s4Head ++ [0x00#8, 0x00#8, 0x61#8, 0x01#8, 0x01#8] ++ s4B ++ s4P) 3#4 ∧
    Rejects cfg (s4Head ++ s4A ++ [0x00#8, 0x00#8, 0x61#8, 0x01#8, 0x80#8] ++ s4P) 3#4 ∧
    Rejects cfg (s4Head ++ s4A ++ [0x00#8, 0x00#8, 0x62#8, 0x01#8, 0x00#8] ++ s4P) 3#4 :=
  ⟨
    .symbolCut 0x00#8 0x04#8 0#32 0#32 0#32 2 [entry 0x61#24 1 0] [0x00#8, 0x00#8] (began (by decide) (by decide) (by
      decide)) (by decide) (by decide),
    .symbol 0x00#8 0x04#8 0#32 0#32 0#32 2 [] 0x110000#24 ([0x01#8, 0x00#8] ++ s4B ++ s4P) (began (by decide) (by decide)
      (by decide)) (by decide) (fun h => absurd (h rfl) (by decide)),
    .lengthCut 0x00#8 0x04#8 0#32 0#32 0#32 2 [entry 0x61#24 1 0] 0x62#24 (began (by decide) (by decide) (by decide)) (by
      decide) (fun _ => (by decide)),
    .length 0x00#8 0x04#8 0#32 0#32 0#32 2 [] 0x61#24 0x00#8 ([0x00#8] ++ s4B ++ s4P) (began (by decide) (by decide) (by
      decide)) (by decide) (fun _ => (by decide)) (.inl rfl),
    .length 0x00#8 0x04#8 0#32 0#32 0#32 2 [] 0x61#24 0x41#8 ([0x00#8] ++ s4B ++ s4P) (began (by decide) (by decide) (by
      decide)) (by decide) (fun _ => (by decide)) (.inr (by decide)),
    .lengthCapacity 0x00#8 0x04#8 0#32 0#32 0#32 2 [entry 0x61#24 1 0] 0x62#24 0x05#8 [] (began (by decide) (by decide)
      (by decide)) (by decide) (fun _ => (by decide)) (by decide) (by decide) (by decide),
    .lengthCapacity 0x00#8 0x04#8 0#32 0#32 0#32 2 [entry 0x61#24 1 0] 0x62#24 0x40#8 [] (began (by decide) (by decide)
      (by decide)) (by decide) (fun _ => (by decide)) (by decide) (by decide) (by decide),
    .codeCut 0x00#8 0x04#8 0#32 0#32 0#32 2 [entry 0x61#24 1 0] 0x62#24 0x04#8 [] (began (by decide) (by decide) (by
      decide)) (by decide) (fun _ => (by decide)) (by decide) (by decide),
    .trailingBits 0x00#8 0x04#8 0#32 0#32 0#32 2 [] 0x61#24 0x01#8 [0x01#8] (s4B ++ s4P) (began (by decide) (by decide)
      (by decide)) (by decide) (fun _ => (by decide)) (by decide) (by decide) (by decide),
    .table 0x00#8 0x04#8 0#32 0#32 0#32 2 [entry 0x61#24 1 0, entry 0x61#24 1 1] s4P 0 1 (began (by decide) (by decide)
      (by decide)) rfl (by decide) (by decide) (by decide) (.inl rfl),
    .table 0x00#8 0x04#8 0#32 0#32 0#32 2 [entry 0x61#24 1 0, entry 0x62#24 1 0] s4P 0 1 (began (by decide) (by decide)
      (by decide)) rfl (by decide) (by decide) (by decide) (.inr (by decide))⟩

/-- The checks of the payload and of the end: vectors Q22 to Q27 and a blob cut in P. -/
theorem rejects_payload :
    Rejects cfg (s4Head ++ s4A ++ s4B ++ [0x00#8, 0x00#8, 0x00#8]) 3#4 ∧
    Rejects cfg (s4Head ++ s4A ++ s4B ++ [0x00#8, 0x00#8, 0x00#8, 0x00#8, 0x04#8, 0x30#8]) 3#4 ∧
    Rejects { cfg with maxPay := 1 } (s4Head ++ s4A ++ s4B ++ s4P) 6#4 ∧
    Rejects cfg (s4Head ++ s4A ++ s4B ++ [0x00#8, 0x00#8, 0x00#8, 0x02#8, 0x04#8]) 3#4 ∧
    Rejects cfg ([0x48#8, 0x55#8, 0x46#8, 0x5A#8, 0x01#8, 0x00#8, 0x00#8, 0x05#8, 0x00#8, 0x00#8, 0x00#8, 0x02#8] ++ s4A
      ++ s4B ++ s4P) 3#4 ∧
    Rejects cfg (s4Head ++ s4A ++ s4B ++ s4P ++ [0x00#8]) 3#4 ∧
    Rejects cfg (s4Head ++ s4A ++ s4B ++ [0x00#8, 0x00#8, 0x00#8, 0x01#8, 0x04#8, 0x30#8]) 3#4 :=
  ⟨
    .payloadLengthCut 0x00#8 0x04#8 0#32 0#32 0#32 2 abCode [0x00#8, 0x00#8, 0x00#8] (tableRead (by decide) (by decide)
      (by decide)) (by decide),
    .payloadZero 0x00#8 0x04#8 0#32 0#32 0#32 2 abCode [0x04#8, 0x30#8] (tableRead (by decide) (by decide) (by decide)),
    .payloadCapacity 0x00#8 0x04#8 0#32 0#32 0#32 2 abCode 2 [0x04#8, 0x30#8] (tableRead (by decide) (by decide) (by
      decide)) (by decide) (by decide) (by decide),
    .payloadCut 0x00#8 0x04#8 0#32 0#32 0#32 2 abCode 2 [0x04#8] (tableRead (by decide) (by decide) (by decide)) (by
      decide) (by decide),
    .payloadHeader 0x00#8 0x05#8 0#32 0#32 0#32 2 abCode [0x04#8, 0x30#8] [] (tableRead (by decide) (by decide) (by
      decide)) (by decide) (by decide),
    .trailingBytes 0x00#8 0x04#8 0#32 0#32 0#32 2 abCode [0x04#8, 0x30#8] [0x00#8] (tableRead (by decide) (by decide) (by
      decide)) (by decide) (by decide) (by decide),
    .trailingBytes 0x00#8 0x04#8 0#32 0#32 0#32 2 abCode [0x04#8] [0x30#8] (tableRead (by decide) (by decide) (by
      decide)) (by decide) (by decide) (by decide)⟩

/-- Blobs of 1 byte and of MAX_CONT bytes, and a PARSE that fails. `blob_premises` makes a blob that meets the premises of
each body in `rejects_header`, `rejects_entries` and `rejects_payload`. -/
theorem witness_ParseReportsTheFirstError :
    (∃ s : State, s.contLen.toNat = 1 ∧ contXor s s.contLen.toNat = 0#8 ∧ s.contLen.toNat ≤ s.cfg.maxCont ∧
      Rejects s.cfg (contBytes s (s.contLen.toNat - 1)) 3#4) ∧
    (∃ s : State, s.contLen.toNat = s.cfg.maxCont ∧ contXor s s.contLen.toNat = 0#8 ∧ 1 ≤ s.contLen.toNat ∧
      Rejects s.cfg (contBytes s (s.contLen.toNat - 1)) 4#4) ∧
    ∃ s t : State, 1 ≤ s.contLen.toNat ∧ s.contLen.toNat ≤ s.cfg.maxCont ∧ contXor s s.contLen.toNat = 0#8 ∧
      exec .parse s = .next t ∧ t.err = true ∧ t.errcode = 4#4 :=
  ⟨⟨blob cfg [], by decide, by decide, by decide, .magic _ (by decide)⟩,
    ⟨blob { cfg with maxCont := 7 } [0x48#8, 0x55#8, 0x46#8, 0x5A#8, 0x01#8, 0x02#8], by decide, by decide, by decide,
      .tag 0x02#8 [] (by decide) (by decide)⟩,
    ⟨blob cfg [0x48#8, 0x55#8, 0x46#8, 0x5A#8, 0x01#8, 0x02#8], _, by decide, by decide, by decide, exec_after _ _,
      by decide, by decide⟩⟩

theorem serialized_dataOk : DataOk (after .serialize { abcState with tag := 0x01#8 }) where
  cfg := by decide
  memories := ⟨by decide, by decide, by decide, by decide, by decide, by decide⟩
  tables := ⟨by decide, fun _ => ⟨by decide, by decide, by decide⟩, fun _ => ⟨by decide, by decide, by decide⟩, by decide⟩
  payload := ⟨by decide, by decide⟩
  output := ⟨fun _ => ⟨by decide, abcState_dataOk.output.valid rfl |>.2⟩, by decide⟩

/-- Only the container of vector S5 is held. -/
theorem abcHeld_dataOk : DataOk (holding abcContainer) where
  cfg := by decide
  memories := ⟨by decide, by decide, by decide, by decide, by decide, by decide⟩
  tables := ⟨by decide, fun h => absurd h (by decide), fun h => absurd h (by decide), fun h => absurd h (by decide)⟩
  payload := ⟨by decide, by decide⟩
  output := ⟨fun h => absurd h (by decide), by decide⟩

/-- `r` keeps only the container of `t`. -/
theorem witness_SerializeThenParseRestores :
    (∃ t r : State, DataOk abcState ∧ exec .serialize abcState = .next t ∧ t.err = false ∧ DataOk r ∧ r.cfg = t.cfg ∧
      r.contLen = t.contLen ∧ (∀ j < t.contLen.toNat, r.cont.read j = t.cont.read j) ∧ r.cv ≠ t.cv) ∧
    ∃ t : State, DataOk { abcState with tag := 0x01#8 } ∧ exec .serialize { abcState with tag := 0x01#8 } = .next t ∧
      t.err = false ∧ DataOk t :=
  ⟨⟨_, holding abcContainer, abcState_dataOk, exec_after _ _, by decide, abcHeld_dataOk, rfl, by decide,
      fun j _ => congrFun (congrArg Mem.read (by decide)) j, by decide⟩,
    ⟨after .serialize { abcState with tag := 0x01#8 }, dataOk_with_tag _, exec_after _ _, by decide, serialized_dataOk⟩⟩

/-! ## Witnesses: control commands and the invariant -/

theorem witness_ClearForgetsEveryResult :
    (∀ w ∈ [1#3, 2#3, 3#3, 5#3], ∃ t, exec .clear { abcState with winSel := w } = .next t ∧
      t.winSel ∈ [1#3, 2#3, 3#3, 5#3]) ∧
    (fresh.fv = false ∧ fresh.cv = false ∧ fresh.pv = false) ∧
    (∃ t, step { fed 0x00#8 [0x61#32] with busy := true, pend := 1#32 } = .next t ∧ t.fv = true) ∧
    ∃ t, step { holding abcContainer with busy := true, pend := 5#32 } = .next t ∧ t.cv = true ∧ t.pv = true :=
  ⟨fun _ hw => ⟨_, exec_after _ _, hw⟩, ⟨rfl, rfl, rfl⟩, ⟨_, exec_after .count _, by decide⟩,
    ⟨_, exec_after .parse _, by decide⟩⟩

/-- "abc" with the least capacities it fits: 3 symbols, 3 entries, codes of 2 bits, 2 payload bytes, 34 container bytes. -/
def tightText : State :=
  { fed 0x00#8 [0x61#32, 0x62#32, 0x63#32] with
    cfg := { maxN := 3, maxK := 3, maxCodeLen := 2, maxPay := 2, maxCont := 34 } }

/-- One pixel, with the least capacities it fits: one code of one bit, 2 payload bytes, 36 container bytes. -/
def tightPixel : State :=
  { fed 0x01#8 [0xFFFFFF#32] with cfg := { maxN := 1, maxK := 1, maxCodeLen := 1, maxPay := 2, maxCont := 36 } }

theorem tightText_dataOk : DataOk tightText where
  cfg := by decide
  memories := ⟨by decide, by decide, by decide, by decide, by decide, by decide⟩
  tables := ⟨by decide, fun h => absurd h (by decide), fun h => absurd h (by decide), fun h => absurd h (by decide)⟩
  payload := ⟨by decide, by decide⟩
  output := ⟨fun h => absurd h (by decide), by decide⟩

theorem tightPixel_dataOk : DataOk tightPixel where
  cfg := by decide
  memories := ⟨by decide, by decide, by decide, by decide, by decide, by decide⟩
  tables := ⟨by decide, fun h => absurd h (by decide), fun h => absurd h (by decide), fun h => absurd h (by decide)⟩
  payload := ⟨by decide, by decide⟩
  output := ⟨fun h => absurd h (by decide), by decide⟩

/-- The bounds that the statement puts on the entries, the codes, the payload and the container. -/
def leavesRoom (s : State) : Bool :=
  let table := inputTable s
  let cs := huffmanCodes table
  let n := (List.zipWith (fun e c => e.count.toNat * c.length) table cs).sum
  let p := 1 + (n + (8 - n % 8)) / 8
  let l := 17 + 12 * (if s.tag = 0x01#8 then 1 else 0) + (cs.map (fun c => 4 + (c.length + 7) / 8)).sum + p
  decide (table.length ≤ s.cfg.maxK) && cs.all (fun c => decide (c.length ≤ s.cfg.maxCodeLen)) && decide (p ≤ s.cfg.maxPay) &&
  decide (l ≤ s.cfg.maxCont)

/-- The premises hold where every bound is met with equality, for text and for pixels, and MAX_CONT one less is too little. -/
theorem witness_CompressSucceedsOnValidInput :
    (DataOk tightText ∧ tagKnown tightText ∧ 1 ≤ tightText.nLen.toNat ∧ tightText.nLen.toNat ≤ tightText.cfg.maxN ∧
      (∀ i < tightText.nLen.toNat, validAt tightText i) ∧ leavesRoom tightText = true) ∧
    (DataOk tightPixel ∧ tagKnown tightPixel ∧ 1 ≤ tightPixel.nLen.toNat ∧ tightPixel.nLen.toNat ≤ tightPixel.cfg.maxN ∧
      (∀ i < tightPixel.nLen.toNat, validAt tightPixel i) ∧ leavesRoom tightPixel = true) ∧
    leavesRoom { tightText with cfg := { tightText.cfg with maxCont := 33 } } = false ∧
    leavesRoom { tightPixel with cfg := { tightPixel.cfg with maxCont := 35 } } = false := by
  refine ⟨⟨tightText_dataOk, .inl rfl, by decide, by decide, fun i h => ?_, by decide⟩,
    ⟨tightPixel_dataOk, .inr rfl, by decide, by decide, fun i h => ?_, by decide⟩, by decide, by decide⟩
  · have h3 : i < 3 := h
    interval_cases i <;> exact ⟨by decide, fun _ => by decide⟩
  · have h1 : i < 1 := h
    interval_cases i
    exact ⟨by decide, fun h => absurd h (by decide)⟩

theorem witness_DecompressDecodesAcceptableContainers :
    DataOk abcState ∧ Acceptable abcState.cfg 0x00#8 abcCode [0x03#8, 0xB0#8] ∧
    HoldsContainer abcState 0x00#8 0#32 0#32 0#32 abcCode [0x03#8, 0xB0#8] ∧
    (([0x03#8, 0xB0#8] : List Byte).headD 0#8).toNat ≤ 8 * (2 - 1) ∧ (∀ e ∈ abcCode, e ∈ abcCode) ∧
    (([0x03#8, 0xB0#8] : List Byte).tail.flatMap bits8).take
      (8 * (2 - 1) - (([0x03#8, 0xB0#8] : List Byte).headD 0#8).toNat) = abcCode.flatMap CodeEntry.bits ∧
    abcCode.length ≤ abcState.cfg.maxN :=
  ⟨abcState_dataOk, abc_acceptable, abc_holds, by decide, fun _ h => h, by decide, by decide⟩

theorem witness_CompressThenDecompressGivesTheInputBack :
    ∃ t, DataOk abcState ∧ exec .compress abcState = .next t ∧ t.err = false :=
  ⟨_, abcState_dataOk, exec_after _ _, by decide⟩

theorem witness_ResetMeetsTheInvariant : fresh.cfg.wf = true := by decide

theorem witness_EveryStepKeepsTheInvariant :
    ∃ t, Inv abcState ∧ step abcState = .next t := ⟨_, abcState_inv, rfl⟩

end Sys2Proof.Tests
end

section
/-! The capacities of R7, the results that commands compute, and that every command keeps the data part of the
invariant. -/

namespace Sys2Proof.Machine

/-! ## Stages, as rules for a property of the state they leave -/

/-- A property that the invalidation gives and the commit of a computed result gives holds after the stage. -/
theorem stage_keeps {P : State → Prop} {α : Type} {op : Byte} {inv : State → State} {r : Except Reason α}
    {commit : State → α → State} {s : State} (hinv : P (inv s)) (hok : ∀ a, r = .ok a → P (commit (inv s) a)) :
    P (stage op inv r commit s).state := by
  rcases stage_cases op inv r commit s with ⟨why, _, h⟩ | ⟨a, ha, h⟩ <;> rw [h]
  · exact hinv
  · exact hok a ha

/-- A chain of stages whose first part gives `P`, which is enough for the second part to give the weaker `Q`. -/
theorem andThen_weakens {P Q : State → Prop} {c : Completion} {next : State → Completion} (h : P c.state)
    (hPQ : ∀ t, P t → Q t) (hn : ∀ t, P t → Q (next t).state) : Q (c.andThen next).state := by
  rcases andThen_cases c next with ⟨_, h'⟩ | ⟨_, h'⟩ <;> rw [h']
  · exact hn _ h
  · exact hPQ _ h

/-! ## The capacities (00_scope.md R7) -/

/-- The constraints of R7, by name. -/
structure CapacityBounds (c : Config) : Prop where
  maxN : c.maxN < 2 ^ 32
  maxK : c.maxK ≤ 2 ^ 24
  maxCodeLen : c.maxCodeLen ≤ 64
  maxPay : c.maxPay < 2 ^ 29
  maxCont : c.maxCont < 2 ^ 32

theorem capacityBounds_of_wf {c : Config} (h : c.wf = true) : CapacityBounds c := by
  simp only [Config.wf, Bool.and_eq_true, decide_eq_true_eq] at h
  constructor <;> omega

/-- A length that 32 bits hold is read back from its register. -/
theorem toNat_ofNat_length {n : Nat} (h : n < 2 ^ 32) : (BitVec.ofNat 32 n).toNat = n := by
  rw [BitVec.toNat_ofNat, Nat.mod_eq_of_lt h]

/-- The elements that a length register announces after a run of writes from 0 are the list written. -/
theorem slice_writeFrom_register {α : Type} [Inhabited α] [DecidableEq α] {m : Mem α} (hm : m.wf) {xs : List α}
    (h : xs.length < 2 ^ 32) : (m.writeFrom 0 xs).slice (BitVec.ofNat 32 xs.length).toNat = xs := by
  rw [toNat_ofNat_length h, Mem.slice_writeFrom hm]

/-! ## What a successful computation gives -/

/-- COUNT's table is the tally of the symbols and fits into FREQ (41_frequency.md R122). -/
theorem countResult_tally {s : State} {t : List FreqEntry} (h : countResult s = .ok t) :
    TallyOf (s.symbols.map symbolOf) t ∧ t.length ≤ s.cfg.maxK := by
  obtain ⟨-, -, -, -, hc⟩ := countResult_eq_ok h
  have hlen : (s.symbols.map symbolOf).length < 2 ^ 32 := by
    rw [List.length_map, State.symbols, Mem.slice_length]; exact s.nLen.isLt
  rcases countInto_spec (maxK := s.cfg.maxK) TallyOf.nil (Nat.zero_le _) hlen with ⟨t', h1, h2, h3⟩ | ⟨h1, -⟩
  · rw [hc] at h1
    rw [Option.some.inj h1]
    exact ⟨h2, h3⟩
  · rw [hc] at h1; cases h1

/-- The tally of at least one and at most MAX_N symbols is a well-formed frequency table of at least one entry. -/
theorem TallyOf.freqTableOk {cfg : Config} {xs : List Symbol} {t : List FreqEntry} (h : TallyOf xs t)
    (hx : xs.length ≤ cfg.maxN) : FreqTableOk cfg t := by
  refine ⟨h.nodup, fun e he => ?_, by rw [h.sum]; exact hx⟩
  rw [h.count e he]
  exact List.one_le_count_iff.2 ((h.mem _).1 (List.mem_map_of_mem he))

theorem TallyOf.length_pos {xs : List Symbol} {t : List FreqEntry} (h : TallyOf xs t) (hx : xs ≠ []) :
    1 ≤ t.length := by
  obtain ⟨x, hx⟩ := List.exists_mem_of_ne_nil xs hx
  have := List.length_pos_of_mem ((h.mem x).2 hx)
  rwa [List.length_map] at this

/-- The code table that BUILD makes of a frequency table (42_tree_builder.md R148). -/
def builtTable (table : List FreqEntry) : List CodeEntry :=
  List.zipWith (fun e c => codeEntry e.sym c) table (huffmanCodes table)

@[simp] theorem builtTable_length (table : List FreqEntry) : (builtTable table).length = table.length := by
  simp [builtTable]

theorem builtTable_sym (table : List FreqEntry) : (builtTable table).map (·.sym) = table.map (·.sym) := by
  refine List.ext_getElem (by simp) fun k _ _ => ?_
  simp [builtTable, codeEntry]

theorem buildResult_table {s : State} {t : List CodeEntry} (h : buildResult s = .ok t) :
    t = builtTable s.freqTable :=
  (buildResult_eq_ok h).2.2

theorem buildResult_length {s : State} {t : List CodeEntry} (h : buildResult s = .ok t) :
    t.length = s.kCnt.toNat := by
  rw [buildResult_table h, builtTable_length, State.freqTable, Mem.slice_length]

/-- Codes that fit the capacity make a well-formed code table of distinct symbols (42_tree_builder.md R149). -/
theorem builtTable_ok {cfg : Config} (hcfg : CapacityBounds cfg) {table : List FreqEntry}
    (hd : (table.map (·.sym)).Nodup) (hl : ∀ c ∈ huffmanCodes table, c.length ≤ cfg.maxCodeLen) :
    CodeTableOk cfg (builtTable table) := by
  have h64 : ∀ c ∈ huffmanCodes table, c.length ≤ 64 := fun c hc => (hl c hc).trans hcfg.maxCodeLen
  have entry : ∀ k (hk : k < (builtTable table).length), ∃ x, ∃ hc : k < (huffmanCodes table).length,
      (builtTable table)[k] = codeEntry x (huffmanCodes table)[k] := fun k hk =>
    ⟨_, by simpa using hk, List.getElem_zipWith⟩
  refine ⟨fun e he => ?_, ?_, ?_⟩
  · obtain ⟨k, hk, rfl⟩ := List.mem_iff_getElem.1 he
    obtain ⟨x, hc, hx⟩ := entry k hk
    have hm := List.getElem_mem hc
    rw [hx, CodeEntryOk, codeEntry_len (h64 _ hm), codeEntry_val (h64 _ hm)]
    exact ⟨(huffmanCodes_bounds hm).1, hl _ hm, bitsVal_lt _⟩
  · rw [distinctSymbols_iff, builtTable_sym]; exact hd
  · rw [prefixFree_iff, List.pairwise_iff_getElem]
    intro i j hi hj hij
    obtain ⟨x, hci, hxi⟩ := entry i hi
    obtain ⟨y, hcj, hxj⟩ := entry j hj
    rw [hxi, hxj, codeEntry_bits_of_le (h64 _ (List.getElem_mem hci)),
      codeEntry_bits_of_le (h64 _ (List.getElem_mem hcj))]
    exact ⟨fun h => absurd (huffmanCodes_prefix hci hcj h) (by omega),
      fun h => absurd (huffmanCodes_prefix hcj hci h) (by omega)⟩

/-- PACK's registers hold the exact lengths, since MAX_PAY is below 2^29 (00_scope.md R7). -/
theorem commitPack_registers (s : State) {enc : Bits} (hp : payloadLength enc.length < 2 ^ 29) :
    (commitPack s enc).payLen.toNat = payloadLength enc.length ∧
      (commitPack s enc).pad.toNat = paddingCount enc.length ∧ (commitPack s enc).encBits.toNat = enc.length := by
  have hb := paddingCount_bounds enc.length
  have hpl : payloadLength enc.length = 1 + (enc.length + paddingCount enc.length) / 8 := rfl
  rw [commitPack, State.commitPay_payLen, State.commitPay_pad, State.commitPay_encBits, packBytes_length,
    toNat_ofNat_length (by omega), toNat_ofNat_length (by omega), BitVec.toNat_ofNat]
  exact ⟨rfl, Nat.mod_eq_of_lt (by omega), rfl⟩

/-- What UNPACK emits fits into OUT and consists of symbol words (44_bit_unpacker.md R193, R200). -/
theorem unpackResult_output {s : State} {ws : List Word} (h : unpackResult s = .ok ws) :
    ws.length ≤ s.cfg.maxN ∧ ∀ w ∈ ws, wellFormedSymbolWord w = true := by
  obtain ⟨-, -, -, -, hd⟩ := unpackResult_eq_ok h
  exact decodeLoop_output hd (Nat.zero_le _) (by simp)

/-- What SERIALIZE writes fits into CONT (45_container.md R213). -/
theorem serializeResult_length {s : State} {bs : List Byte} (h : serializeResult s = .ok bs) :
    bs.length ≤ s.cfg.maxCont := by
  obtain ⟨-, -, -, -, hl, rfl⟩ := serializeResult_eq_ok h
  exact hl

theorem parseResult_ok {s : State} {r : Parsed} (h : parseResult s = .ok r) : ParsedOk s.cfg r :=
  (parseContainer_eq_ok (parseResult_eq_ok h).2).2

/-! ## The invalidation sets keep the data part of the invariant (10_state.md R48) -/

theorem PayloadOk.of_absent {s : State} (hpv : s.pv = false) (hl : s.payLen = 0#32) (hp : s.pad = 0#8)
    (he : s.encBits = 0#32) : PayloadOk s :=
  ⟨fun h => absurd h (by simp [hpv]), fun _ => ⟨hl, hp, he⟩⟩

theorem OutputOk.of_absent {s : State} (hov : s.ov = false) (hl : s.outLen = 0#32) : OutputOk s :=
  ⟨fun h => absurd h (by simp [hov]), fun _ => hl⟩

theorem TablesOk.of_absent {s : State} (hfv : s.fv = false) (hcv : s.cv = false) : TablesOk s := by
  constructor <;> simp [hfv, hcv]

section
variable {s : State} (h : DataOk s)
include h

theorem DataOk.invalidatePay : DataOk s.invalidatePay where
  cfg := h.cfg
  memories := { h.memories with }
  tables := { h.tables with }
  payload := .of_absent rfl rfl rfl rfl
  output := { h.output with }

theorem DataOk.invalidateCode : DataOk s.invalidateCode where
  cfg := h.cfg
  memories := { h.memories with }
  tables := ⟨fun hv => h.tables.kCnt (.inl (by simpa using hv)), h.tables.freq, by simp, by simp⟩
  payload := .of_absent rfl rfl rfl rfl
  output := { h.output with }

theorem DataOk.invalidateFreq : DataOk s.invalidateFreq where
  cfg := h.cfg
  memories := { h.memories with }
  tables := .of_absent rfl rfl
  payload := .of_absent rfl rfl rfl rfl
  output := { h.output with }

theorem DataOk.invalidateCont : DataOk s.invalidateCont where
  cfg := h.cfg
  memories := { h.memories with }
  tables := { h.tables with }
  payload := { h.payload with }
  output := { h.output with }

theorem DataOk.invalidateOut : DataOk s.invalidateOut where
  cfg := h.cfg
  memories := { h.memories with }
  tables := { h.tables with }
  payload := { h.payload with }
  output := .of_absent rfl rfl

/-! ## The commit sets keep it too -/

/-- COUNT commits a well-formed table while no code table stands. -/
theorem DataOk.commitFreq {t : List FreqEntry} (hcv : s.cv = false) (h1 : 1 ≤ t.length) (hk : t.length ≤ s.cfg.maxK)
    (ht : FreqTableOk s.cfg t) : DataOk (s.commitFreq t) := by
  have hl : t.length < 2 ^ 32 := by have := (capacityBounds_of_wf h.cfg).maxK; omega
  have htable : (s.commitFreq t).freqTable = t := slice_writeFrom_register h.memories.freq.1 hl
  refine ⟨h.cfg, { h.memories with freq := h.memories.freq.writeFrom (by omega) }, ⟨fun _ => ?_, fun _ => ?_, ?_, ?_⟩,
    { h.payload with }, { h.output with }⟩
  · rw [State.commitFreq_kCnt, State.commitFreq_cfg, toNat_ofNat_length hl]; exact ⟨h1, hk⟩
  · rw [htable]; exact ht
  · simp [hcv]
  · simp [hcv]

/-- BUILD commits a well-formed code table with the symbols of the valid frequency table. -/
theorem DataOk.commitCode {t : List CodeEntry} (hfv : s.fv = true) (hpv : s.pv = false) (hl : t.length = s.kCnt.toNat)
    (ht : CodeTableOk s.cfg t) (hsym : t.map (·.sym) = s.freqTable.map (·.sym)) : DataOk (s.commitCode t) := by
  have hk := h.tables.kCnt (.inl hfv)
  have htable : (s.commitCode t).codeTable = t := by
    rw [State.codeTable, State.commitCode_code, State.commitCode_kCnt, ← hl, Mem.slice_writeFrom h.memories.code.1]
  refine ⟨h.cfg, { h.memories with code := h.memories.code.writeFrom (by omega) },
    ⟨fun _ => hk, h.tables.freq, fun _ => ?_, fun _ _ => ?_⟩,
    ⟨fun h' => absurd h' (by simp [hpv]), h.payload.absent⟩, { h.output with }⟩
  · rw [htable]; exact ht
  · rw [htable]; exact hsym

/-- PACK commits a payload under a valid code table (10_state.md R41 to R43). -/
theorem DataOk.commitPack {enc : Bits} (hcv : s.cv = true) (hp : payloadLength enc.length ≤ s.cfg.maxPay) :
    DataOk (Machine.commitPack s enc) := by
  have hcap := (capacityBounds_of_wf h.cfg).maxPay
  have hlen : (packBytes enc).length = payloadLength enc.length := packBytes_length enc
  obtain ⟨hpay, hpad, henc⟩ := commitPack_registers s (enc := enc) (by omega)
  obtain ⟨-, h8, hmod⟩ := paddingCount_bounds enc.length
  have hpl : payloadLength enc.length = 1 + (enc.length + paddingCount enc.length) / 8 := rfl
  have hhead : (Machine.commitPack s enc).pad = (Machine.commitPack s enc).pay.read 0 := by
    have := Mem.read_writeFrom_inside h.memories.pay.1 (base := 0) (xs := packBytes enc) (k := 0) (by omega)
    simpa [Machine.commitPack, packBytes_cons] using this.symm
  refine ⟨h.cfg, { h.memories with pay := h.memories.pay.writeFrom (by omega) }, { h.tables with },
    ⟨fun _ => ⟨hcv, by omega, by rw [hpay]; exact hp, hhead, by omega, .inr (by omega)⟩,
      fun h' => absurd h' (by simp [Machine.commitPack])⟩, { h.output with }⟩

/-- SERIALIZE commits a container that fits. -/
theorem DataOk.commitCont {l : List Byte} (hl : l.length ≤ s.cfg.maxCont) : DataOk (s.commitCont l) where
  cfg := h.cfg
  memories := { h.memories with cont := h.memories.cont.writeFrom (by omega) }
  tables := { h.tables with }
  payload := { h.payload with }
  output := { h.output with }

/-- UNPACK commits symbol words that fit (10_state.md R44). -/
theorem DataOk.commitOut {ws : List Word} (hl : ws.length ≤ s.cfg.maxN)
    (hw : ∀ w ∈ ws, wellFormedSymbolWord w = true) : DataOk (s.commitOut ws) := by
  have hl' : ws.length < 2 ^ 32 := by have := (capacityBounds_of_wf h.cfg).maxN; omega
  have hout : (s.commitOut ws).decoded = ws := slice_writeFrom_register h.memories.out.1 hl'
  refine ⟨h.cfg, { h.memories with out := h.memories.out.writeFrom (by omega) }, { h.tables with },
    { h.payload with }, ⟨fun _ => ⟨?_, ?_⟩, by simp⟩⟩
  · rw [State.commitOut_outLen, State.commitOut_cfg, toNat_ofNat_length hl']; exact hl
  · rw [hout]; exact hw

/-- PARSE commits the tables and the payload of an accepted container; ENC_BITS stays 0 (10_state.md R43). -/
theorem DataOk.commitParsed {r : Parsed} (hfv : s.fv = false) (henc : s.encBits = 0#32) (hr : ParsedOk s.cfg r) :
    DataOk (commitParsed s r) := by
  obtain ⟨hk1, hk2, hk3⟩ := hr.entries
  obtain ⟨hp1, hp2, hp3⟩ := hr.payload
  have htable : (Machine.commitParsed s r).codeTable = r.table := slice_writeFrom_register h.memories.code.1 hk3
  have hhead : (Machine.commitParsed s r).pay.read 0 = r.header.padf := by
    have := Mem.read_writeFrom_inside h.memories.pay.1 (base := 0) (xs := r.payload) (k := 0) hp1
    rw [← hr.header, commitParsed_pay]
    have hget : r.payload[0]? = some r.payload[0] := List.getElem?_eq_getElem hp1
    simpa [List.headD_eq_head?_getD, List.head?_eq_getElem?, hget] using this
  refine ⟨h.cfg, { h.memories with code := h.memories.code.writeFrom (by omega),
                                   pay := h.memories.pay.writeFrom (by omega) },
    ⟨fun _ => ?_, by simp [hfv], fun _ => ?_, by simp [hfv]⟩,
    ⟨fun _ => ⟨rfl, ?_, ?_, hhead.symm, hr.padf, .inl henc⟩, by simp⟩, { h.output with }⟩
  · rw [commitParsed_kCnt, commitParsed_cfg, toNat_ofNat_length hk3]; exact ⟨hk1, hk2⟩
  · rw [htable]
    exact ⟨fun e he => ⟨(hr.readable e he).pos, (hr.readable e he).le, (hr.readable e he).val⟩, hr.distinct, hr.apart⟩
  · rw [commitParsed_payLen, toNat_ofNat_length hp3]; exact hp1
  · rw [commitParsed_payLen, commitParsed_cfg, toNat_ofNat_length hp3]; exact hp2

/-! ## Every command keeps it -/

theorem DataOk.runCount : DataOk (runCount s).state := by
  refine stage_keeps h.invalidateFreq fun t ht => ?_
  obtain ⟨htally, hk⟩ := countResult_tally ht
  obtain ⟨-, hn0, hn, -, -⟩ := countResult_eq_ok ht
  have hlen : (s.symbols.map symbolOf).length = s.nLen.toNat := by simp [State.symbols]
  have hne : s.symbols.map symbolOf ≠ [] := by
    rw [← List.length_pos_iff_ne_nil, hlen]
    exact Nat.pos_of_ne_zero fun h0 => hn0 (BitVec.eq_of_toNat_eq h0)
  exact h.invalidateFreq.commitFreq rfl (htally.length_pos hne) hk (htally.freqTableOk (by rw [hlen]; exact hn))

theorem DataOk.runBuild : DataOk (runBuild s).state := by
  refine stage_keeps h.invalidateCode fun t ht => ?_
  obtain ⟨hfv, hl, -⟩ := buildResult_eq_ok ht
  have hlen := buildResult_length ht
  obtain rfl := buildResult_table ht
  exact h.invalidateCode.commitCode hfv rfl hlen
    (builtTable_ok (capacityBounds_of_wf h.cfg) (h.tables.freq hfv).distinct hl) (builtTable_sym _)

theorem DataOk.runPack : DataOk (runPack s).state := by
  refine stage_keeps h.invalidatePay fun enc henc => ?_
  obtain ⟨hcv, -, -, hp, -⟩ := packResult_eq_ok henc
  exact h.invalidatePay.commitPack hcv hp

theorem DataOk.runSerialize : DataOk (runSerialize s).state :=
  stage_keeps h.invalidateCont fun _ hb => h.invalidateCont.commitCont (serializeResult_length hb)

theorem DataOk.runParse : DataOk (runParse s).state :=
  stage_keeps h.invalidateFreq fun _ hr => h.invalidateFreq.commitParsed rfl rfl (parseResult_ok hr)

theorem DataOk.runUnpack : DataOk (runUnpack s).state := by
  refine stage_keeps h.invalidateOut fun ws hws => ?_
  obtain ⟨hl, hw⟩ := unpackResult_output hws
  exact h.invalidateOut.commitOut hl hw

end

theorem DataOk.completionOf {s : State} (h : DataOk s) (i : Instr) : DataOk (completionOf i s).state := by
  cases i with
  | nop => exact h
  | count => exact h.runCount
  | build => exact h.runBuild
  | pack => exact h.runPack
  | serialize => exact h.runSerialize
  | parse => exact h.runParse
  | unpack => exact h.runUnpack
  | clear => exact h.invalidateFreq.invalidateOut
  | compress =>
    refine andThen_keeps (andThen_keeps (andThen_keeps h.invalidateCont.runCount ?_) ?_) ?_
    · exact fun _ _ ht => ht.runBuild
    · exact fun _ _ ht => ht.runPack
    · exact fun _ _ ht => ht.runSerialize
  | decompress => exact andThen_keeps h.invalidateOut.runParse fun _ _ ht => ht.runUnpack

end Sys2Proof.Machine
end

section
/-! What a host access keeps, what it accepts, and that every step keeps the invariant. -/

open Sys2Proof.Spec

namespace Sys2Proof.Machine

/-! ## The results and the engine memories (10_state.md R31, R40, 20_memory.md R60) -/

/-- Two states with the same valid bits, result registers, engine memories, capacities and schedule. -/
structure SameResults (s t : State) : Prop where
  cfg : t.cfg = s.cfg
  fv : t.fv = s.fv
  cv : t.cv = s.cv
  pv : t.pv = s.pv
  ov : t.ov = s.ov
  kCnt : t.kCnt = s.kCnt
  payLen : t.payLen = s.payLen
  pad : t.pad = s.pad
  encBits : t.encBits = s.encBits
  outLen : t.outLen = s.outLen
  freq : t.freq = s.freq
  code : t.code = s.code
  pay : t.pay = s.pay
  out : t.out = s.out
  input : t.input = s.input

theorem complete_sameResults (c : Completion) : SameResults c.state (complete c) := by constructor <;> simp

/-- A window store writes SYM or CONT only, and within the capacity (20_memory.md R75). -/
theorem windowStore_sameResults (s : State) (d : Word) :
    SameResults s (s.windowStore d) ∧ (s.windowStore d).errInfo = s.errInfo := by
  rcases windowStore_cases s d with ⟨-, -, h⟩ | ⟨-, -, h⟩ | ⟨h, -, -⟩ <;> rw [h] <;>
    exact ⟨by constructor <;> rfl, rfl⟩

theorem writeReg_sameResults (s : State) (r : Reg) (d : Word) :
    SameResults s (writeReg s r d) ∧ (writeReg s r d).errInfo = s.errInfo := by
  cases r
  case winData =>
    obtain ⟨h, he⟩ := windowStore_sameResults s d
    exact ⟨{ h with }, he⟩
  all_goals exact ⟨by constructor <;> rfl, rfl⟩

/-- No host access changes a result. -/
theorem hostStep_sameResults (s : State) (a : HostAccess) :
    SameResults s (hostStep s a) ∧ (hostStep s a).errInfo = s.errInfo := by
  cases a with
  | read off =>
    show SameResults s (busRead s off) ∧ (busRead s off).errInfo = s.errInfo
    rcases busRead_cases s off with ⟨-, -, h⟩ | ⟨-, _, h⟩ <;> rw [h] <;> exact ⟨by constructor <;> rfl, rfl⟩
  | write off d =>
    show SameResults s (busWrite s off d) ∧ (busWrite s off d).errInfo = s.errInfo
    rcases busWrite_cases s off d with ⟨-, h⟩ | ⟨_, -, -, -, h⟩ | ⟨r, -, -, h⟩ <;> rw [h]
    · exact ⟨by constructor <;> rfl, rfl⟩
    · exact ⟨by constructor <;> rfl, rfl⟩
    · exact writeReg_sameResults s r d

/-! ## The host's memories (20_memory.md R75, R84) -/

/-- The memories that the host writes are canonical and within their capacities. -/
def HostMemoriesOk (s : State) : Prop := MemOk s.sym s.cfg.maxN ∧ MemOk s.cont s.cfg.maxCont

theorem HostMemoriesOk.windowStore {s : State} (h : HostMemoriesOk s) (d : Word) :
    HostMemoriesOk (s.windowStore d) := by
  obtain ⟨hsym, hcont⟩ := h
  rcases windowStore_cases s d with ⟨-, hi, e⟩ | ⟨-, hi, e⟩ | ⟨e, -, -⟩ <;> rw [e]
  · exact ⟨hsym.write hi d, hcont⟩
  · exact ⟨hsym, hcont.write hi _⟩
  · exact ⟨hsym, hcont⟩

theorem HostMemoriesOk.hostStep {s : State} (h : HostMemoriesOk s) (a : HostAccess) :
    HostMemoriesOk (hostStep s a) := by
  cases a with
  | read off =>
    show HostMemoriesOk (busRead s off)
    rcases busRead_cases s off with ⟨-, -, e⟩ | ⟨-, _, e⟩ <;> rw [e] <;> exact h
  | write off d =>
    show HostMemoriesOk (busWrite s off d)
    rcases busWrite_cases s off d with ⟨-, e⟩ | ⟨_, -, -, -, e⟩ | ⟨r, -, -, e⟩ <;> rw [e]
    · exact h
    · exact h
    · cases r
      case winData => exact h.windowStore d
      all_goals exact h

/-- The data part of the invariant speaks of the results and the host's memories alone. -/
theorem DataOk.of_sameResults {s t : State} (h : DataOk s) (hst : SameResults s t) (hm : HostMemoriesOk t) :
    DataOk t := by
  obtain ⟨hcfg, hfv, hcv, hpv, hov, hk, hpl, hpad, henc, hol, hfreq, hcode, hpay, hout, -⟩ := hst
  have hft : t.freqTable = s.freqTable := by rw [State.freqTable, hfreq, hk]; rfl
  have hct : t.codeTable = s.codeTable := by rw [State.codeTable, hcode, hk]; rfl
  have hdec : t.decoded = s.decoded := by rw [State.decoded, hout, hol]; rfl
  refine ⟨?_, ⟨hm.1, ?_, ?_, ?_, hm.2, ?_⟩, ⟨?_, ?_, ?_, ?_⟩, ⟨?_, ?_⟩, ⟨?_, ?_⟩⟩ <;>
    simp only [hcfg, hfv, hcv, hpv, hov, hk, hpl, hpad, henc, hol, hfreq, hcode, hpay, hout, hft, hct, hdec]
  · exact h.cfg
  · exact h.memories.freq
  · exact h.memories.code
  · exact h.memories.pay
  · exact h.memories.out
  · exact h.tables.kCnt
  · exact h.tables.freq
  · exact h.tables.code
  · exact h.tables.same
  · exact h.payload.valid
  · exact h.payload.absent
  · exact h.output.valid
  · exact h.output.absent

theorem DataOk.hostMemories {s : State} (h : DataOk s) : HostMemoriesOk s := ⟨h.memories.sym, h.memories.cont⟩

theorem DataOk.hostStep {s : State} (h : DataOk s) (a : HostAccess) : DataOk (hostStep s a) :=
  h.of_sameResults (hostStep_sameResults s a).1 (h.hostMemories.hostStep a)

theorem DataOk.complete {c : Completion} (h : DataOk c.state) : DataOk (complete c) :=
  h.of_sameResults (complete_sameResults c)
    ⟨by simpa using h.memories.sym, by simpa using h.memories.cont⟩

theorem DataOk.resetStep {s : State} (h : s.cfg.wf = true) (c : Contents) : DataOk (resetStep s c) where
  cfg := h
  memories := ⟨.ofPairs _ _, .ofPairs _ _, .ofPairs _ _, .ofPairs _ _, .ofPairs _ _, .ofPairs _ _⟩
  tables := .of_absent rfl rfl
  payload := .of_absent rfl rfl rfl rfl
  output := .of_absent rfl rfl

theorem DataOk.withInput {s : State} (h : DataOk s) (es : List Event) : DataOk { s with input := es } where
  cfg := h.cfg
  memories := { h.memories with }
  tables := { h.tables with }
  payload := { h.payload with }
  output := { h.output with }

/-! ## The status fields (10_state.md R27 to R30) -/

/-- Two states with the same BUSY, DONE, ERR, ERRCODE and ERR_OP, where DONE_PEND may have been acknowledged. -/
structure SameStatus (s t : State) : Prop where
  busy : t.busy = s.busy
  done : t.done = s.done
  err : t.err = s.err
  errcode : t.errcode = s.errcode
  errOp : t.errOp = s.errOp
  donePend : s.donePend = false → t.donePend = false

theorem SameStatus.refl (s : State) : SameStatus s s := by constructor <;> simp

theorem windowStore_sameStatus (s : State) (d : Word) : SameStatus s (s.windowStore d) := by
  rcases windowStore_cases s d with ⟨-, -, h⟩ | ⟨-, -, h⟩ | ⟨h, -, -⟩ <;> rw [h] <;> constructor <;> simp

/-- Only a write of CMD touches them. -/
theorem writeReg_sameStatus (s : State) {r : Reg} (hr : r ≠ .cmd) (d : Word) : SameStatus s (writeReg s r d) := by
  cases r
  case cmd => exact absurd rfl hr
  case winData => exact { windowStore_sameStatus s d with }
  all_goals constructor <;> simp +contextual [writeReg]

/-- A read of any register leaves them alone. -/
theorem busRead_sameStatus (s : State) (off : BitVec 12) : SameStatus s (busRead s off) := by
  rcases busRead_cases s off with ⟨-, -, h⟩ | ⟨-, _, h⟩ <;> rw [h] <;> constructor <;> simp

theorem regAt_eq_cmd {off : BitVec 12} : regAt off = some .cmd ↔ aligned off = 0x020#12 := regAt_eq_some

/-- A write of CMD to an idle block is the one access that moves the status fields (10_state.md R25, R47). -/
theorem busWrite_accepts (s : State) {off : BitVec 12} (hoff : aligned off = 0x020#12) (hb : s.busy = false)
    (d : Word) :
    busWrite s off d = s.accept d := by
  rw [busWrite_of (r := .cmd) hoff, hb]; rfl

theorem busWrite_sameStatus (s : State) {off : BitVec 12} (hno : ¬ (aligned off = 0x020#12 ∧ s.busy = false))
    (d : Word) :
    SameStatus s (busWrite s off d) := by
  rcases busWrite_cases s off d with ⟨-, h⟩ | ⟨_, -, -, -, h⟩ | ⟨r, hr, hl, h⟩ <;> rw [h]
  · exact .refl s
  · constructor <;> simp
  · refine writeReg_sameStatus s (fun hc => hno ?_) d
    subst hc
    exact ⟨regAt_eq_cmd.1 hr, hl.resolve_left (by decide)⟩

/-- A host access accepts a command word, or it leaves the status fields alone. -/
theorem hostStep_status (s : State) (a : HostAccess) :
    (∃ off d, a = .write off d ∧ aligned off = 0x020#12 ∧ s.busy = false ∧ hostStep s a = s.accept d) ∨
    ((∀ off d, a = .write off d → aligned off = 0x020#12 → s.busy = true) ∧ SameStatus s (hostStep s a)) := by
  cases a with
  | read off => exact .inr ⟨nofun, busRead_sameStatus s off⟩
  | write off d =>
    by_cases h : aligned off = 0x020#12 ∧ s.busy = false
    · exact .inl ⟨off, d, rfl, h.1, h.2, busWrite_accepts s h.1 h.2 d⟩
    · refine .inr ⟨fun off' d' he hoff => ?_, busWrite_sameStatus s h d⟩
      cases he
      simpa using fun hb => h ⟨hoff, hb⟩

theorem StatusOk.accept {s : State} (w : Word) : StatusOk (s.accept w) := by constructor <;> simp

theorem StatusOk.complete (c : Completion) : StatusOk (complete c) := by
  constructor <;> cases hf : c.failure <;> simp [hf, ErrCode.number_ne, ErrCode.number_le]

theorem StatusOk.resetStep (s : State) (c : Contents) : StatusOk (resetStep s c) := by constructor <;> simp

theorem StatusOk.of_same {s t : State} (h : StatusOk s) (hs : SameStatus s t) (hr : SameResults s t) : StatusOk t := by
  obtain ⟨hb, hd, he, hc, ho, hp⟩ := hs
  refine ⟨by rw [he, hc]; exact h.errIff, by rw [hc]; exact h.written, by rw [he, ho]; exact h.success,
    by rw [hb, hd, he]; exact h.pending, ?_⟩
  rw [hb, hd, hr.fv, hr.cv, hr.pv, hr.ov, he]
  intro hb' hd'
  obtain ⟨h1, h2, h3, h4, h5, h6⟩ := h.fresh hb' hd'
  exact ⟨h1, h2, h3, h4, h5, hp h6⟩

theorem StatusOk.hostStep {s : State} (h : StatusOk s) (a : HostAccess) : StatusOk (hostStep s a) := by
  rcases hostStep_status s a with ⟨_, d, -, -, -, e⟩ | ⟨-, hs⟩
  · rw [e]; exact .accept d
  · exact h.of_same hs (hostStep_sameResults s a).1

/-! ## The invariant -/

theorem Inv.complete {c : Completion} (h : DataOk c.state) : Inv (complete c) := ⟨h.complete, .complete c⟩

theorem Inv.withInput {s : State} (h : Inv s) (es : List Event) : Inv { s with input := es } :=
  ⟨h.data.withInput es, { h.status with }⟩

/-- The engine's step keeps the invariant: idle, a command, or an illegal word. -/
theorem Inv.engineStep {s t : State} (h : Inv s) (ht : engineStep s = .next t) : Inv t := by
  rcases engineStep_cases s with ⟨-, e⟩ | ⟨-, i, -, e⟩ | ⟨-, -, e⟩ <;> rw [e] at ht <;> cases ht
  · exact h
  · exact .complete (h.data.completionOf i)
  · exact .complete h.data

theorem Inv.step {s t : State} (h : Inv s) (ht : step s = .next t) : Inv t := by
  rcases step_cases s with ⟨-, e⟩ | ⟨rest, -, e⟩ | ⟨a, rest, -, e⟩ | ⟨c, rest, -, e⟩ <;> rw [e] at ht
  · exact h.engineStep ht
  · exact (h.withInput rest).engineStep ht
  · cases ht
    exact ⟨(h.withInput rest).data.hostStep a, (h.withInput rest).status.hostStep a⟩
  · cases ht
    exact ⟨.resetStep (s := { s with input := rest }) h.data.cfg c, .resetStep _ c⟩

/-- Settles O60: the four kinds of step each keep the data part and the status part. -/
theorem everyStepKeepsTheInvariant : Obligations.EveryStepKeepsTheInvariant := fun _ _ h ht => h.step ht

end Sys2Proof.Machine
end

section
/-! The step and the register bus: what moves BUSY, DONE and OVR, and what each register reads and stores. -/

open Sys2Proof.Spec

namespace Sys2Proof.Machine

/-- Settles O23, from the frame of a host access. -/
theorem hostAccessesKeepTheResults : Obligations.HostAccessesKeepTheResults := by
  intro s a
  obtain ⟨h, he⟩ := hostStep_sameResults s a
  exact ⟨h.cfg, h.fv, h.cv, h.pv, h.ov, he, h.kCnt, h.payLen, h.pad, h.encBits, h.outLen, h.freq, h.code, h.pay, h.out,
    h.input⟩

/-! ## What a step is, by the head of the schedule (log entries 1, 2) -/

section
variable {s : State} {rest : List Event}

theorem step_of_empty (h : s.input = []) : step s = engineStep s := by rw [step, h]

theorem step_of_engine (h : s.input = .engine :: rest) : step s = engineStep { s with input := rest } := by
  rw [step, h]

theorem step_of_host {a : HostAccess} (h : s.input = .host a :: rest) :
    step s = .next (hostStep { s with input := rest } a) := by rw [step, h]

theorem step_of_reset {c : Contents} (h : s.input = .reset c :: rest) :
    step s = .next (resetStep { s with input := rest } c) := by rw [step, h]

end

/-- A busy block completes the command that PEND decodes to. -/
theorem engineStep_of_busy {s : State} {i : Instr} (hb : s.busy = true) (hd : decode s.pend = .ok i) :
    engineStep s = exec i s := by
  rw [engineStep, if_pos hb, State.fetch, hd]

theorem engineStep_of_idle {s : State} (hb : s.busy = false) : engineStep s = .next s := by
  rw [engineStep, if_neg (by simp [hb])]

/-- The decoder reads every command back (30_encoding.md R91). -/
theorem decode_encode (i : Instr) : decode (encode i) = .ok i := by cases i <;> decide

/-- Settles O5, one clause for each head of the schedule. -/
theorem stepRunsDecodedCommand : Obligations.StepRunsDecodedCommand := by
  intro s rest
  refine ⟨fun i hb hd => ⟨fun hin => ?_, fun hin => ?_⟩, fun a hin => step_of_host hin, fun c hin => step_of_reset hin,
    fun hb => ⟨fun hin => ?_, fun hin => ?_⟩, fun i => ?_⟩
  · rw [step_of_engine hin]; exact engineStep_of_busy hb hd
  · rw [step_of_empty hin]; exact engineStep_of_busy hb hd
  · rw [step_of_empty hin]; exact engineStep_of_idle hb
  · rw [step_of_engine hin]; exact engineStep_of_idle hb
  · have hw : BitVec.ofNat 32 ((encode i).toNat % 2 ^ 32) = encode i := by
      rw [Nat.mod_eq_of_lt (encode i).isLt, BitVec.ofNat_toNat, BitVec.setWidth_eq]
    rw [State.withFetchWord, hw, step_of_engine rfl]
    exact engineStep_of_busy rfl (decode_encode i)

/-! ## BUSY and DONE (10_state.md R27, R28) -/

/-- The engine's step leaves an idle block as it is, and a busy one idle and done. -/
theorem engineStep_busyDone {s t : State} (h : engineStep s = .next t) :
    (s.busy = false ∧ t = s) ∨ (s.busy = true ∧ t.busy = false ∧ t.done = true) := by
  rcases engineStep_cases s with ⟨hb, e⟩ | ⟨hb, i, -, e⟩ | ⟨hb, -, e⟩ <;> rw [e] at h <;> cases h
  · exact .inl ⟨hb, rfl⟩
  · exact .inr ⟨hb, complete_busy _, complete_done _⟩
  · exact .inr ⟨hb, complete_busy _, complete_done _⟩

/-- Settles O7, by the four kinds of step. -/
theorem busyAndDoneFollowTheCommand : Obligations.BusyAndDoneFollowTheCommand := by
  intro s t ht
  rcases step_cases s with ⟨hin, e⟩ | ⟨rest, hin, e⟩ | ⟨a, rest, hin, e⟩ | ⟨c, rest, hin, e⟩ <;> rw [e] at ht
  · rcases engineStep_busyDone ht with ⟨hb, rfl⟩ | ⟨hb, htb, htd⟩
    · simp [hin, hb]
    · simp [hin, hb, htb, htd]
  · rcases engineStep_busyDone ht with ⟨hb, rfl⟩ | ⟨hb, htb, htd⟩ <;> dsimp only at hb
    · simp [hin, hb]
    · simp [hin, hb, htb, htd]
  · cases ht
    rcases hostStep_status { s with input := rest } a with ⟨off, d, rfl, hoff, hb, e'⟩ | ⟨hno, hs⟩
    · dsimp only at hb
      rw [e']
      simp [hin, hb, hoff]
    · have hbusy : (hostStep { s with input := rest } a).busy = s.busy := hs.busy
      have hdone : (hostStep { s with input := rest } a).done = s.done := hs.done
      have hnone : s.busy = false → ∀ off d, a = .write off d → aligned off ≠ 0x020#12 := by
        intro hb off d ha hoff
        exact absurd (hno off d ha hoff) (by simp [hb])
      rw [hbusy, hdone]
      refine ⟨fun hb => ?_, fun hb => by simp [hin, hb], fun _ hin' => by simp [hin] at hin', fun hb hb' => ?_,
        fun h => absurd rfl h⟩
      · rw [hin]
        refine ⟨fun hb' => absurd hb' (by simp [hb]), ?_⟩
        rintro ⟨off, d, rest', heq, hoff⟩
        cases heq
        exact absurd hoff (hnone hb off d rfl)
      · exact absurd hb' (by simp [hb])
  · cases ht
    simp [hin]

/-! ## The offsets of the registers (10_state.md R22) -/

/-- The named offsets are the offsets of the 26 registers. -/
theorem mem_registerOffsets {off : BitVec 12} : off ∈ registerOffsets ↔ ∃ r : Reg, off = r.offset := by
  have h : registerOffsets = Reg.all.map Reg.offset := rfl
  rw [h, List.mem_map]
  exact ⟨fun ⟨r, _, e⟩ => ⟨r, e.symm⟩, fun ⟨r, e⟩ => ⟨r, r.mem_all, e.symm⟩⟩

theorem mem_lockedOffsets (r : Reg) : r.offset ∈ lockedOffsets ↔ r.locked = true := by cases r <;> decide

theorem regAt_eq_none_of_reserved {off : BitVec 12} (h : aligned off ∉ registerOffsets) : regAt off = none :=
  regAt_eq_none.2 fun r hr => h (mem_registerOffsets.2 ⟨r, hr⟩)

/-- A read-only register is not marked B, and a write leaves the block as it is (10_state.md R46). -/
theorem writeReg_of_readOnly {r : Reg} (h : r.offset ∈ readOnlyOffsets) :
    r.locked = false ∧ ∀ s d, writeReg s r d = s := by
  cases r
  case cmd | status | irqEn | irqStat | format | nLen | shape0 | shape1 | shape2 | contLen | winSel | winIdx
      | winData =>
    exact absurd h (by decide)
  all_goals exact ⟨rfl, fun _ _ => rfl⟩

theorem readOnlyOffsets_subset : readOnlyOffsets ⊆ registerOffsets := by decide

/-! ## Writes by offset -/

section
variable {s : State} {off : BitVec 12} {r : Reg} (d : Word)

theorem busWrite_reserved (h : aligned off ∉ registerOffsets) : busWrite s off d = s := by
  rw [busWrite, regAt_eq_none_of_reserved h]

theorem busWrite_locked (h : aligned off ∈ lockedOffsets) (hb : s.busy = true) : busWrite s off d = s.flagOverrun := by
  have hsub : lockedOffsets ⊆ registerOffsets := by decide
  obtain ⟨r, hr⟩ := mem_registerOffsets.1 (hsub h)
  rw [hr, mem_lockedOffsets] at h
  rw [busWrite_of hr, h, hb]; rfl

theorem busWrite_readOnly (h : aligned off ∈ readOnlyOffsets) : busWrite s off d = s := by
  obtain ⟨r, hr⟩ := mem_registerOffsets.1 (readOnlyOffsets_subset h)
  rw [hr] at h
  obtain ⟨hl, hw⟩ := writeReg_of_readOnly h
  rw [busWrite_of hr, hl, hw]; simp

theorem hostStep_write_idle (hb : s.busy = false) : hostStep s (.write r.offset d) = writeReg s r d := by
  rw [hostStep_write, hb, Bool.and_false]; rfl

theorem hostStep_write_unlocked (hl : r.locked = false) : hostStep s (.write r.offset d) = writeReg s r d := by
  rw [hostStep_write, hl, Bool.false_and]; rfl

end

/-! ## OVR (10_state.md R30) -/

/-- An accepted write of any register but STATUS leaves OVR alone. -/
theorem writeReg_ovr {s : State} {r : Reg} (hr : r ≠ .status) (d : Word) : (writeReg s r d).ovr = s.ovr := by
  cases r
  case status => exact absurd rfl hr
  case winData =>
    rcases windowStore_cases s d with ⟨-, -, h⟩ | ⟨-, -, h⟩ | ⟨h, -, -⟩ <;> rw [writeReg, h] <;> rfl
  all_goals rfl

/-- A write that is neither dropped nor to STATUS leaves OVR alone. -/
theorem busWrite_ovr {s : State} {off : BitVec 12} (d : Word) (hst : aligned off ≠ 0x024#12)
    (hok : aligned off ∉ lockedOffsets ∨ s.busy = false) : (busWrite s off d).ovr = s.ovr := by
  rcases busWrite_cases s off d with ⟨-, e⟩ | ⟨r, hr, hl, hb, -⟩ | ⟨r, hr, -, e⟩
  · rw [e]
  · have hlock : aligned off ∈ lockedOffsets := by
      rw [aligned, regAt_eq_some.1 hr]; exact (mem_lockedOffsets r).2 hl
    rcases hok with h | h
    · exact absurd hlock h
    · rw [hb] at h; cases h
  · rw [e]
    refine writeReg_ovr (fun h => hst ?_) d
    subst h
    exact regAt_eq_some.1 hr

theorem busRead_ovr (s : State) (off : BitVec 12) : (busRead s off).ovr = s.ovr := by
  rcases busRead_cases s off with ⟨-, -, h⟩ | ⟨-, _, h⟩ <;> rw [h]

theorem engineStep_ovr {s t : State} (h : engineStep s = .next t) : t.ovr = s.ovr := by
  rcases engineStep_cases s with ⟨-, e⟩ | ⟨-, i, -, e⟩ | ⟨-, -, e⟩ <;> rw [e] at h <;> cases h
  · rfl
  · rw [complete_ovr, (completionOf_hostSide i s).ovr]
  · rw [complete_ovr]

/-- Settles O8, by the four kinds of step and, for a write, by the register it reaches. -/
theorem overrunIsStickyAndDropsTheWrite : Obligations.OverrunIsStickyAndDropsTheWrite := by
  intro s t ht
  refine ⟨fun off d rest hin => ?_, fun c rest hin => ?_, fun hnw hnr => ?_⟩
  · rw [step_of_host hin] at ht
    cases ht
    exact ⟨fun hl hb => busWrite_locked d hl hb, fun hst => busWrite_of (r := .status) hst,
      fun hst hok => busWrite_ovr d hst hok⟩
  · rw [step_of_reset hin] at ht
    cases ht
    rfl
  · rcases step_cases s with ⟨-, e⟩ | ⟨rest, -, e⟩ | ⟨a, rest, hin, e⟩ | ⟨c, rest, hin, -⟩
    · exact engineStep_ovr (e ▸ ht)
    · rw [e] at ht; exact engineStep_ovr (s := { s with input := rest }) ht
    · rw [e] at ht
      cases ht
      cases a with
      | read off => exact busRead_ovr _ off
      | write off d => exact absurd hin (hnw off d rest)
    · exact absurd hin (hnr c rest)

/-! ## STATUS (10_state.md R26) -/

/-- A field that ends within the word has its bits at its place, and 0 elsewhere. -/
theorem fieldAt_getLsbD_of_le {lo n : Nat} (h : lo + n ≤ 32) (v : BitVec n) (k : Nat) :
    (fieldAt lo v).getLsbD k = (decide (lo ≤ k) && v.getLsbD (k - lo)) := by
  rw [fieldAt_getLsbD]
  by_cases hk : k < 32
  · simp [hk, ← decide_not]
  · rw [BitVec.getLsbD_of_ge v (k - lo) (by omega)]; simp

theorem fieldAt_ofBool_getLsbD {lo : Nat} (h : lo < 32) (b : Bool) (k : Nat) :
    (fieldAt lo (BitVec.ofBool b)).getLsbD k = (decide (k = lo) && b) := by
  rw [fieldAt_getLsbD_of_le h, BitVec.getLsbD_ofBool, ← Bool.and_assoc, ← Bool.decide_and]
  congr 2
  exact propext ⟨fun h => by omega, fun h => by omega⟩

/-- The bits of the STATUS word: each field at its place, 0 elsewhere. -/
theorem statusWord_getLsbD (s : State) (k : Nat) :
    s.statusWord.getLsbD k =
      (decide (k = 0) && s.busy || decide (k = 1) && s.done || decide (k = 2) && s.err || decide (k = 3) && s.ovr ||
        decide (8 ≤ k) && s.errcode.getLsbD (k - 8) || decide (16 ≤ k) && s.errOp.getLsbD (k - 16) ||
        decide (k = 24) && s.fv || decide (k = 25) && s.cv || decide (k = 26) && s.pv || decide (k = 27) && s.ov) := by
  simp only [State.statusWord, BitVec.getLsbD_or, fieldAt_ofBool_getLsbD, Nat.reduceLT]
  rw [fieldAt_getLsbD_of_le (by omega), fieldAt_getLsbD_of_le (by omega)]

theorem statusWord_errcode (s : State) : s.statusWord.extractLsb' 8 4 = s.errcode := by
  refine BitVec.eq_of_getLsbD_eq fun i hi => ?_
  rw [BitVec.getLsbD_extractLsb', statusWord_getLsbD]
  interval_cases i <;> simp

theorem statusWord_errOp (s : State) : s.statusWord.extractLsb' 16 8 = s.errOp := by
  refine BitVec.eq_of_getLsbD_eq fun i hi => ?_
  rw [BitVec.getLsbD_extractLsb', statusWord_getLsbD]
  interval_cases i <;> simp

/-- A bit is reserved if it lies in 7:4, 15:12 or 31:28. -/
theorem statusWord_reserved (s : State) {k : Nat} (hk : k ∈ [4, 5, 6, 7, 12, 13, 14, 15, 28, 29, 30, 31]) :
    s.statusWord.getLsbD k = false := by
  rw [statusWord_getLsbD]
  fin_cases hk <;> simp

/-- The mask of the reserved bits finds none of them set. -/
theorem statusWord_and_reserved (s : State) : s.statusWord &&& 0xF000F0F0#32 = 0#32 := by
  have hmask : ∀ i < 32, (0xF000F0F0#32).getLsbD i = true → i ∈ [4, 5, 6, 7, 12, 13, 14, 15, 28, 29, 30, 31] := by
    decide
  refine BitVec.eq_of_getLsbD_eq fun i hi => ?_
  rw [BitVec.getLsbD_and, BitVec.getLsbD_zero]
  cases hm : (0xF000F0F0#32).getLsbD i with
  | false => rw [Bool.and_false]
  | true => rw [statusWord_reserved s (hmask i hi hm)]; rfl

theorem statusWord_reservedField (s : State) {lo : Nat} (hlo : lo ∈ [4, 12, 28]) :
    s.statusWord.extractLsb' lo 4 = 0#4 := by
  refine BitVec.eq_of_getLsbD_eq fun i hi => ?_
  rw [BitVec.getLsbD_extractLsb', statusWord_reserved s (by fin_cases hlo <;> interval_cases i <;> decide)]
  simp

/-- Settles O13: the read returns the STATUS word, whose bits are known, and the write is not marked B. -/
theorem statusReadsItsFields : Obligations.StatusReadsItsFields := by
  intro s
  refine ⟨?_, ?_, ?_, ?_, statusWord_reservedField s (by decide), statusWord_errcode s,
    statusWord_reservedField s (by decide), statusWord_errOp s, ?_, ?_, ?_, ?_,
    statusWord_reservedField s (by decide), fun d => hostStep_write_unlocked (r := .status) d rfl⟩ <;>
    exact (statusWord_getLsbD s _).trans (by simp)

/-! ## Each register (10_state.md R23 to R46) -/

theorem hostStep_read_rdata (s : State) (r : Reg) : (hostStep s (.read r.offset)).rdata = readReg s r := by
  rw [hostStep_read]

/-- A field of n bits in a register word: the bits above it read 0. -/
theorem setWidth_ushiftRight_width {n : Nat} (v : BitVec n) : v.setWidth 32 >>> n = 0#32 := by
  refine BitVec.eq_of_getLsbD_eq fun i hi => ?_
  simp

theorem setWidth_extract {n : Nat} (h : n ≤ 32) (v : BitVec n) : (v.setWidth 32).extractLsb' 0 n = v := by
  refine BitVec.eq_of_getLsbD_eq fun i hi => ?_
  simp [hi, show i < 32 by omega]

theorem setWidth_ofBool_getLsbD_zero (b : Bool) : ((BitVec.ofBool b).setWidth 32).getLsbD 0 = b := by
  cases b <;> rfl

/-- Settles O15, the three accesses of CMD. -/
theorem commandRegisterAcceptsOneWord : Obligations.CommandRegisterAcceptsOneWord := fun s w =>
  ⟨hostStep_read s .cmd, fun hb => hostStep_write_idle (r := .cmd) w hb,
    fun hb => busWrite_locked (off := 0x020#12) w (by decide) hb⟩

/-- Settles O16, one clause for each access of a register. -/
theorem registersHoldTheirFields : Obligations.RegistersHoldTheirFields := by
  intro s d
  refine ⟨hostStep_write_unlocked (r := .irqEn) d rfl, hostStep_write_unlocked (r := .irqStat) d rfl, ?_, ?_, ?_, ?_,
    hostStep_read_rdata s .nLen, hostStep_read_rdata s .shape0, hostStep_read_rdata s .shape1,
    hostStep_read_rdata s .shape2, hostStep_read_rdata s .contLen, hostStep_read_rdata s .winIdx,
    hostStep_read_rdata s .errInfo, hostStep_read_rdata s .kCnt, hostStep_read_rdata s .payLen, ?_,
    hostStep_read_rdata s .encBits, hostStep_read_rdata s .outLen, fun hb => ⟨?_,
    hostStep_write_idle (r := .nLen) d hb, hostStep_write_idle (r := .shape0) d hb,
    hostStep_write_idle (r := .shape1) d hb, hostStep_write_idle (r := .shape2) d hb,
    hostStep_write_idle (r := .contLen) d hb, ?_, hostStep_write_idle (r := .winIdx) d hb⟩⟩
  · exact setWidth_ofBool_getLsbD_zero s.doneEn
  · exact setWidth_ofBool_getLsbD_zero s.donePend
  · exact setWidth_extract (by omega) s.tag
  · exact setWidth_extract (by omega) s.winSel
  · exact setWidth_extract (by omega) s.pad
  · rw [← BitVec.setWidth_eq_extractLsb' (by omega)]; exact hostStep_write_idle (r := .format) d hb
  · rw [← BitVec.setWidth_eq_extractLsb' (by omega)]; exact hostStep_write_idle (r := .winSel) d hb

/-- Settles O12: the identity and capacity registers are read-only, and their words depend on the capacities alone. -/
theorem identityAndCapacityRegistersAreConstant : Obligations.IdentityAndCapacityRegistersAreConstant := by
  intro s hs
  obtain ⟨hN, hK, hL, hP, hC⟩ := capacityBounds_of_wf hs
  refine ⟨hostStep_read_rdata s .id, hostStep_read_rdata s .version, toNat_ofNat_length hN,
    toNat_ofNat_length (by omega), toNat_ofNat_length (by omega), toNat_ofNat_length (by omega),
    toNat_ofNat_length hC, fun off hoff => ⟨fun d => ?_, fun c => ?_⟩⟩
  · exact busWrite_readOnly d (by fin_cases hoff <;> decide)
  · fin_cases hoff <;> rfl

theorem regAt_congr {off off' : BitVec 12} (h : aligned off = aligned off') : regAt off = regAt off' := by
  unfold aligned at h
  unfold regAt
  rw [h]

theorem aligned_eq_of_extract {off off' : BitVec 12} (h : off.extractLsb' 2 10 = off'.extractLsb' 2 10) :
    aligned off = aligned off' := by
  have hmask : ∀ i < 12, (0xFFC#12).getLsbD i = decide (2 ≤ i) := by decide
  refine BitVec.eq_of_getLsbD_eq fun i hi => ?_
  rw [aligned, aligned, BitVec.getLsbD_and, BitVec.getLsbD_and, hmask i hi]
  by_cases h2 : 2 ≤ i
  · have hbit := congrArg (BitVec.getLsbD · (i - 2)) h
    rw [BitVec.getLsbD_extractLsb', BitVec.getLsbD_extractLsb', Nat.add_sub_cancel' h2] at hbit
    simpa [h2, show i - 2 < 10 by omega] using hbit
  · simp [h2]

/-- Two data words that a register takes alike make the same write. -/
theorem hostStep_write_congr {s : State} {r : Reg} {d d' : Word} (h : writeReg s r d = writeReg s r d') :
    hostStep s (.write r.offset d) = hostStep s (.write r.offset d') := by
  rw [hostStep_write, hostStep_write, h]

/-- A field of n bits is not changed by masking the data with a word whose low n bits are all 1. -/
theorem setWidth_and_mask {n : Nat} {m : Word} (hm : m.setWidth n = BitVec.allOnes n) (d : Word) :
    (d &&& m).setWidth n = d.setWidth n := by
  rw [BitVec.setWidth_and, hm, BitVec.and_allOnes]

theorem getLsbD_and_mask {k : Nat} {m : Word} (hm : m.getLsbD k = true) (d : Word) :
    (d &&& m).getLsbD k = d.getLsbD k := by
  rw [BitVec.getLsbD_and, hm, Bool.and_true]

/-- Settles O14: an offset is the register it reaches, and a field of n bits takes n bits of the data. -/
theorem reservedSpaceReadsZeroAndIgnoresWrites : Obligations.ReservedSpaceReadsZeroAndIgnoresWrites := by
  intro s off d
  refine ⟨fun off' h => ?_, fun h => ⟨?_, busWrite_reserved d h⟩, fun h => busWrite_readOnly d h,
    ⟨setWidth_ushiftRight_width _, setWidth_ushiftRight_width _, setWidth_ushiftRight_width s.tag,
      setWidth_ushiftRight_width s.pad, setWidth_ushiftRight_width s.winSel, ?_⟩, ?_, ?_, ?_, ?_, ?_⟩
  · have hr := regAt_congr (aligned_eq_of_extract h)
    exact ⟨by simp only [hostStep, busRead, hr], by simp only [hostStep, busWrite, hr]⟩
  · rw [hostStep, busRead, regAt_eq_none_of_reserved h]
  · exact statusWord_and_reserved s
  · refine hostStep_write_congr (r := .status) ?_
    simp only [writeReg, State.clearOverrun, getLsbD_and_mask (m := 8#32) (k := 3) rfl]
  · refine hostStep_write_congr (r := .irqEn) ?_
    simp only [writeReg, getLsbD_and_mask (m := 1#32) (k := 0) rfl]
  · refine hostStep_write_congr (r := .irqStat) ?_
    simp only [writeReg, State.acknowledge, getLsbD_and_mask (m := 1#32) (k := 0) rfl]
  · refine hostStep_write_congr (r := .format) ?_
    simp only [writeReg, setWidth_and_mask (m := 0xFF#32) (n := 8) rfl]
  · refine hostStep_write_congr (r := .winSel) ?_
    simp only [writeReg, setWidth_and_mask (m := 7#32) (n := 3) rfl]

end Sys2Proof.Machine
end

section
/-! The commands: the errors that they report, and what they leave unchanged. -/

open Sys2Proof.Spec

namespace Sys2Proof.Machine

/-! ## The errors of the parser and of the decode loop (60_exceptions.md R270) -/

/-- A computation that never fails as an illegal command. -/
def NeverIllegal {α : Type} (x : Except ErrCode α) : Prop := x ≠ .error .illegalCommand

theorem NeverIllegal.ok {α : Type} (a : α) : NeverIllegal (.ok a) := nofun

theorem NeverIllegal.corrupt {α : Type} : NeverIllegal (.error .corruptContainer : Except ErrCode α) := nofun

theorem NeverIllegal.bind {α β : Type} {x : Except ErrCode α} {f : α → Except ErrCode β} (hx : NeverIllegal x)
    (hf : ∀ a, NeverIllegal (f a)) : NeverIllegal (x >>= f) := by
  cases x with
  | error e => exact fun h => hx (by cases h; rfl)
  | ok a => exact hf a

theorem NeverIllegal.require {α : Type} {c : Bool} {e : ErrCode} {f : Unit → Except ErrCode α}
    (he : e ≠ .illegalCommand) (hf : NeverIllegal (f ())) : NeverIllegal (requireThat c e >>= f) := by
  cases c with
  | true => exact hf
  | false => exact fun h => he (by cases h; rfl)

theorem takeBytes_neverIllegal (n : Nat) (bs : List Byte) : NeverIllegal (takeBytes n bs) := by
  unfold takeBytes
  split
  · exact .corrupt
  · exact .ok _

theorem takeNat_neverIllegal (n : Nat) (bs : List Byte) : NeverIllegal (takeNat n bs) := by
  have h := takeBytes_neverIllegal n bs
  unfold takeNat
  cases hf : takeBytes n bs with
  | error e => exact fun h' => h (by rw [hf]; cases h'; rfl)
  | ok p => exact .ok _

theorem parseShape_neverIllegal (tag : Byte) (bs : List Byte) : NeverIllegal (parseShape tag bs) := by
  unfold parseShape
  split
  · refine (takeNat_neverIllegal _ _).bind fun _ => ?_
    refine (takeNat_neverIllegal _ _).bind fun _ => ?_
    exact (takeNat_neverIllegal _ _).bind fun _ => .ok _
  · exact .ok _

theorem parseHeader_neverIllegal (bs : List Byte) : NeverIllegal (parseHeader bs) := by
  unfold parseHeader
  refine (takeBytes_neverIllegal _ _).bind fun _ => .require nofun ?_
  refine (takeBytes_neverIllegal _ _).bind fun _ => .require nofun ?_
  refine (takeBytes_neverIllegal _ _).bind fun _ => .require nofun ?_
  refine (takeBytes_neverIllegal _ _).bind fun _ => .require nofun (.require nofun ?_)
  refine (takeBytes_neverIllegal _ _).bind fun _ => .require nofun ?_
  exact (parseShape_neverIllegal _ _).bind fun _ => .ok _

theorem parseEntry_neverIllegal (maxCodeLen : Nat) (tag : Byte) (bs : List Byte) :
    NeverIllegal (parseEntry maxCodeLen tag bs) := by
  unfold parseEntry
  refine (takeNat_neverIllegal _ _).bind fun _ => .require nofun ?_
  refine (takeNat_neverIllegal _ _).bind fun _ => .require nofun (.require nofun ?_)
  exact (takeNat_neverIllegal _ _).bind fun _ => .require nofun (.ok _)

theorem parseEntries_neverIllegal (maxCodeLen : Nat) (tag : Byte) (k : Nat) (bs : List Byte) :
    NeverIllegal (parseEntries maxCodeLen tag k bs) := by
  induction k generalizing bs with
  | zero => exact .ok _
  | succ k ih => exact (parseEntry_neverIllegal maxCodeLen tag bs).bind fun _ => (ih _).bind fun _ => .ok _

theorem parseContainer_neverIllegal (cfg : Config) (bytes : List Byte) : NeverIllegal (parseContainer cfg bytes) := by
  unfold parseContainer
  split
  · exact .corrupt
  · unfold parseBody
    refine (parseHeader_neverIllegal _).bind fun _ => ?_
    refine (takeNat_neverIllegal _ _).bind fun _ => .require nofun (.require nofun ?_)
    refine (parseEntries_neverIllegal _ _ _ _).bind fun _ => .require nofun (.require nofun ?_)
    refine (takeNat_neverIllegal _ _).bind fun _ => .require nofun (.require nofun ?_)
    exact (takeBytes_neverIllegal _ _).bind fun _ => .require nofun (.require nofun (.ok _))

theorem decodeLoop_neverIllegal (table : List CodeEntry) (maxN : Nat) (acc : Bits) (out : List Word) (bits : Bits) :
    NeverIllegal (decodeLoop table maxN acc out bits) := by
  induction bits generalizing acc out with
  | nil =>
    unfold decodeLoop
    split
    · exact .ok _
    · exact .corrupt
  | cons b bits ih =>
    unfold decodeLoop
    split
    · exact ih _ _
    · split
      · exact nofun
      · exact ih _ _

theorem unpackBytes_neverIllegal (table : List CodeEntry) (maxN : Nat) (bytes : List Byte) :
    NeverIllegal (unpackBytes table maxN bytes) := by
  unfold unpackBytes
  split
  · exact .corrupt
  · split
    · exact .corrupt
    · exact decodeLoop_neverIllegal _ _ _ _ _

/-! ## What a failing command reports (60_exceptions.md R272, R273) -/

/-- A reason that a command may report: a code from 1 to 7, with information only for the two codes that have it. -/
def Reason.Reportable (why : Reason) : Prop :=
  why.code ≠ .illegalCommand ∧ (why.code ≠ .invalidSymbol → why.code ≠ .unencodableSymbol → why.info = 0#32)

theorem Reason.Reportable.plain {c : ErrCode} (h : c ≠ .illegalCommand) : Reportable { code := c, info := 0#32 } :=
  ⟨h, fun _ _ => rfl⟩

/-- The failure of a computation, if it fails, may be reported. -/
def FailsReportably {α : Type} (r : Except Reason α) : Prop := ∀ why, r = .error why → why.Reportable

theorem FailsReportably.ok {α : Type} (a : α) : FailsReportably (.ok a : Except Reason α) := nofun

theorem FailsReportably.error {α : Type} {why : Reason} (h : why.Reportable) :
    FailsReportably (.error why : Except Reason α) := fun _ h' => Except.error.inj h' ▸ h

theorem countResult_reportable (s : State) : FailsReportably (countResult s) := by
  unfold countResult
  split
  · exact .error (.plain nofun)
  split
  · exact .error (.plain nofun)
  split
  · exact .error (.plain nofun)
  split
  · exact .error ⟨nofun, fun h => absurd rfl h⟩
  split
  · exact .error (.plain nofun)
  · exact .ok _

theorem buildResult_reportable (s : State) : FailsReportably (buildResult s) := by
  unfold buildResult
  split
  · exact .error (.plain nofun)
  split
  · exact .error (.plain nofun)
  · exact .ok _

theorem packResult_reportable (s : State) : FailsReportably (packResult s) := by
  unfold packResult
  split
  · exact .error (.plain nofun)
  split
  · exact .error (.plain nofun)
  split
  · exact .error (.plain nofun)
  split
  · exact .error ⟨nofun, fun _ h => absurd rfl h⟩
  split
  · exact .error (.plain nofun)
  · exact .ok _

theorem serializeResult_reportable (s : State) : FailsReportably (serializeResult s) := by
  unfold serializeResult
  split
  · exact .error (.plain nofun)
  split
  · exact .error (.plain nofun)
  split
  · exact .error ⟨nofun, fun h => absurd rfl h⟩
  split
  · exact .error (.plain nofun)
  · exact .ok _

theorem parseResult_reportable (s : State) : FailsReportably (parseResult s) := by
  unfold parseResult
  split
  · exact .error (.plain nofun)
  split
  · rename_i c hc
    exact .error (.plain fun h => parseContainer_neverIllegal _ _ (by rw [hc, h]))
  · exact .ok _

theorem unpackResult_reportable (s : State) : FailsReportably (unpackResult s) := by
  unfold unpackResult
  split
  · exact .error (.plain nofun)
  split
  · rename_i c hc
    exact .error (.plain fun h => unpackBytes_neverIllegal _ _ _ (by rw [hc, h]))
  · exact .ok _

/-- The failure of a completion, if it has one, may be reported. -/
def Completion.Reportable (c : Completion) : Prop := ∀ f, c.failure = some f → f.why.Reportable

theorem stage_reportable {α : Type} {op : Byte} {inv : State → State} {r : Except Reason α}
    {commit : State → α → State} {s : State} (h : FailsReportably r) : (stage op inv r commit s).Reportable := by
  intro f hf
  rcases stage_cases op inv r commit s with ⟨why, hr, e⟩ | ⟨a, _, e⟩ <;> rw [e] at hf <;> cases hf
  exact h why hr

theorem Completion.Reportable.andThen {c : Completion} {next : State → Completion} (hc : c.Reportable)
    (hn : ∀ s, (next s).Reportable) : (c.andThen next).Reportable := by
  rcases andThen_cases c next with ⟨_, h⟩ | ⟨_, h⟩ <;> rw [h]
  · exact hn _
  · exact hc

theorem completionOf_reportable (i : Instr) (s : State) : (completionOf i s).Reportable := by
  have hcount (s : State) : (runCount s).Reportable := stage_reportable (countResult_reportable s)
  have hbuild (s : State) : (runBuild s).Reportable := stage_reportable (buildResult_reportable s)
  have hpack (s : State) : (runPack s).Reportable := stage_reportable (packResult_reportable s)
  have hserialize (s : State) : (runSerialize s).Reportable := stage_reportable (serializeResult_reportable s)
  have hparse (s : State) : (runParse s).Reportable := stage_reportable (parseResult_reportable s)
  have hunpack (s : State) : (runUnpack s).Reportable := stage_reportable (unpackResult_reportable s)
  cases i with
  | nop => exact nofun
  | count => exact hcount s
  | build => exact hbuild s
  | pack => exact hpack s
  | serialize => exact hserialize s
  | parse => exact hparse s
  | unpack => exact hunpack s
  | compress => exact (((hcount _).andThen hbuild).andThen hpack).andThen hserialize
  | decompress => exact (hparse _).andThen hunpack
  | clear => exact nofun

/-- The status fields of a completion that reports one of the codes 1 to 7, or success. -/
theorem complete_errInfo_of_reportable {c : Completion} (h : c.Reportable) :
    (complete c).errcode.toNat ≤ 7 ∧
      ((complete c).errcode ≠ 5#4 → (complete c).errcode ≠ 2#4 → (complete c).errInfo = 0#32) := by
  cases hf : c.failure with
  | none => simp [hf]
  | some f =>
    obtain ⟨hne, hinfo⟩ := h f hf
    rw [complete_errcode, complete_errInfo, hf]
    show f.why.code.number.toNat ≤ 7 ∧ (f.why.code.number ≠ 5#4 → f.why.code.number ≠ 2#4 → f.why.info = 0#32)
    refine ⟨?_, fun h5 h2 => hinfo (fun e => h5 (by rw [e]; rfl)) (fun e => h2 (by rw [e]; rfl))⟩
    cases hc : f.why.code
    case illegalCommand => exact absurd hc hne
    all_goals decide

/-- Settles O21: every command ends in a completion, and what it reports is one of the codes 1 to 7. -/
theorem everyCommandCompletes : Obligations.EveryCommandCompletes := by
  intro i s
  have hs := StatusOk.complete (completionOf i s)
  obtain ⟨hcode, hinfo⟩ := complete_errInfo_of_reportable (completionOf_reportable i s)
  exact ⟨_, exec_eq i s, complete_busy _, complete_done _, complete_donePend _, hs.errIff, hcode, hs.success, hinfo⟩

/-! ## The registers and memories outside a command's sets (10_state.md R48) -/

/-- A command's frame: each register and memory but the host's side stays, unless the command's sets name it. -/
structure CommandFrame (i : Instr) (s t : State) : Prop where
  format : i ∉ [.parse, .decompress] →
    t.tag = s.tag ∧ t.shape0 = s.shape0 ∧ t.shape1 = s.shape1 ∧ t.shape2 = s.shape2
  freq : i ∉ [.count, .compress] → t.freq = s.freq
  fv : i ∉ [.count, .compress, .parse, .decompress, .clear] → t.fv = s.fv ∧ t.kCnt = s.kCnt
  code : i ∉ [.build, .compress, .parse, .decompress] → t.code = s.code
  cv : i ∉ [.count, .build, .compress, .parse, .decompress, .clear] → t.cv = s.cv
  pay : i ∉ [.pack, .compress, .parse, .decompress] → t.pay = s.pay
  pv : i ∈ [.nop, .serialize, .unpack] →
    t.pv = s.pv ∧ t.payLen = s.payLen ∧ t.pad = s.pad ∧ t.encBits = s.encBits
  cont : i ∉ [.serialize, .compress] → t.cont = s.cont ∧ t.contLen = s.contLen
  out : i ∉ [.unpack, .decompress] → t.out = s.out
  ov : i ∉ [.unpack, .decompress, .clear] → t.ov = s.ov ∧ t.outLen = s.outLen

/-- What the stages of COMPRESS leave alone: FORMAT, SHAPE and the output. -/
structure EncodingFrame (s t : State) : Prop where
  tag : t.tag = s.tag
  shape0 : t.shape0 = s.shape0
  shape1 : t.shape1 = s.shape1
  shape2 : t.shape2 = s.shape2
  ov : t.ov = s.ov
  outLen : t.outLen = s.outLen
  out : t.out = s.out

/-- What the stages of DECOMPRESS leave alone: FREQ and the container. -/
structure DecodingFrame (s t : State) : Prop where
  freq : t.freq = s.freq
  cont : t.cont = s.cont
  contLen : t.contLen = s.contLen

section
variable {s t : State}

theorem EncodingFrame.runCount (h : EncodingFrame s t) : EncodingFrame s (runCount t).state :=
  stage_keeps { h with } fun _ _ => { h with }

theorem EncodingFrame.runBuild (h : EncodingFrame s t) : EncodingFrame s (runBuild t).state :=
  stage_keeps { h with } fun _ _ => { h with }

theorem EncodingFrame.runPack (h : EncodingFrame s t) : EncodingFrame s (runPack t).state :=
  stage_keeps { h with } fun _ _ => { h with }

theorem EncodingFrame.runSerialize (h : EncodingFrame s t) : EncodingFrame s (runSerialize t).state :=
  stage_keeps { h with } fun _ _ => { h with }

theorem DecodingFrame.runParse (h : DecodingFrame s t) : DecodingFrame s (runParse t).state :=
  stage_keeps { h with } fun _ _ => { h with }

theorem DecodingFrame.runUnpack (h : DecodingFrame s t) : DecodingFrame s (runUnpack t).state :=
  stage_keeps { h with } fun _ _ => { h with }

theorem EncodingFrame.commandFrame (h : EncodingFrame s t) : CommandFrame .compress s t := by
  obtain ⟨h1, h2, h3, h4, h5, h6, h7⟩ := h
  constructor <;> simp [*]

theorem DecodingFrame.commandFrame (h : DecodingFrame s t) : CommandFrame .decompress s t := by
  obtain ⟨h1, h2, h3⟩ := h
  constructor <;> simp [*]

end

theorem runCompress_frame (s : State) : EncodingFrame s (runCompress s).state := by
  have h0 : EncodingFrame s s.invalidateCont := by constructor <;> rfl
  refine andThen_keeps (andThen_keeps (andThen_keeps h0.runCount ?_) ?_) ?_
  · exact fun _ _ h => h.runBuild
  · exact fun _ _ h => h.runPack
  · exact fun _ _ h => h.runSerialize

theorem runDecompress_frame (s : State) : DecodingFrame s (runDecompress s).state := by
  have h0 : DecodingFrame s s.invalidateOut := by constructor <;> rfl
  exact andThen_keeps h0.runParse fun _ _ h => h.runUnpack

theorem completionOf_frame (i : Instr) (s : State) : CommandFrame i s (completionOf i s).state := by
  cases i with
  | nop => constructor <;> simp [completionOf]
  | count => exact stage_keeps (by constructor <;> simp) fun _ _ => by constructor <;> simp
  | build => exact stage_keeps (by constructor <;> simp) fun _ _ => by constructor <;> simp
  | pack => exact stage_keeps (by constructor <;> simp) fun _ _ => by constructor <;> simp [commitPack]
  | serialize => exact stage_keeps (by constructor <;> simp) fun _ _ => by constructor <;> simp
  | parse => exact stage_keeps (by constructor <;> simp) fun _ _ => by constructor <;> simp
  | unpack => exact stage_keeps (by constructor <;> simp) fun _ _ => by constructor <;> simp
  | compress => exact (runCompress_frame s).commandFrame
  | decompress => exact (runDecompress_frame s).commandFrame
  | clear => constructor <;> simp [completionOf]

/-- The completion step writes status fields alone. -/
theorem CommandFrame.complete {i : Instr} {s : State} {c : Completion} (h : CommandFrame i s c.state) :
    CommandFrame i s (complete c) := by
  obtain ⟨h1, h2, h3, h4, h5, h6, h7, h8, h9, h10⟩ := h
  constructor <;>
    simpa only [complete_tag, complete_shape0, complete_shape1, complete_shape2, complete_freq, complete_fv,
      complete_kCnt, complete_code, complete_cv, complete_pay, complete_pv, complete_payLen, complete_pad,
      complete_encBits, complete_cont, complete_contLen, complete_out, complete_ov, complete_outLen]

/-! ## The elements beyond the lengths (10_state.md R48, 20_memory.md R60) -/

/-- The elements at or beyond the lengths that `t` announces are those of `s`. -/
structure SameBeyond (s t : State) : Prop where
  freq : ∀ j, t.kCnt.toNat ≤ j → t.freq.read j = s.freq.read j
  code : ∀ j, t.kCnt.toNat ≤ j → t.code.read j = s.code.read j
  pay : ∀ j, t.payLen.toNat ≤ j → t.pay.read j = s.pay.read j
  cont : ∀ j, t.contLen.toNat ≤ j → t.cont.read j = s.cont.read j
  out : ∀ j, t.outLen.toNat ≤ j → t.out.read j = s.out.read j

/-- The four length registers of `t` announce no more than those of `u`. -/
structure LengthsLe (t u : State) : Prop where
  kCnt : t.kCnt.toNat ≤ u.kCnt.toNat
  payLen : t.payLen.toNat ≤ u.payLen.toNat
  contLen : t.contLen.toNat ≤ u.contLen.toNat
  outLen : t.outLen.toNat ≤ u.outLen.toNat

/-- A second command that shortens no length reaches no element that the first left alone. -/
theorem SameBeyond.trans {s t u : State} (h : SameBeyond s t) (k : SameBeyond t u) (hl : LengthsLe t u) :
    SameBeyond s u where
  freq j hj := (k.freq j hj).trans (h.freq j (hl.kCnt.trans hj))
  code j hj := (k.code j hj).trans (h.code j (hl.kCnt.trans hj))
  pay j hj := (k.pay j hj).trans (h.pay j (hl.payLen.trans hj))
  cont j hj := (k.cont j hj).trans (h.cont j (hl.contLen.trans hj))
  out j hj := (k.out j hj).trans (h.out j (hl.outLen.trans hj))

/-- A list written from 0 reaches no element at or beyond the length register that announces it. -/
theorem read_writeFrom_beyond {α : Type} [Inhabited α] [DecidableEq α] (m : Mem α) {xs : List α}
    (h : xs.length < 2 ^ 32) {j : Nat} (hj : (BitVec.ofNat 32 xs.length).toNat ≤ j) :
    (m.writeFrom 0 xs).read j = m.read j := by
  rw [toNat_ofNat_length h] at hj
  exact Mem.read_writeFrom_outside (.inr (by omega))

section
variable {s : State} (hs : s.cfg.wf = true)
include hs

theorem runCount_sameBeyond : SameBeyond s (runCount s).state := by
  refine stage_keeps (by constructor <;> simp) fun t ht => ?_
  have hk := (countResult_tally ht).2
  have hb := (capacityBounds_of_wf hs).maxK
  exact ⟨fun j hj => read_writeFrom_beyond _ (by omega) hj, fun _ _ => rfl, fun _ _ => rfl, fun _ _ => rfl,
    fun _ _ => rfl⟩

theorem runPack_sameBeyond : SameBeyond s (runPack s).state := by
  refine stage_keeps (by constructor <;> simp) fun enc henc => ?_
  obtain ⟨-, -, -, hp, -⟩ := packResult_eq_ok henc
  have hb := (capacityBounds_of_wf hs).maxPay
  exact ⟨fun _ _ => rfl, fun _ _ => rfl, fun j hj => read_writeFrom_beyond _ (by rw [packBytes_length]; omega) hj,
    fun _ _ => rfl, fun _ _ => rfl⟩

theorem runSerialize_sameBeyond : SameBeyond s (runSerialize s).state := by
  refine stage_keeps (by constructor <;> simp) fun bs hbs => ?_
  have hl := serializeResult_length hbs
  have hb := (capacityBounds_of_wf hs).maxCont
  exact ⟨fun _ _ => rfl, fun _ _ => rfl, fun _ _ => rfl, fun j hj => read_writeFrom_beyond _ (by omega) hj,
    fun _ _ => rfl⟩

theorem runUnpack_sameBeyond : SameBeyond s (runUnpack s).state := by
  refine stage_keeps (by constructor <;> simp) fun ws hws => ?_
  have hl := (unpackResult_output hws).1
  have hb := (capacityBounds_of_wf hs).maxN
  exact ⟨fun _ _ => rfl, fun _ _ => rfl, fun _ _ => rfl, fun _ _ => rfl,
    fun j hj => read_writeFrom_beyond _ (by omega) hj⟩

end

/-- BUILD writes as many entries as K_CNT announces, and leaves K_CNT alone. -/
theorem runBuild_sameBeyond (s : State) : SameBeyond s (runBuild s).state := by
  refine stage_keeps (by constructor <;> simp) fun t ht => ?_
  have hl := buildResult_length ht
  refine ⟨fun _ _ => rfl, fun j hj => Mem.read_writeFrom_outside (.inr ?_), fun _ _ => rfl, fun _ _ => rfl,
    fun _ _ => rfl⟩
  rw [Nat.zero_add, hl]
  exact hj

theorem runParse_sameBeyond (s : State) : SameBeyond s (runParse s).state := by
  refine stage_keeps (by constructor <;> simp) fun r hr => ?_
  have hok := parseResult_ok hr
  exact ⟨fun _ _ => rfl, fun j hj => read_writeFrom_beyond _ hok.entries.2.2 hj,
    fun j hj => read_writeFrom_beyond _ hok.payload.2.2 hj, fun _ _ => rfl, fun _ _ => rfl⟩

/-! COMPRESS and DECOMPRESS keep each length at 0 until the stage that sets it, so their stages compose. -/

theorem runCount_lengths (t : State) :
    (runCount t).state.payLen = 0#32 ∧ (runCount t).state.contLen = t.contLen :=
  stage_keeps (P := fun u => u.payLen = 0#32 ∧ u.contLen = t.contLen) ⟨rfl, rfl⟩ fun _ _ => ⟨rfl, rfl⟩

theorem runBuild_lengths (t : State) (hp : t.payLen = 0#32) :
    LengthsLe t (runBuild t).state ∧ (runBuild t).state.payLen = 0#32 ∧ (runBuild t).state.contLen = t.contLen :=
  stage_keeps (P := fun u => LengthsLe t u ∧ u.payLen = 0#32 ∧ u.contLen = t.contLen)
    ⟨by constructor <;> simp [hp], rfl, rfl⟩ fun _ _ => ⟨by constructor <;> simp [hp], rfl, rfl⟩

theorem runPack_lengths (t : State) (hp : t.payLen = 0#32) :
    LengthsLe t (runPack t).state ∧ (runPack t).state.contLen = t.contLen :=
  stage_keeps (P := fun u => LengthsLe t u ∧ u.contLen = t.contLen)
    ⟨by constructor <;> simp [hp], rfl⟩ fun _ _ => ⟨by constructor <;> simp [hp, commitPack], rfl⟩

theorem runSerialize_lengths (t : State) (hc : t.contLen = 0#32) : LengthsLe t (runSerialize t).state :=
  stage_keeps (by constructor <;> simp [hc]) fun _ _ => by constructor <;> simp [hc]

theorem runUnpack_lengths (t : State) (ho : t.outLen = 0#32) : LengthsLe t (runUnpack t).state :=
  stage_keeps (by constructor <;> simp [ho]) fun _ _ => by constructor <;> simp [ho]

/-- COMPRESS before PACK: nothing is announced of PAY and CONT. -/
structure BeforePack (s t : State) : Prop where
  cfg : t.cfg.wf = true
  beyond : SameBeyond s t
  payLen : t.payLen = 0#32
  contLen : t.contLen = 0#32

/-- COMPRESS before SERIALIZE: nothing is announced of CONT. -/
structure BeforeSerialize (s t : State) : Prop where
  cfg : t.cfg.wf = true
  beyond : SameBeyond s t
  contLen : t.contLen = 0#32

theorem wf_of_hostSide {s t : State} (hs : s.cfg.wf = true) (h : HostSide s t) : t.cfg.wf = true := by
  rw [h.cfg]; exact hs

theorem BeforePack.runCount {s : State} (hs : s.cfg.wf = true) : BeforePack s (runCount s.invalidateCont).state := by
  obtain ⟨hp, hc⟩ := runCount_lengths s.invalidateCont
  exact ⟨wf_of_hostSide (s := s.invalidateCont) hs (runCount_hostSide _),
    { runCount_sameBeyond (s := s.invalidateCont) hs with }, hp, hc⟩

theorem BeforePack.runBuild {s t : State} (h : BeforePack s t) : BeforePack s (runBuild t).state := by
  obtain ⟨hl, hp, hc⟩ := runBuild_lengths t h.payLen
  exact ⟨wf_of_hostSide h.cfg (runBuild_hostSide t), h.beyond.trans (runBuild_sameBeyond t) hl, hp, hc.trans h.contLen⟩

theorem BeforePack.beforeSerialize {s t : State} (h : BeforePack s t) : BeforeSerialize s t :=
  ⟨h.cfg, h.beyond, h.contLen⟩

theorem BeforePack.runPack {s t : State} (h : BeforePack s t) : BeforeSerialize s (runPack t).state := by
  obtain ⟨hl, hc⟩ := runPack_lengths t h.payLen
  exact ⟨wf_of_hostSide h.cfg (runPack_hostSide t), h.beyond.trans (runPack_sameBeyond h.cfg) hl, hc.trans h.contLen⟩

theorem BeforeSerialize.runSerialize {s t : State} (h : BeforeSerialize s t) : SameBeyond s (runSerialize t).state :=
  h.beyond.trans (runSerialize_sameBeyond h.cfg) (runSerialize_lengths t h.contLen)

theorem runCompress_sameBeyond {s : State} (hs : s.cfg.wf = true) : SameBeyond s (runCompress s).state := by
  have hpack : BeforePack s ((runCount s.invalidateCont).andThen runBuild).state :=
    andThen_keeps (BeforePack.runCount hs) fun _ _ h => h.runBuild
  have hserialize : BeforeSerialize s (((runCount s.invalidateCont).andThen runBuild).andThen runPack).state :=
    andThen_weakens hpack (fun _ h => h.beforeSerialize) fun _ h => h.runPack
  exact andThen_weakens hserialize (fun _ h => h.beyond) fun _ h => h.runSerialize

/-- DECOMPRESS before UNPACK: nothing is announced of OUT. -/
structure BeforeUnpack (s t : State) : Prop where
  cfg : t.cfg.wf = true
  beyond : SameBeyond s t
  outLen : t.outLen = 0#32

theorem BeforeUnpack.runParse {s : State} (hs : s.cfg.wf = true) : BeforeUnpack s (runParse s.invalidateOut).state := by
  refine ⟨wf_of_hostSide (s := s.invalidateOut) hs (runParse_hostSide _),
    { runParse_sameBeyond s.invalidateOut with }, ?_⟩
  exact stage_keeps (P := fun u => u.outLen = 0#32) rfl fun _ _ => rfl

theorem BeforeUnpack.runUnpack {s t : State} (h : BeforeUnpack s t) : SameBeyond s (runUnpack t).state :=
  h.beyond.trans (runUnpack_sameBeyond h.cfg) (runUnpack_lengths t h.outLen)

theorem completionOf_sameBeyond (i : Instr) {s : State} (hs : s.cfg.wf = true) :
    SameBeyond s (completionOf i s).state := by
  cases i with
  | nop => constructor <;> exact fun _ _ => rfl
  | count => exact runCount_sameBeyond hs
  | build => exact runBuild_sameBeyond s
  | pack => exact runPack_sameBeyond hs
  | serialize => exact runSerialize_sameBeyond hs
  | parse => exact runParse_sameBeyond s
  | unpack => exact runUnpack_sameBeyond hs
  | compress => exact runCompress_sameBeyond hs
  | decompress => exact andThen_weakens (BeforeUnpack.runParse hs) (fun _ h => h.beyond) fun _ h => h.runUnpack
  | clear => constructor <;> exact fun _ _ => rfl

theorem SameBeyond.complete {s : State} {c : Completion} (h : SameBeyond s c.state) : SameBeyond s (complete c) := by
  obtain ⟨h1, h2, h3, h4, h5⟩ := h
  constructor <;>
    simpa only [complete_kCnt, complete_payLen, complete_contLen, complete_outLen, complete_freq, complete_code,
      complete_pay, complete_cont, complete_out]

/-- Settles O22: the host's side, the frame by register and memory, and the frame by element. -/
theorem commandsWriteOnlyTheirSets : Obligations.CommandsWriteOnlyTheirSets := by
  intro i s t ht
  rw [exec_eq] at ht
  cases ht
  obtain ⟨hcfg, hovr, hpend, hen, hn, hsel, hidx, hsym, hrd, hin⟩ :=
    (completionOf_hostSide i s).trans (HostSide.complete _)
  obtain ⟨hformat, hfreq, hfv, hcode, hcv, hpay, hpv, hcont, hout, hov⟩ := (completionOf_frame i s).complete
  refine ⟨⟨hcfg, hovr, hpend, hen, hn, hsel, hidx, hsym, hrd, hin⟩, hformat, hfreq, hfv, hcode, hcv, hpay, hpv, hcont,
    hout, hov, fun hs j => ?_⟩
  obtain ⟨bfreq, bcode, bpay, bcont, bout⟩ := (completionOf_sameBeyond i hs).complete
  exact ⟨fun hj => ⟨bfreq j hj, bcode j hj⟩, bpay j, bcont j, bout j⟩

end Sys2Proof.Machine
end

section
/-! The window onto the memories, what the host can do while a command is pending, and that the block never stops
(20_memory.md). -/

open Sys2Proof.Spec

namespace Sys2Proof.Machine

/-! ## WIN_DATA accesses of an idle block (20_memory.md R74 to R76) -/

section
variable {s : State} {off : BitVec 12}

theorem hostStep_read_winData_idle (hoff : aligned off = 0x088#12) (hb : s.busy = false) :
    hostStep s (.read off) = { s with winIdx := s.winIdx + 1#32, rdata := s.windowView } := by
  rcases busRead_cases s off with ⟨-, -, h⟩ | ⟨hno, -⟩
  · exact h
  · exact absurd ⟨regAt_eq_some.2 hoff, hb⟩ hno

theorem hostStep_read_winData_busy (hoff : aligned off = 0x088#12) (hb : s.busy = true) :
    hostStep s (.read off) = { s with rdata := 0#32 } := by
  rw [hostStep, busRead_of (r := .winData) hoff, afterRead, readReg, if_pos hb, if_pos hb]

theorem hostStep_write_winData_idle (hoff : aligned off = 0x088#12) (hb : s.busy = false) (d : Word) :
    hostStep s (.write off d) = (s.windowStore d).bumpIndex := by
  rw [hostStep, busWrite_of (r := .winData) hoff, hb]; rfl

end

/-- A window store changes nothing but SYM and CONT. -/
theorem windowStore_frame (s : State) (d : Word) :
    s.windowStore d = { s with sym := (s.windowStore d).sym, cont := (s.windowStore d).cont } := by
  rcases windowStore_cases s d with ⟨-, -, h⟩ | ⟨-, -, h⟩ | ⟨h, -, -⟩ <;> rw [h]

@[simp] theorem windowStore_winIdx (s : State) (d : Word) : (s.windowStore d).winIdx = s.winIdx := by
  rw [windowStore_frame]

/-- Settles O17: the WIN_DATA accesses of an idle and of a busy block, and the reads of any other offset. -/
theorem onlyWindowReadsHaveASideEffect : Obligations.OnlyWindowReadsHaveASideEffect := by
  intro s off d
  refine ⟨fun hoff hb => ⟨?_, ?_⟩, hostStep_read_winData_busy, fun hoff => ?_⟩
  · rw [hostStep_read_winData_idle hoff hb]
  · rw [hostStep_write_winData_idle hoff hb, State.bumpIndex_winIdx, windowStore_winIdx]
  · rcases busRead_cases s off with ⟨hr, -, -⟩ | ⟨-, v, h⟩
    · exact absurd (regAt_eq_some.1 hr) hoff
    · rw [hostStep, h]

/-! ## The element that a window store writes (20_memory.md R75) -/

theorem windowStore_sym_read {s : State} (hm : s.sym.wf) (d : Word) (j : Nat) :
    (s.windowStore d).sym.read j =
      if s.winSel = 0#3 ∧ s.winIdx.toNat < s.cfg.maxN ∧ j = s.winIdx.toNat then d else s.sym.read j := by
  rcases windowStore_cases s d with ⟨hsel, hi, h⟩ | ⟨hsel, -, h⟩ | ⟨h, hno, -⟩ <;> rw [h]
  · simp [hsel, hi, Mem.read_write hm]
  · simp [hsel]
  · exact (if_neg fun hc => hno ⟨hc.1, hc.2.1⟩).symm

theorem windowStore_cont_read {s : State} (hm : s.cont.wf) (d : Word) (j : Nat) :
    (s.windowStore d).cont.read j =
      if s.winSel = 4#3 ∧ s.winIdx.toNat < s.cfg.maxCont ∧ j = s.winIdx.toNat then d.extractLsb' 0 8
      else s.cont.read j := by
  rcases windowStore_cases s d with ⟨hsel, -, h⟩ | ⟨hsel, hi, h⟩ | ⟨h, -, hno⟩ <;> rw [h]
  · simp [hsel]
  · simp [hsel, hi, Mem.read_write hm, BitVec.setWidth_eq_extractLsb']
  · exact (if_neg fun hc => hno ⟨hc.1, hc.2.1⟩).symm

/-- Settles O18: a busy block drops the write, an idle one makes the window store. -/
theorem windowWriteStoresOneElement : Obligations.WindowWriteStoresOneElement := by
  intro s d hs
  obtain ⟨⟨hsym, -⟩, hcont, -⟩ := hs.hostMemories
  refine ⟨fun hb => busWrite_locked (off := 0x088#12) d (by decide) hb, fun hb => ?_⟩
  rw [hostStep_write_winData_idle rfl hb]
  refine ⟨?_, windowStore_sym_read hsym d, windowStore_cont_read hcont d⟩
  rw [State.bumpIndex, windowStore_frame]

/-! ## The views (20_memory.md R66 to R71) -/

section
variable {s : State} {j : Nat}

theorem viewFreq_valid (hv : s.fv = true) (hk : j / 2 < s.kCnt.toNat) :
    viewFreq s j = if j % 2 = 0 then (s.freq.read (j / 2)).sym.setWidth 32 else (s.freq.read (j / 2)).count := by
  simp [viewFreq, hv, hk]

theorem viewFreq_masked (h : s.fv = false ∨ s.kCnt.toNat ≤ j / 2) : viewFreq s j = 0#32 := by
  rcases h with h | h <;> simp [viewFreq, h]

theorem viewCode_masked (h : s.cv = false ∨ s.kCnt.toNat ≤ j / 4) : viewCode s j = 0#32 := by
  rcases h with h | h <;> simp [viewCode, h]

section
variable (hv : s.cv = true) (hk : j / 4 < s.kCnt.toNat)
include hv hk

theorem viewCode_sym (hr : j % 4 = 0) : viewCode s j = (s.code.read (j / 4)).sym.setWidth 32 := by
  simp [viewCode, hv, hk, hr]

theorem viewCode_len (hr : j % 4 = 1) : viewCode s j = (s.code.read (j / 4)).len.setWidth 32 := by
  simp [viewCode, hv, hk, hr]

theorem viewCode_valHigh (hr : j % 4 = 2) : viewCode s j = (s.code.read (j / 4)).val.extractLsb' 32 32 := by
  simp [viewCode, hv, hk, hr]

theorem viewCode_valLow (hr : j % 4 = 3) : viewCode s j = (s.code.read (j / 4)).val.extractLsb' 0 32 := by
  simp [viewCode, hv, hk, hr]

end

end

theorem viewPay_toNat (s : State) (j : Nat) :
    (viewPay s j).toNat = if s.pv = true ∧ j < s.payLen.toNat then (s.pay.read j).toNat else 0 := by
  rw [viewPay]
  simp only [Bool.and_eq_true, decide_eq_true_eq]
  split
  · exact BitVec.toNat_setWidth_of_le (by omega)
  · rfl

theorem viewCont_toNat (s : State) (j : Nat) :
    (viewCont s j).toNat = if j < s.cfg.maxCont then (s.cont.read j).toNat else 0 := by
  rw [viewCont]
  split
  · exact BitVec.toNat_setWidth_of_le (by omega)
  · rfl

theorem viewOut_eq (s : State) (j : Nat) :
    viewOut s j = if s.ov = true ∧ j < s.outLen.toNat then s.out.read j else 0#32 := by
  simp [viewOut]

/-- The view that each selection shows (20_memory.md R60, R71). -/
theorem windowView_of_winSel (s : State) :
    (s.winSel = 0#3 → s.windowView = viewSym s s.winIdx.toNat) ∧
    (s.winSel = 1#3 → s.windowView = viewFreq s s.winIdx.toNat) ∧
    (s.winSel = 2#3 → s.windowView = viewCode s s.winIdx.toNat) ∧
    (s.winSel = 3#3 → s.windowView = viewPay s s.winIdx.toNat) ∧
    (s.winSel = 4#3 → s.windowView = viewCont s s.winIdx.toNat) ∧
    (s.winSel = 5#3 → s.windowView = viewOut s s.winIdx.toNat) ∧
    (s.winSel = 6#3 ∨ s.winSel = 7#3 → s.windowView = 0#32) := by
  refine ⟨?_, ?_, ?_, ?_, ?_, ?_, fun h => h.elim ?_ ?_⟩ <;> exact fun h => by rw [State.windowView, h]; rfl

/-- Settles O19, selection by selection. -/
theorem windowReadsAreMaskedByTheValidBits : Obligations.WindowReadsAreMaskedByTheValidBits := by
  intro s hb
  rw [hostStep_read_winData_idle rfl hb]
  obtain ⟨hsym, hfreq, hcode, hpay, hcont, hout, hnone⟩ := windowView_of_winSel s
  refine ⟨hsym, fun h => ?_, fun h => ?_, fun h => ?_, fun h => ?_, fun h => (hout h).trans (viewOut_eq s _), hnone⟩ <;>
    dsimp only
  · rw [hfreq h]
    refine ⟨fun hv hk => ⟨fun hr => ?_, fun hr => ?_⟩, viewFreq_masked⟩ <;> rw [viewFreq_valid hv hk]
    · rw [if_pos hr]; exact BitVec.toNat_setWidth_of_le (by omega)
    · exact if_neg (by omega)
  · rw [hcode h]
    refine ⟨fun hv hk => ⟨fun hr => ?_, fun hr => ?_, fun hr => ?_, fun hr => ?_⟩, viewCode_masked⟩
    · rw [viewCode_sym hv hk hr]; exact BitVec.toNat_setWidth_of_le (by omega)
    · rw [viewCode_len hv hk hr]; exact BitVec.toNat_setWidth_of_le (by omega)
    · rw [viewCode_valHigh hv hk hr, BitVec.extractLsb'_toNat, Nat.shiftRight_eq_div_pow]
      omega
    · rw [viewCode_valLow hv hk hr, BitVec.extractLsb'_toNat, Nat.shiftRight_zero]
  · rw [hpay h]; exact viewPay_toNat s _
  · rw [hcont h]; exact viewCont_toNat s _

/-! ## The host while a command is pending (20_memory.md R81, 70_reset_and_hazards.md R304) -/

/-- The two states agree but for OVR, the interrupt registers and the read data. -/
def AgreeForEngine (s t : State) : Prop :=
  ∃ ovr doneEn donePend rdata, t = { s with ovr := ovr, doneEn := doneEn, donePend := donePend, rdata := rdata }

theorem AgreeForEngine.refl (s : State) : AgreeForEngine s s := ⟨_, _, _, _, rfl⟩

theorem AgreeForEngine.trans {s t u : State} (h : AgreeForEngine s t) (k : AgreeForEngine t u) :
    AgreeForEngine s u := by
  obtain ⟨_, _, _, _, rfl⟩ := h
  obtain ⟨ovr, doneEn, donePend, rdata, rfl⟩ := k
  exact ⟨ovr, doneEn, donePend, rdata, rfl⟩

theorem AgreeForEngine.busy {s t : State} (h : AgreeForEngine s t) : t.busy = s.busy := by
  obtain ⟨_, _, _, _, rfl⟩ := h; rfl

/-- The registers not marked B are STATUS, the interrupt registers and the read-only ones. -/
theorem writeReg_unlocked_agrees (s : State) {r : Reg} (hr : r.locked = false) (d : Word) :
    AgreeForEngine s (writeReg s r d) := by
  cases r
  case cmd | format | nLen | shape0 | shape1 | shape2 | contLen | winSel | winIdx | winData => cases hr
  all_goals exact ⟨_, _, _, _, rfl⟩

theorem hostStep_busy_agrees {s : State} (hb : s.busy = true) (a : HostAccess) : AgreeForEngine s (hostStep s a) := by
  cases a with
  | read off =>
    rcases busRead_cases s off with ⟨-, hidle, -⟩ | ⟨-, v, h⟩
    · rw [hb] at hidle; cases hidle
    · exact ⟨_, _, _, _, h⟩
  | write off d =>
    rcases busWrite_cases s off d with ⟨-, h⟩ | ⟨_, -, -, -, h⟩ | ⟨r, -, hl, h⟩ <;> rw [hostStep, h]
    · exact .refl s
    · exact ⟨_, _, _, _, rfl⟩
    · exact writeReg_unlocked_agrees s (hl.resolve_right (by simp [hb])) d

theorem hostSteps_busy_agrees (l : List HostAccess) :
    ∀ {s : State}, s.busy = true → AgreeForEngine s (hostSteps s l) := by
  induction l with
  | nil => exact fun _ => .refl _
  | cons a l ih =>
    intro s hb
    have ha : AgreeForEngine s (hostStep s a) := hostStep_busy_agrees hb a
    exact ha.trans (ih (ha.busy.trans hb))

/-- Settles O25, by induction on the accesses. -/
theorem pendingCommandSeesTheAcceptedState : Obligations.PendingCommandSeesTheAcceptedState := by
  intro s l hb
  obtain ⟨_, _, _, _, h⟩ := hostSteps_busy_agrees l hb
  dsimp only
  rw [h]

/-! ## Totality (20_memory.md R63, 93_implementation_defined.md) -/

theorem engineStep_total (s : State) : ∃ t, engineStep s = .next t := by
  rcases engineStep_cases s with ⟨-, h⟩ | ⟨-, _, -, h⟩ | ⟨-, -, h⟩ <;> exact ⟨_, h⟩

/-- Settles O6, by the four kinds of step. -/
theorem everyStateHasANextState : Obligations.EveryStateHasANextState := by
  intro s
  rcases step_cases s with ⟨-, h⟩ | ⟨rest, -, h⟩ | ⟨_, _, -, h⟩ | ⟨_, _, -, h⟩
  · rw [h]; exact engineStep_total s
  · rw [h]; exact engineStep_total { s with input := rest }
  · exact ⟨_, h⟩
  · exact ⟨_, h⟩

end Sys2Proof.Machine
end

section
/-! Command words: the decoder answers a command exactly for its own word, and every other word completes as illegal
(30_encoding.md R90 to R93). -/

open Sys2Proof.Spec

namespace Sys2Proof.Machine

/-- A word with the RSV field 0 is its OP field zero-extended (30_encoding.md R90). -/
theorem opField_setWidth_of_rsvField {w : Word} (h : rsvField w = 0#24) : (opField w).setWidth 32 = w := by
  have hr := congrArg BitVec.toNat h
  rw [rsvField, BitVec.extractLsb'_toNat, Nat.shiftRight_eq_div_pow] at hr
  refine BitVec.eq_of_toNat_eq ?_
  rw [opField, BitVec.toNat_setWidth, BitVec.extractLsb'_toNat, Nat.shiftRight_zero]
  have hw := w.isLt
  simp only [BitVec.toNat_ofNat] at hr
  omega

/-- Each row of the opcode table pairs a command with its opcode (30_encoding.md R91). -/
theorem opcodeRows_opcode : ∀ r ∈ opcodeRows, r.1 = opcode r.2 := by decide

/-- A word selects a command exactly when it is the command's own word (30_encoding.md R91). -/
theorem decode_eq_ok_iff {w : Word} {i : Instr} : decode w = .ok i ↔ w = encode i := by
  refine ⟨fun h => ?_, fun h => h ▸ decode_encode i⟩
  unfold decode at h
  split at h
  · cases h
  · rename_i hrsv
    split at h
    · rename_i r hfind
      obtain rfl := Except.ok.inj h
      have hop : r.1 = opField w := by simpa using List.find?_some hfind
      rw [encode, ← opcodeRows_opcode r (List.mem_of_find?_eq_some hfind), hop,
        opField_setWidth_of_rsvField (not_not.1 hrsv)]
    · cases h

/-- Settles O1: the ten words are the encoded commands. -/
theorem wordSelectsCommandExactly : Obligations.WordSelectsCommandExactly := fun _ =>
  ⟨decode_eq_ok_iff, decode_eq_ok_iff, decode_eq_ok_iff, decode_eq_ok_iff, decode_eq_ok_iff, decode_eq_ok_iff,
    decode_eq_ok_iff, decode_eq_ok_iff, decode_eq_ok_iff, decode_eq_ok_iff⟩

/-- Settles O2: the five words are encoded commands. -/
theorem tableWordsDecode : Obligations.TableWordsDecode :=
  ⟨decode_encode .nop, decode_encode .count, decode_encode .serialize, decode_encode .decompress, decode_encode .clear⟩

/-- The number of a command word is decoded like the word (30_encoding.md R93). -/
theorem decodeTableWord_toNat {w : Word} {i : Instr} (h : decode w = .ok i) : decodeTableWord 32 w.toNat = some i := by
  have hw := w.isLt
  rw [decodeTableWord, Nat.mod_eq_of_lt hw, if_pos hw, BitVec.ofNat_toNat, BitVec.setWidth_eq, h]

/-- Settles O3: the round trip of words carries over to their numbers. -/
theorem decodeInvertsEncode : Obligations.DecodeInvertsEncode := fun i _ =>
  ⟨decode_encode i, decodeTableWord_toNat (decode_encode i)⟩

/-! ## Illegal words (30_encoding.md R92, 46_control.md R254) -/

/-- The fields of every command's word. -/
theorem encoding_statement (i : Instr) : Laws.Encoding.Statement i := by
  cases i with
  | nop => exact Laws.Encoding.nop
  | count => exact Laws.Encoding.count
  | build => exact Laws.Encoding.build
  | pack => exact Laws.Encoding.pack
  | serialize => exact Laws.Encoding.serialize
  | parse => exact Laws.Encoding.parse
  | unpack => exact Laws.Encoding.unpack
  | compress => exact Laws.Encoding.compress
  | decompress => exact Laws.Encoding.decompress
  | clear => exact Laws.Encoding.clear

/-- A word with a nonzero RSV field or an unassigned opcode names no command. -/
theorem decode_error_of_illegal {w : Word}
    (h : rsvField w ≠ 0#24 ∨ (0x09 ≤ (opField w).toNat ∧ (opField w).toNat ≤ 0x0E) ∨ 0x10 ≤ (opField w).toNat) :
    ∃ e, decode w = .error e := by
  cases hd : decode w with
  | error e => exact ⟨e, rfl⟩
  | ok i =>
    obtain rfl := decode_eq_ok_iff.1 hd
    obtain ⟨hop, hrsv, hassigned, -⟩ := encoding_statement i
    rw [hop] at h
    exact absurd hrsv (h.resolve_right (by omega))

/-- A busy block completes a word that names no command as illegal. -/
theorem engineStep_of_illegal {s : State} {e : DecodeReject} (hb : s.busy = true) (hd : decode s.pend = .error e) :
    engineStep s = execIllegal s.pend s := by
  rw [engineStep, if_pos hb, State.fetch, hd]

/-- Settles O4: CMD takes any word, and the engine finds no command in it. -/
theorem illegalWordsCompleteWithIllegalCommand : Obligations.IllegalWordsCompleteWithIllegalCommand := by
  intro s w hw
  obtain ⟨e, he⟩ := decode_error_of_illegal hw
  refine ⟨fun hb => hostStep_write_idle (r := .cmd) w hb, ?_⟩
  rintro rest hb rfl hin
  rw [step_of_engine hin]
  exact engineStep_of_illegal (s := { s with input := rest }) hb he

/-! ## Codewords (30_encoding.md R98) -/

/-- The value of a bit string is the sum of its weighted bits, the first bit the most significant. -/
theorem bitsVal_eq_sum (c : Bits) :
    bitsVal c = ((List.range c.length).map (fun k => (c.getD k false).toNat * 2 ^ (c.length - 1 - k))).sum := by
  induction c with
  | nil => rfl
  | cons b c ih =>
    rw [bitsVal_cons, ih, List.length_cons, List.range_succ_eq_map, List.map_cons, List.sum_cons, List.map_map]
    congr 2
    refine List.map_congr_left fun k _ => ?_
    simp [Nat.sub_sub, Nat.add_comm 1 k]

/-- Settles O37: CODE holds codes of at most 64 bits by length and value. -/
theorem codewordsAreHeldByLengthAndValue : Obligations.CodewordsAreHeldByLengthAndValue := by
  intro cfg x c hcfg _ hc
  have h64 : c.length ≤ 64 := hc.trans (capacityBounds_of_wf hcfg).maxCodeLen
  rw [codeEntry_val h64]
  exact ⟨codeEntry_len h64 x, bitsVal_eq_sum c, bitsVal_lt c, codeEntry_bits_of_le h64 x⟩

end Sys2Proof.Machine
end

section
/-! LOADSYM: a run of window writes fills SYM from the front (30_encoding.md R109, R110, 20_memory.md R75, R76). -/

open Sys2Proof.Spec

namespace Sys2Proof.Machine

/-- A scheduled write of an idle block is the write of the register it names. -/
theorem steps_hostW {s : State} {rest : List Event} {r : Reg} {d : Word} (hb : s.busy = false)
    (hin : s.input = hostW r d :: rest) (n : Nat) :
    steps (n + 1) s = steps n (writeReg { s with input := rest } r d) := by
  have hstep : step s = .next (writeReg { s with input := rest } r d) :=
    (step_of_host hin).trans (congrArg _ (hostStep_write_idle (s := { s with input := rest }) d hb))
  rw [steps, hstep]

/-- A window write with SYM selected, below the capacity, stores the word and moves on. -/
theorem writeReg_winData_sym {s : State} (hsel : s.winSel = 0#3) (hi : s.winIdx.toNat < s.cfg.maxN) (d : Word) :
    writeReg s .winData d = { s with sym := s.sym.write s.winIdx.toNat d, winIdx := s.winIdx + 1#32 } := by
  rcases windowStore_cases s d with ⟨-, -, h⟩ | ⟨h4, -, -⟩ | ⟨-, hno, -⟩
  · rw [writeReg, h]; rfl
  · rw [hsel] at h4; cases h4
  · exact absurd ⟨hsel, hi⟩ hno

/-- A run of window writes with SYM selected is a run of stores from WIN_IDX on. -/
theorem steps_windowWrites {rest : List Event} (n : Nat) (l : List Word) {s : State} (hb : s.busy = false)
    (hsel : s.winSel = 0#3) (hcap : s.cfg.maxN < 2 ^ 32) (hi : s.winIdx.toNat + l.length ≤ s.cfg.maxN)
    (hin : s.input = l.map (hostW .winData) ++ rest) :
    steps (n + l.length) s =
      steps n { s with sym := s.sym.writeFrom s.winIdx.toNat l, winIdx := s.winIdx + BitVec.ofNat 32 l.length,
                       input := rest } := by
  induction l generalizing s with
  | nil => simp [Mem.writeFrom, ← show s.input = rest from hin]
  | cons d l ih =>
    rw [List.length_cons] at hi ⊢
    have hidx : (s.winIdx + 1#32).toNat = s.winIdx.toNat + 1 := by
      rw [BitVec.toNat_add, BitVec.toNat_ofNat]; omega
    have hsum : s.winIdx + 1#32 + BitVec.ofNat 32 l.length = s.winIdx + BitVec.ofNat 32 (l.length + 1) := by
      rw [BitVec.add_assoc, BitVec.ofNat_add, BitVec.add_comm 1#32]
    let tail := l.map (hostW .winData) ++ rest
    let stored : State := { s with sym := s.sym.write s.winIdx.toNat d, winIdx := s.winIdx + 1#32, input := tail }
    have hi' : stored.winIdx.toNat + l.length ≤ s.cfg.maxN := by rw [hidx]; omega
    have hfirst : writeReg { s with input := tail } .winData d = stored :=
      writeReg_winData_sym (s := { s with input := tail }) hsel (show s.winIdx.toNat < s.cfg.maxN by omega) d
    rw [← Nat.add_assoc, steps_hostW (rest := tail) hb hin, hfirst, ih (s := stored) hb hsel hcap hi' rfl, hidx, hsum,
      Mem.writeFrom]

/-- LOADSYM stores its words from SYM[0] on and their number in N_LEN. -/
theorem steps_loadSym {s : State} {l : List Word} {rest : List Event} (hb : s.busy = false)
    (hcap : s.cfg.maxN < 2 ^ 32) (hl : l.length ≤ s.cfg.maxN) (hin : s.input = loadSym l ++ rest) :
    steps (loadSym l).length s =
      { s with sym := s.sym.writeFrom 0 l, nLen := BitVec.ofNat 32 l.length, winSel := 0#3,
               winIdx := BitVec.ofNat 32 l.length, input := rest } := by
  have hlen : (loadSym l).length = 1 + l.length + 1 + 1 := by
    simp only [loadSym, List.length_append, List.length_cons, List.length_map, List.length_nil]; omega
  let tail := hostW .nLen (BitVec.ofNat 32 l.length) :: rest
  let selected : State := { s with winSel := 0#3, input := hostW .winIdx 0#32 :: (l.map (hostW .winData) ++ tail) }
  let start : State := { selected with winIdx := 0#32, input := l.map (hostW .winData) ++ tail }
  let filled : State := { start with sym := s.sym.writeFrom 0 l, winIdx := BitVec.ofNat 32 l.length, input := tail }
  have hin' : s.input = hostW .winSel 0#32 :: selected.input := by rw [hin]; simp [loadSym, selected, tail]
  have hfill : steps (1 + l.length) start = steps 1 filled := by
    rw [steps_windowWrites (s := start) 1 l hb rfl hcap (by simpa [start] using hl) rfl, BitVec.zero_add]; rfl
  calc steps (loadSym l).length s
      = steps (1 + l.length + 1) selected := by rw [hlen]; exact steps_hostW hb hin' _
    _ = steps (1 + l.length) start := steps_hostW (s := selected) hb rfl _
    _ = steps 1 filled := hfill
    _ = _ := steps_hostW (s := filled) hb rfl 0

/-- Settles O20: the final state is known, and its SYM is a run of writes from index 0. -/
theorem loadSymFillsTheInput : Obligations.LoadSymFillsTheInput := by
  intro s l rest hs hb hl hin
  have hcap := (capacityBounds_of_wf hs.cfg).maxN
  have hlen : (BitVec.ofNat 32 l.length).toNat = l.length := toNat_ofNat_length (by omega)
  rw [steps_loadSym hb hcap hl hin]
  refine ⟨rfl, hlen, hlen, fun i hi => ?_, fun i hi => Mem.read_writeFrom_outside (by omega)⟩
  simpa using Mem.read_writeFrom_inside hs.memories.sym.1 (base := 0) hi

end Sys2Proof.Machine
end

section
/-! The container that SERIALIZE writes is the layout of the spec, which is written out by another encoder
(30_encoding.md R99 to R106). -/

open Sys2Proof.Spec

namespace Sys2Proof.Machine

/-! ## The two encoders agree -/

theorem bigEndian_eq_beBytes (n v : Nat) : bigEndian n v = beBytes n v := by
  refine List.ext_getElem (by simp [bigEndian]) fun i _ _ => ?_
  simp [bigEndian, beBytes, Nat.shiftRight_eq_div_pow, pow_mul]

/-- A value shifted left by n bits ends in n zeros. -/
theorem codeOf_shifted (len n v : Nat) : codeOf (len + n) (v * 2 ^ n) = codeOf len v ++ zeros n := by
  have hz : codeOf n 0 = zeros n := by simp [codeOf, zeros, List.map_const']
  rw [codeOf_append, Nat.mul_div_cancel _ (by positivity), ← Nat.add_zero (v * 2 ^ n), codeOf_add_mul, hz]

/-- The left-aligned code is the code's bits followed by zeros (30_encoding.md R103). -/
theorem codeBytes_eq_bytesOf (len v : Nat) :
    codeBytes len v = bytesOf (codeOf len v ++ zeros (8 * ceilDiv8 len - len)) := by
  have hle := (ceilDiv8_bounds len).1
  rw [← codeOf_shifted, Nat.add_sub_cancel' hle, ← flatMap_beBytes, bytesOf_flatMap, codeBytes]

theorem layoutEntry_eq_entryBytes (e : CodeEntry) : layoutEntry e = entryBytes e := by
  rw [layoutEntry, entryBytes, codeBytes_eq_bytesOf, bigEndian_eq_beBytes, BitVec.ofNat_toNat]
  rfl

theorem layoutBody_eq_containerBody (tag : Byte) (w h c : Word) (table : List CodeEntry) (payload : List Byte) :
    layoutBody tag w h c table payload = containerBody tag w h c table payload := by
  simp only [layoutBody, containerBody, bigEndian_eq_beBytes, funext layoutEntry_eq_entryBytes]
  rfl

/-! ## The length (30_encoding.md R106) -/

theorem entryBytes_length (e : CodeEntry) : (entryBytes e).length = 4 + (e.len.toNat + 7) / 8 := by
  simp only [entryBytes, codeBytes, ceilDiv8, List.length_append, beBytes_length, List.length_singleton]

theorem shapeBytes_length (tag : Byte) (w h c : Word) :
    (shapeBytes tag w h c).length = 12 * if tag = 0x01#8 then 1 else 0 := by
  rw [shapeBytes, tagPixels]
  split <;> simp

theorem withCheckByte_containerBody_length (tag : Byte) (w h c : Word) (table : List CodeEntry) (payload : List Byte) :
    (withCheckByte (containerBody tag w h c table payload)).length =
      containerLength (if tag = 0x01#8 then 1 else 0) table payload.length := by
  have hentries : (table.flatMap entryBytes).length = (table.map fun e => 4 + (e.len.toNat + 7) / 8).sum := by
    simp only [List.length_flatMap, entryBytes_length]
  simp only [withCheckByte, containerBody, magicBytes, containerLength, List.length_append, List.length_cons,
    List.length_nil, beBytes_length, shapeBytes_length, hentries]
  omega

/-- An entry with a code takes at least 5 bytes, so a container of one entry and one payload byte takes at least 23. -/
theorem containerLength_ge {cfg : Config} {table : List CodeEntry} (htable : ∀ e ∈ table, CodeEntryOk cfg e)
    (hk : 1 ≤ table.length) {p : Nat} (hp : 1 ≤ p) (sp : Nat) : 23 ≤ containerLength sp table p := by
  obtain ⟨e, hmem⟩ := List.exists_mem_of_length_pos hk
  have hlen := (htable e hmem).1
  have hsum := List.single_le_sum (by simp) _ (List.mem_map_of_mem (f := fun e => 4 + (e.len.toNat + 7) / 8) hmem)
  rw [containerLength]
  omega

/-! ## The command -/

theorem knownTag_of_tagKnown {s : State} (h : tagKnown s) : knownTag s.tag = true := by
  rcases h with h | h <;> rw [h] <;> rfl

theorem validSymbol_of_typed {tag : Byte} {x : Symbol} (h : tag = 0x00#8 → x.toNat ≤ 0x10FFFF) :
    validSymbol tag x = true := by
  simpa [validSymbol, tagText, imp_iff_not_or] using h

/-- SERIALIZE's checks all pass (45_container.md R210, R212, R213). -/
theorem serializeResult_ok {s : State} (hcv : s.cv = true) (hpv : s.pv = true) (htag : knownTag s.tag = true)
    (hsym : ∀ e ∈ s.codeTable, validSymbol s.tag e.sym = true) (hfit : (containerOf s).length ≤ s.cfg.maxCont) :
    serializeResult s = .ok (containerOf s) := by
  have hfind : s.codeTable.findIdx? (fun e => !validSymbol s.tag e.sym) = none := by
    rw [List.findIdx?_eq_none_iff]; exact fun e he => by simp [hsym e he]
  simp [serializeResult, hcv, hpv, htag, hfind, Nat.not_lt.2 hfit]

theorem Mem.slice_succ {α : Type} [Inhabited α] (m : Mem α) (n : Nat) : m.slice (n + 1) = m.slice n ++ [m.read n] := by
  simp [Mem.slice, List.range_succ]

/-- A memory that holds a body and its check byte from index 0 holds the body in front and the check byte last. -/
theorem Mem.slice_body_check {m : Mem Byte} {body : List Byte} (h : m.slice (body.length + 1) = withCheckByte body) :
    m.slice body.length = body ∧ m.read body.length = xorBytes body := by
  rw [Mem.slice_succ, withCheckByte] at h
  obtain ⟨h1, h2⟩ := List.append_inj h (by simp)
  exact ⟨h1, by simpa using h2⟩

/-- Settles O44: the checks pass, what is committed is the layout with its check byte, and its length is R106's. -/
theorem serializeWritesTheLayout : Obligations.SerializeWritesTheLayout := by
  intro s hs hcv hpv htag hsym l hfit
  obtain ⟨-, hp, -⟩ := hs.payload.valid hpv
  have hk : 1 ≤ s.codeTable.length := by
    rw [State.codeTable, Mem.slice_length]; exact (hs.tables.kCnt (.inr hcv)).1
  have hcap := (capacityBounds_of_wf hs.cfg).maxCont
  let body := containerBody s.tag s.shape0 s.shape1 s.shape2 s.codeTable s.payload
  have hlen : (withCheckByte body).length = l := by
    rw [withCheckByte_containerBody_length, State.payload, Mem.slice_length]; rfl
  have hbody : l = body.length + 1 := by rw [← hlen, withCheckByte, List.length_append]; rfl
  have hok : serializeResult s = .ok (withCheckByte body) :=
    serializeResult_ok hcv hpv (knownTag_of_tagKnown htag) (fun e he => validSymbol_of_typed fun h => hsym h e he)
      (hlen.trans_le hfit)
  let t : State := succeeded { s with cont := s.cont.writeFrom 0 (withCheckByte body),
                                      contLen := BitVec.ofNat 32 (withCheckByte body).length }
  have hrun : exec .serialize s = .next t := by rw [exec_eq, completionOf, runSerialize, stage_ok hok]; rfl
  have hslice : t.cont.slice l = withCheckByte body := by
    rw [← hlen]; exact Mem.slice_writeFrom hs.memories.cont.1 _
  obtain ⟨hfront, hcheck⟩ := Mem.slice_body_check (hbody ▸ hslice)
  have hframe : ∀ j, l ≤ j → t.cont.read j = s.cont.read j := fun j hj =>
    Mem.read_writeFrom_outside (xs := withCheckByte body) (.inr (by omega))
  have hl1 : l - 1 = body.length := by omega
  refine ⟨t, hrun, rfl, ?_, ?_, ?_, ?_, ?_, hframe⟩
  · exact hlen ▸ toNat_ofNat_length (by omega)
  · rw [hl1, layoutBody_eq_containerBody]; exact hfront
  · rw [hl1]; exact hcheck.trans (congrArg xorBytes hfront).symm
  · exact (congrArg xorBytes hslice).trans (xorBytes_withCheckByte body)
  · exact containerLength_ge (hs.tables.code hcv).entries hk hp _

end Sys2Proof.Machine
end

section
/-! COUNT: which of its checks decides, the table that it commits, and that the commands that read SYM read nothing of it
beyond the input (41_frequency.md R120 to R123). -/

open Sys2Proof.Spec

namespace Sys2Proof.Machine

/-! ## The words of the statements and of the model -/

theorem knownTag_iff {s : State} : knownTag s.tag = true ↔ tagKnown s := by
  simp [knownTag, tagKnown, tagText, tagPixels]

theorem inputSymbols_eq (s : State) : inputSymbols s = s.symbols.map symbolOf := by
  rw [State.symbols, Mem.slice, List.map_map]; rfl

theorem inputSymbols_length (s : State) : (inputSymbols s).length = s.nLen.toNat := by simp [inputSymbols]

theorem validSymbol_iff {tag : Byte} {x : Symbol} : validSymbol tag x = true ↔ typedSymbol tag x := by
  simp [validSymbol, typedSymbol, tagText, imp_iff_not_or]

theorem validSymbolWord_iff {s : State} {i : Nat} :
    validSymbolWord s.tag (s.sym.read i) = true ↔ validAt s i := by
  rw [validSymbolWord, Bool.and_eq_true, validSymbol_iff, wellFormedSymbolWord, beq_iff_eq]
  rfl

/-! ## The checks, in order (41_frequency.md R121) -/

section
variable {s : State}

theorem countResult_of_unknownTag (h : ¬ tagKnown s) :
    countResult s = .error { code := .unsupportedFormat, info := 0#32 } := by
  simp [countResult, knownTag_iff, h]

theorem countResult_of_empty (ht : tagKnown s) (h0 : s.nLen = 0#32) :
    countResult s = .error { code := .emptyInput, info := 0#32 } := by
  simp [countResult, knownTag_iff.2 ht, h0]

theorem countResult_of_overlong (ht : tagKnown s) (hn : s.cfg.maxN < s.nLen.toNat) :
    countResult s = .error { code := .capacity, info := 0#32 } := by
  have h0 : s.nLen ≠ 0#32 := fun h => by simp [h] at hn
  simp [countResult, knownTag_iff.2 ht, h0, hn]

/-- The index reported is the first at which SYM holds no valid symbol word. -/
theorem countResult_of_invalid (ht : tagKnown s) (hn : s.nLen.toNat ≤ s.cfg.maxN) {i : Nat} (hi : i < s.nLen.toNat)
    (hbad : ¬ validAt s i) (hgood : ∀ j < i, validAt s j) :
    countResult s = .error { code := .invalidSymbol, info := BitVec.ofNat 32 i } := by
  have h0 : s.nLen ≠ 0#32 := fun h => by simp [h] at hi
  have hfind : s.symbols.findIdx? (fun w => !validSymbolWord s.tag w) = some i := by
    rw [List.findIdx?_eq_some_iff_getElem]
    refine ⟨by simpa [State.symbols] using hi, ?_, fun j hj => ?_⟩
    · simpa [State.symbols, ← validSymbolWord_iff] using hbad
    · simpa [State.symbols, validSymbolWord_iff] using hgood j hj
  simp [countResult, knownTag_iff.2 ht, h0, Nat.not_lt.2 hn, hfind]

/-- With valid input the counting pass decides: it gives a table, or there are more than MAX_K distinct symbols. -/
theorem countResult_of_valid (ht : tagKnown s) (h0 : s.nLen ≠ 0#32) (hn : s.nLen.toNat ≤ s.cfg.maxN)
    (hv : ∀ i < s.nLen.toNat, validAt s i) :
    (∃ t, countResult s = .ok t ∧ (inputSymbols s).dedup.length ≤ s.cfg.maxK) ∨
      (countResult s = .error { code := .capacity, info := 0#32 } ∧ s.cfg.maxK < (inputSymbols s).dedup.length) := by
  have hfind : s.symbols.findIdx? (fun w => !validSymbolWord s.tag w) = none := by
    rw [List.findIdx?_eq_none_iff]
    intro w hw
    obtain ⟨j, hj, rfl⟩ := Mem.mem_slice.1 hw
    simpa [validSymbolWord_iff] using hv j hj
  have hlen : ([] ++ inputSymbols s).length < 2 ^ 32 := by
    rw [List.nil_append, inputSymbols_length]; exact s.nLen.isLt
  rcases countInto_spec (maxK := s.cfg.maxK) TallyOf.nil (Nat.zero_le _) hlen with ⟨t, hc, htally, hk⟩ | ⟨hc, hk⟩ <;>
    rw [inputSymbols_eq] at hc
  · refine .inl ⟨t, ?_, htally.length ▸ hk⟩
    simp [countResult, knownTag_iff.2 ht, h0, Nat.not_lt.2 hn, hfind, hc]
  · refine .inr ⟨?_, hk⟩
    simp [countResult, knownTag_iff.2 ht, h0, Nat.not_lt.2 hn, hfind, hc]

/-! ## The completion of COUNT -/

theorem exec_count_of_error {why : Reason} (h : countResult s = .error why) :
    exec .count s = .next (failed (invalidated .count s) 0x01#8 why.code.number why.info) := by
  rw [exec_eq, completionOf, runCount, stage_error h]; rfl

theorem exec_count_of_ok {t : List FreqEntry} (h : countResult s = .ok t) :
    exec .count s = .next (succeeded ((invalidated .count s).commitFreq t)) := by
  rw [exec_eq, completionOf, runCount, stage_ok h]; rfl

end

/-- Settles O29, one clause for each check in the order of R121. -/
theorem countReportsTheFirstError : Obligations.CountReportsTheFirstError := by
  intro s _
  refine ⟨fun ht => exec_count_of_error (countResult_of_unknownTag ht), fun ht => ⟨fun h0 => ?_, fun hn => ?_, fun hn =>
    ⟨fun i hi hbad hgood => ?_, fun hv hk => ?_⟩⟩⟩
  · exact exec_count_of_error (countResult_of_empty ht h0)
  · exact exec_count_of_error (countResult_of_overlong ht hn)
  · exact exec_count_of_error (countResult_of_invalid ht hn hi hbad hgood)
  · have h0 : s.nLen ≠ 0#32 := fun h => by simp [inputSymbols, h] at hk
    rcases countResult_of_valid ht h0 hn hv with ⟨_, -, hle⟩ | ⟨h, -⟩
    · exact absurd hk (Nat.not_lt.2 hle)
    · exact exec_count_of_error h

/-- Settles O28: the table that COUNT commits is the tally of the input, whose laws are the clauses of R122 and R123. -/
theorem countBuildsTheFrequencyTable : Obligations.CountBuildsTheFrequencyTable := by
  intro s hs ht h1 hn hv hk
  have h0 : s.nLen ≠ 0#32 := fun h => by simp [h] at h1
  rcases countResult_of_valid ht h0 hn hv with ⟨t, hok, -⟩ | ⟨-, hgt⟩
  · obtain ⟨htally, hlk⟩ := countResult_tally hok
    rw [← inputSymbols_eq] at htally
    have hlen : t.length ≤ s.nLen.toNat := by
      rw [htally.length, ← inputSymbols_length]; exact (List.dedup_sublist _).length_le
    have hpos : 1 ≤ t.length := htally.length_pos (List.length_pos_iff.1 (by rwa [inputSymbols_length]))
    have hl32 : t.length < 2 ^ 32 := hlen.trans_lt s.nLen.isLt
    have hkCnt : (BitVec.ofNat 32 t.length).toNat = t.length := toNat_ofNat_length hl32
    have hfreqs : freqs (succeeded ((invalidated .count s).commitFreq t)) = t :=
      slice_writeFrom_register hs.memories.freq.1 hl32
    have htable : FreqTableOk s.cfg t := htally.freqTableOk ((inputSymbols_length s).trans_le hn)
    refine ⟨_, exec_count_of_ok hok, rfl, ?_⟩
    rw [hfreqs]
    refine ⟨fun e he => ⟨htable.positive e he, htally.count e he⟩, ?_, ?_, htally.nodup, fun x hx => ?_, htally.order,
      fun k hk' => Mem.read_writeFrom_outside (.inr ?_)⟩
    · exact htally.sum.trans (inputSymbols_length s)
    · exact hkCnt.symm ▸ ⟨hpos, hlen, hlk⟩
    · exact List.mem_map.1 ((htally.mem x).2 hx)
    · rw [Nat.zero_add]; exact hkCnt.symm.trans_le hk'
  · exact absurd hgt (Nat.not_lt.2 hk)

/-! ## What is read of SYM (41_frequency.md R120, 43_bit_packer.md R170) -/

/-- The state with another memory in place of SYM. -/
def State.withSym (s : State) (m : Mem Word) : State := { s with sym := m }

/-- The completion with another memory in place of SYM. -/
def Completion.withSym (c : Completion) (m : Mem Word) : Completion := { c with state := c.state.withSym m }

/-- The memory holds the input of the state: it agrees with SYM below N_LEN and below MAX_N. -/
def HoldsInput (m : Mem Word) (s : State) : Prop := ∀ j, j < s.nLen.toNat → j < s.cfg.maxN → m.read j = s.sym.read j

/-- A stage or a chain of stages that reads of SYM the input alone, and does not write it. -/
def ReadsInputAlone (run : State → Completion) : Prop :=
  ∀ s m, HoldsInput m s → run (s.withSym m) = (run s).withSym m

theorem complete_withSym (c : Completion) (m : Mem Word) : complete (c.withSym m) = (complete c).withSym m := by
  unfold complete Completion.withSym
  cases c.failure <;> rfl

/-- The next stage runs with the other memory too, if it runs. -/
theorem Completion.withSym_andThen {c : Completion} {next : State → Completion} {m : Mem Word}
    (h : next (c.state.withSym m) = (next c.state).withSym m) :
    (c.withSym m).andThen next = (c.andThen next).withSym m := by
  obtain ⟨t, failure⟩ := c
  cases failure with
  | none => exact h
  | some f => rfl

/-- What the host's side of two states shares is enough to hold the same input. -/
theorem HoldsInput.of_hostSide {m : Mem Word} {s t : State} (h : HoldsInput m s) (hst : HostSide s t) :
    HoldsInput m t := by
  unfold HoldsInput
  rw [hst.nLen, hst.cfg, hst.sym]
  exact h

/-- An input that fits is all that the words of the input depend on. -/
theorem symbols_withSym {m : Mem Word} {s : State} (h : HoldsInput m s) (hn : s.nLen.toNat ≤ s.cfg.maxN) :
    (s.withSym m).symbols = s.symbols := by
  refine List.map_congr_left fun j hj => ?_
  rw [List.mem_range] at hj
  exact h j hj (hj.trans_le hn)

theorem countResult_withSym {m : Mem Word} {s : State} (h : HoldsInput m s) :
    countResult (s.withSym m) = countResult s := by
  by_cases hn : s.cfg.maxN < s.nLen.toNat
  · simp [countResult, State.withSym, hn]
  · unfold countResult
    rw [symbols_withSym h (Nat.not_lt.1 hn)]
    rfl

theorem packResult_withSym {m : Mem Word} {s : State} (h : HoldsInput m s) :
    packResult (s.withSym m) = packResult s := by
  by_cases hn : s.cfg.maxN < s.nLen.toNat
  · simp [packResult, State.withSym, hn]
  · unfold packResult
    rw [symbols_withSym h (Nat.not_lt.1 hn)]
    rfl

/-- A stage whose computation reads the input alone, and whose invalidation and commit leave SYM out. -/
theorem ReadsInputAlone.stage {α : Type} {op : Byte} {inv : State → State} {result : State → Except Reason α}
    {commit : State → α → State} (hinv : ∀ s m, inv (s.withSym m) = (inv s).withSym m)
    (hcommit : ∀ s m a, commit (s.withSym m) a = (commit s a).withSym m)
    (hres : ∀ s m, HoldsInput m s → result (s.withSym m) = result s) :
    ReadsInputAlone fun s => stage op inv (result s) commit s := by
  intro s m h
  simp only [hres s m h]
  cases hr : result s with
  | error why => rw [stage_error rfl, stage_error rfl, hinv]; rfl
  | ok a => rw [stage_ok rfl, stage_ok rfl, hinv, hcommit]; rfl

theorem ReadsInputAlone.andThen {run next : State → Completion} (hr : ReadsInputAlone run)
    (hn : ReadsInputAlone next) (hside : ∀ s, HostSide s (run s).state) :
    ReadsInputAlone fun s => (run s).andThen next := by
  intro s m h
  have hnext := hn (run s).state m (h.of_hostSide (hside s))
  show (run (s.withSym m)).andThen next = ((run s).andThen next).withSym m
  rw [hr s m h]
  exact Completion.withSym_andThen hnext

theorem runCount_readsInputAlone : ReadsInputAlone runCount :=
  .stage (fun _ _ => rfl) (fun _ _ _ => rfl) fun _ _ h => countResult_withSym h

theorem runBuild_readsInputAlone : ReadsInputAlone runBuild :=
  .stage (fun _ _ => rfl) (fun _ _ _ => rfl) fun _ _ _ => rfl

theorem runPack_readsInputAlone : ReadsInputAlone runPack :=
  .stage (fun _ _ => rfl) (fun _ _ _ => rfl) fun _ _ h => packResult_withSym h

theorem runSerialize_readsInputAlone : ReadsInputAlone runSerialize :=
  .stage (fun _ _ => rfl) (fun _ _ _ => rfl) fun _ _ _ => rfl

/-- COMPRESS after its own invalidation is the chain of its four stages (46_control.md R252). -/
theorem runCompress_readsInputAlone : ReadsInputAlone runCompress := by
  have hbuild : ∀ s, HostSide s ((runCount s).andThen runBuild).state := fun s =>
    andThen_keeps (runCount_hostSide s) fun _ t h => h.trans (runBuild_hostSide t)
  have hpack : ∀ s, HostSide s (((runCount s).andThen runBuild).andThen runPack).state := fun s =>
    andThen_keeps (hbuild s) fun _ t h => h.trans (runPack_hostSide t)
  have hchain := ((runCount_readsInputAlone.andThen runBuild_readsInputAlone runCount_hostSide).andThen
    runPack_readsInputAlone hbuild).andThen runSerialize_readsInputAlone hpack
  exact fun s m h => hchain s.invalidateCont m h

/-- Settles O27: the completions of the three commands read of SYM the input alone. -/
theorem symbolsBeyondTheInputAreNotRead : Obligations.SymbolsBeyondTheInputAreNotRead := by
  intro i s t m hi h ht
  have hrun : ReadsInputAlone (completionOf i) := by
    simp only [List.mem_cons, List.not_mem_nil, or_false] at hi
    rcases hi with rfl | rfl | rfl
    · exact runCount_readsInputAlone
    · exact runPack_readsInputAlone
    · exact runCompress_readsInputAlone
  rw [exec_eq] at ht
  cases ht
  show exec i (s.withSym m) = .next ((complete (completionOf i s)).withSym m)
  rw [exec_eq, hrun s m h, complete_withSym]

end Sys2Proof.Machine
end

section
/-! BUILD's reduction: the queue stays in key order, so the loop is the reduction of 42_tree_builder.md R143, and what every
merge keeps holds of the one root (R141 to R144). -/

open Sys2Proof.Spec

namespace Sys2Proof.Machine

/-! ## The queue in key order (42_tree_builder.md R142) -/

/-- A queue in key order, least key first. -/
def Sorted (q : List Tree) : Prop := q.Pairwise fun a b => keyBefore a b = true

theorem keyBefore_iff_keyLess {a b : Tree} : keyBefore a b = true ↔ keyLess a b := keyBefore_iff

theorem keyLess_trans {a b c : Tree} (hab : keyLess a b) (hbc : keyLess b c) : keyLess a c := by
  unfold keyLess at *; omega

/-- Of two nodes with different sequence numbers one has the smaller key. -/
theorem keyLess_of_not {t u : Tree} (h : ¬ keyLess t u) (hs : treeSeq u ≠ treeSeq t) : keyLess u t := by
  unfold keyLess at *; omega

theorem sorted_cons {a : Tree} {q : List Tree} : Sorted (a :: q) ↔ (∀ u ∈ q, keyLess a u) ∧ Sorted q := by
  simp only [Sorted, List.pairwise_cons, keyBefore_iff_keyLess]

theorem Sorted.queueInsert {t : Tree} {q : List Tree} (hq : Sorted q) (hs : ∀ u ∈ q, treeSeq u ≠ treeSeq t) :
    Sorted (queueInsert t q) := by
  induction q with
  | nil => exact List.pairwise_singleton _ t
  | cons u q ih =>
    obtain ⟨hu, hq'⟩ := sorted_cons.1 hq
    unfold Machine.queueInsert
    split
    case isTrue h =>
      have htu : keyLess t u := keyBefore_iff_keyLess.1 h
      exact sorted_cons.2 ⟨List.forall_mem_cons.2 ⟨htu, fun v hv => keyLess_trans htu (hu v hv)⟩, hq⟩
    case isFalse h =>
      have hut : keyLess u t := keyLess_of_not (mt keyBefore_iff_keyLess.2 h) (hs u List.mem_cons_self)
      refine sorted_cons.2 ⟨fun v hv => ?_, ih hq' fun v hv => hs v (List.mem_cons_of_mem u hv)⟩
      rcases List.mem_cons.1 ((queueInsert_perm t q).mem_iff.1 hv) with rfl | hv
      · exact hut
      · exact hu v hv

/-- Settles O34: an insertion with a fresh sequence number keeps the key order. -/
theorem queueStaysInKeyOrder : Obligations.QueueStaysInKeyOrder := fun t q hq hs =>
  ⟨Sorted.queueInsert hq hs, queueInsert_perm t q, fun _ _ => keyBefore_iff⟩

/-- The first two nodes of a queue in key order are the two of least key. -/
theorem Sorted.popsTwo {a b : Tree} {rest : List Tree} (h : Sorted (a :: b :: rest)) :
    PopsTwo (a :: b :: rest) a b rest := by
  obtain ⟨ha, hb⟩ := sorted_cons.1 h
  exact ⟨List.Perm.refl _, ha, (sorted_cons.1 hb).1⟩

theorem treeSeq_leaves (table : List FreqEntry) : (leaves table).map treeSeq = List.range table.length := by
  refine List.ext_getElem (by simp) fun k _ _ => ?_
  simp [leaves, treeSeq]

/-- Inserting nodes of distinct sequence numbers one by one keeps the key order. -/
theorem Sorted.insertAll {l q : List Tree} (hq : Sorted q) (hd : ((q ++ l).map treeSeq).Nodup) :
    Sorted (l.foldl (fun q t => Machine.queueInsert t q) q) := by
  induction l generalizing q with
  | nil => exact hq
  | cons t l ih =>
    have hperm : (q ++ t :: l).Perm (Machine.queueInsert t q ++ l) :=
      List.perm_middle.trans ((queueInsert_perm t q).symm.append_right l)
    have hfresh : ∀ u ∈ q, treeSeq u ≠ treeSeq t := fun u hu h => by
      rw [List.map_append, List.nodup_append] at hd
      obtain ⟨-, -, hdisj⟩ := hd
      exact hdisj _ (List.mem_map_of_mem hu) _ (List.mem_map_of_mem List.mem_cons_self) h
    exact ih (hq.queueInsert hfresh) ((hperm.map treeSeq).nodup_iff.1 hd)

theorem initialQueue_sorted (table : List FreqEntry) : Sorted (initialQueue table) :=
  Sorted.insertAll List.Pairwise.nil (by rw [List.nil_append, treeSeq_leaves]; exact List.nodup_range)

/-! ## The loop (42_tree_builder.md R143) -/

theorem reduceQueue_of_short (fuel n : Nat) {q : List Tree} (h : q.length ≤ 1) : reduceQueue fuel n q = q := by
  match fuel, q, h with
  | 0, _, _ => rfl
  | _ + 1, [], _ => rfl
  | _ + 1, [_], _ => rfl

/-- The reduction of R143 looks at the collection alone, not at its order. -/
theorem reduces_of_perm {n : Nat} {q q' : List Tree} {root : Tree} (h : Reduces n q root) (hp : q'.Perm q) :
    Reduces n q' root := by
  cases h with
  | root => rw [List.perm_singleton.1 hp]; exact .root n root
  | merge _ _ rest a b _ pops next =>
    obtain ⟨hq, ha, hb⟩ := pops
    exact .merge n q' rest a b root ⟨hp.trans hq, ha, hb⟩ next

/-! ## What every merge keeps (42_tree_builder.md R141 to R144) -/

/-- The queue of a frequency table's reduction when the next sequence number is `n`: it is in key order, its nodes have
sequence numbers below `n` and the last merge is among them, it holds the table's counts and leaves, its trees obey the sum
rule, and what it reduces to, the table's leaves reduce to. -/
structure ReductionOk (table : List FreqEntry) (n : Nat) (q : List Tree) : Prop where
  sorted : Sorted q
  below : ∀ u ∈ q, treeSeq u < n
  newest : table.length < n → ∃ u ∈ q, treeSeq u + 1 = n
  total : (q.map treeFreq).sum = (table.map (fun e => e.count.toNat)).sum
  entries : (q.flatMap treeLeaves).Perm (table.mapIdx (fun k e => (e.sym, e.count.toNat, k)))
  sums : ∀ u ∈ q, sumsAndOrder u
  reduces : ∀ root, Reduces n q root → Reduces table.length (leaves table) root

theorem treeFreq_leaves (table : List FreqEntry) :
    (leaves table).map treeFreq = table.map (fun e => e.count.toNat) := by
  refine List.ext_getElem (by simp) fun k _ _ => ?_
  simp [leaves, treeFreq]

theorem treeLeaves_leaves (table : List FreqEntry) :
    (leaves table).flatMap treeLeaves = table.mapIdx (fun k e => (e.sym, e.count.toNat, k)) := by
  simp only [leaves, List.mapIdx_eq_zipIdx_map, List.flatMap_map, treeLeaves, ← List.map_eq_flatMap]

theorem sumsAndOrder_leaves {table : List FreqEntry} {u : Tree} (hu : u ∈ leaves table) : sumsAndOrder u := by
  obtain ⟨k, hk, rfl⟩ := List.mem_mapIdx.1 hu
  trivial

/-- The queue that holds the leaves (42_tree_builder.md R141). -/
theorem ReductionOk.initial (table : List FreqEntry) : ReductionOk table table.length (initialQueue table) := by
  have hp := initialQueue_perm table
  refine ⟨initialQueue_sorted table, fun u hu => ?_, fun h => absurd h (Nat.lt_irrefl _), ?_, ?_, fun u hu => ?_,
    fun root h => reduces_of_perm h hp.symm⟩
  · have := List.mem_map_of_mem (f := treeSeq) (hp.mem_iff.1 hu)
    rwa [treeSeq_leaves, List.mem_range] at this
  · rw [(hp.map treeFreq).sum_eq, treeFreq_leaves]
  · rw [← treeLeaves_leaves]; exact hp.flatMap_right _
  · exact sumsAndOrder_leaves (hp.mem_iff.1 hu)

/-- One merge (42_tree_builder.md R143). -/
theorem ReductionOk.merge {table : List FreqEntry} (n : Nat) (a b : Tree) (q : List Tree)
    (h : ReductionOk table n (a :: b :: q)) :
    ReductionOk table (n + 1) (queueInsert (mergeNodes n a b) q) := by
  obtain ⟨hsorted, hbelow, -, htotal, hentries, hsums, hreduces⟩ := h
  obtain ⟨ha, hbq⟩ := sorted_cons.1 hsorted
  obtain ⟨-, hq⟩ := sorted_cons.1 hbq
  have hp := queueInsert_perm (mergeNodes n a b) q
  simp only [List.forall_mem_cons] at ha hbelow hsums
  have hmem : ∀ {P : Tree → Prop}, P (mergeNodes n a b) → (∀ u ∈ q, P u) → ∀ u ∈ queueInsert (mergeNodes n a b) q, P u :=
    fun hm hr u hu => List.forall_mem_cons.2 ⟨hm, hr⟩ u (hp.mem_iff.1 hu)
  obtain ⟨han, hbn, hqn⟩ := hbelow
  obtain ⟨hsa, hsb, hsq⟩ := hsums
  refine ⟨hq.queueInsert fun u hu => (hqn u hu).ne, hmem (Nat.lt_succ_self n) fun u hu => Nat.lt_succ_of_lt (hqn u hu),
    fun _ => ⟨_, hp.mem_iff.2 List.mem_cons_self, rfl⟩, ?_, (hp.flatMap_right _).trans ?_,
    hmem ⟨rfl, ha.1, han, hbn, hsa, hsb⟩ hsq, fun root hr => ?_⟩
  · rw [(hp.map treeFreq).sum_eq, ← htotal]
    simp only [List.map_cons, List.sum_cons, mergeNodes, treeFreq]
    omega
  · simpa only [List.flatMap_cons, mergeNodes, treeLeaves, List.append_assoc] using hentries
  · exact hreduces root (.merge n _ q a b root hsorted.popsTwo (reduces_of_perm hr hp.symm))

/-- The one root that the reduction of a table leaves, and what holds of it. -/
theorem finalQueue_root {table : List FreqEntry} (ht : table ≠ []) :
    ∃ root, finalQueue table = [root] ∧ ReductionOk table (2 * table.length - 1) [root] :=
  finalQueue_induct ht (.initial table) ReductionOk.merge

/-- Settles O33: the loop takes the two nodes of least key, and the root has what every merge keeps. -/
theorem reductionLeavesOneRoot : Obligations.ReductionLeavesOneRoot := by
  refine ⟨fun fuel n q hq => ⟨reduceQueue_of_short fuel n, fun h2 => ?_⟩, fun table h2 => ?_⟩
  · match q, h2 with
    | a :: b :: rest, _ => exact ⟨a, b, rest, Sorted.popsTwo hq, rfl⟩
  · obtain ⟨root, hroot, -, -, hnewest, htotal, hentries, hsums, hreduces⟩ :=
      finalQueue_root (table := table) (by rintro rfl; simp at h2)
    specialize hnewest (by omega)
    obtain ⟨u, hu, hseq⟩ := hnewest
    obtain rfl := List.mem_singleton.1 hu
    exact ⟨u, hroot, hreduces u (.root _ u), by omega, by simpa using htotal, by simpa using hentries, hsums u hu⟩

end Sys2Proof.Machine
end

section
/-! BUILD: which of its checks decides, the code table that it commits, and what that table says of the tree
(42_tree_builder.md R140, R145 to R149). -/

open Sys2Proof.Spec

namespace Sys2Proof.Machine

/-! ## The checks, in order, and the completion (42_tree_builder.md R140, R147) -/

/-- The state that a successful BUILD leaves. -/
def builtState (s : State) : State := succeeded ((invalidated .build s).commitCode (builtTable (freqs s)))

theorem freqTable_eq (s : State) : s.freqTable = freqs s := rfl

section
variable {s : State}

theorem buildResult_of_noTable (hfv : s.fv = false) :
    buildResult s = .error { code := .sequenceError, info := 0#32 } := by
  simp [buildResult, hfv]

theorem buildResult_of_longCode (hfv : s.fv = true) (hlong : ∃ c ∈ huffmanCodes (freqs s), s.cfg.maxCodeLen < c.length) :
    buildResult s = .error { code := .capacity, info := 0#32 } := by
  have hany : (huffmanCodes (freqs s)).any (fun c => decide (s.cfg.maxCodeLen < c.length)) = true := by
    simpa using hlong
  simp [buildResult, freqTable_eq, hfv, hany]

theorem buildResult_of_fits (hfv : s.fv = true) (hfits : ∀ c ∈ huffmanCodes (freqs s), c.length ≤ s.cfg.maxCodeLen) :
    buildResult s = .ok (builtTable (freqs s)) := by
  have hany : (huffmanCodes (freqs s)).any (fun c => decide (s.cfg.maxCodeLen < c.length)) = false := by
    simpa using hfits
  simp [buildResult, freqTable_eq, hfv, hany, builtTable]

theorem exec_build_of_error {why : Reason} (h : buildResult s = .error why) :
    exec .build s = .next (failed (invalidated .build s) 0x02#8 why.code.number why.info) := by
  rw [exec_eq, completionOf, runBuild, stage_error h]; rfl

theorem exec_build_of_fits (hfv : s.fv = true) (hfits : ∀ c ∈ huffmanCodes (freqs s), c.length ≤ s.cfg.maxCodeLen) :
    exec .build s = .next (builtState s) := by
  rw [exec_eq, completionOf, runBuild, stage_ok (buildResult_of_fits hfv hfits)]; rfl

/-- A BUILD that reports no error found a valid frequency table all of whose codes fit. -/
theorem exec_build_succeeded {t : State} (h : exec .build s = .next t) (herr : t.err = false) :
    s.fv = true ∧ (∀ c ∈ huffmanCodes (freqs s), c.length ≤ s.cfg.maxCodeLen) ∧ t = builtState s := by
  cases hr : buildResult s with
  | error why =>
    rw [exec_build_of_error hr] at h
    cases h
    cases herr
  | ok table =>
    obtain ⟨hfv, hfits, -⟩ := buildResult_eq_ok hr
    rw [exec_build_of_fits hfv hfits] at h
    cases h
    exact ⟨hfv, hfits, rfl⟩

end

/-! ## The table committed (42_tree_builder.md R148) -/

theorem builtTable_getElem {table : List FreqEntry} {k : Nat} (hk : k < table.length) :
    (builtTable table)[k]'(by simpa using hk) = codeEntry table[k].sym ((huffmanCodes table)[k]'(by simpa using hk)) := by
  simp [builtTable]

section
variable {s : State}

@[simp] theorem builtState_kCnt (s : State) : (builtState s).kCnt = s.kCnt := rfl

@[simp] theorem builtState_code (s : State) : (builtState s).code = s.code.writeFrom 0 (builtTable (freqs s)) := rfl

@[simp] theorem freqs_length (s : State) : (freqs s).length = s.kCnt.toNat := by simp [freqs]

/-- BUILD's entry k is entry k of the built table. -/
theorem builtState_read_table (hs : DataOk s) {k : Nat} (hk : k < s.kCnt.toNat) :
    (builtState s).code.read k = (builtTable (freqs s))[k]'(by simpa using hk) := by
  have hk' : k < (builtTable (freqs s)).length := by simpa using hk
  simpa using Mem.read_writeFrom_inside hs.memories.code.1 (base := 0) hk'

/-- BUILD's entry k is entry k's symbol with entry k's code. -/
theorem builtState_read (hs : DataOk s) {k : Nat} (hk : k < s.kCnt.toNat) :
    (builtState s).code.read k =
      codeEntry (s.freq.read k).sym ((huffmanCodes (freqs s))[k]'(by simpa using hk)) := by
  rw [builtState_read_table hs hk, builtTable_getElem (by simpa using hk)]
  simp [freqs]

theorem builtState_read_beyond {k : Nat} (hk : s.kCnt.toNat ≤ k) : (builtState s).code.read k = s.code.read k :=
  Mem.read_writeFrom_outside (.inr (by simpa using hk))

theorem codes_builtState (hs : DataOk s) : codes (builtState s) = builtTable (freqs s) := by
  have h := Mem.slice_writeFrom hs.memories.code.1 (builtTable (freqs s))
  rwa [builtTable_length, freqs_length] at h

/-- Codes that fit MAX_CODE_LEN fit the 64 bits of an entry's value (00_scope.md R7). -/
theorem fits_entry (hs : DataOk s) (hfits : ∀ c ∈ huffmanCodes (freqs s), c.length ≤ s.cfg.maxCodeLen) :
    ∀ c ∈ huffmanCodes (freqs s), c.length ≤ 64 := fun c hc =>
  (hfits c hc).trans (capacityBounds_of_wf hs.cfg).maxCodeLen

theorem maxCodeLen_pos {c : Config} (h : c.wf = true) : 1 ≤ c.maxCodeLen := by
  simp only [Config.wf, Bool.and_eq_true, decide_eq_true_eq] at h
  omega

end

/-- Settles O30: the checks pass, and what is committed is the table of the codes. -/
theorem buildSucceedsWhenCodesFit : Obligations.BuildSucceedsWhenCodesFit := fun s hs hfv hfits =>
  ⟨builtState s, exec_build_of_fits hfv hfits, rfl, fun k hk => by rw [builtState_read hs hk]; rfl,
    fun _ hk => builtState_read_beyond hk⟩

/-- Settles O32: the one code of one entry is "0", which every MAX_CODE_LEN allows. -/
theorem singleSymbolGetsCodeZero : Obligations.SingleSymbolGetsCodeZero := by
  intro s hs hfv hk
  have hcodes : huffmanCodes (freqs s) = [[false]] := by simp [freqs, hk, List.range_succ]
  have hfits : ∀ c ∈ huffmanCodes (freqs s), c.length ≤ s.cfg.maxCodeLen := by
    rw [hcodes]
    simpa using maxCodeLen_pos hs.cfg
  refine ⟨builtState s, exec_build_of_fits hfv hfits, rfl, rfl, ?_⟩
  rw [builtState_read hs (by simp [hk])]
  simp only [hcodes]
  rfl

/-- Settles O36, one clause for each check; with room for K - 1 bits no code of K entries is too long. -/
theorem buildReportsItsErrors : Obligations.BuildReportsItsErrors := by
  refine fun s => ⟨fun hfv => exec_build_of_error (buildResult_of_noTable hfv),
    fun hfv hlong => exec_build_of_error (buildResult_of_longCode hfv hlong), fun hs hfv hroom c hc => ?_⟩
  have hlen := (huffmanCodes_bounds hc).2
  rw [freqs_length] at hlen
  have hk := (hs.tables.kCnt (.inl hfv)).2
  have hpos := maxCodeLen_pos hs.cfg
  omega

/-! ## The codes are complete and none begins another (42_tree_builder.md R149) -/

/-- An entry's length is its code's length. -/
theorem builtTable_lengths {table : List FreqEntry} (h64 : ∀ c ∈ huffmanCodes table, c.length ≤ 64) :
    (builtTable table).map (fun e => e.len.toNat) = (huffmanCodes table).map List.length := by
  refine List.ext_getElem (by simp) fun k hk _ => ?_
  have hk' : k < table.length := by simpa using hk
  rw [List.getElem_map, List.getElem_map, builtTable_getElem hk', codeEntry_len (h64 _ (List.getElem_mem _))]

theorem builtTable_len_bounds {table : List FreqEntry} (h64 : ∀ c ∈ huffmanCodes table, c.length ≤ 64) {e : CodeEntry}
    (he : e ∈ builtTable table) : 1 ≤ e.len.toNat ∧ e.len.toNat ≤ max 1 (table.length - 1) := by
  have hmem : e.len.toNat ∈ (huffmanCodes table).map List.length :=
    builtTable_lengths h64 ▸ List.mem_map_of_mem (f := fun e : CodeEntry => e.len.toNat) he
  obtain ⟨c, hc, hce⟩ := List.mem_map.1 hmem
  exact hce ▸ huffmanCodes_bounds hc

/-- Kraft's equality for the table committed. -/
theorem builtTable_kraft {table : List FreqEntry} (h64 : ∀ c ∈ huffmanCodes table, c.length ≤ 64)
    (h2 : 2 ≤ table.length) : ((builtTable table).map (fun e => (1 / 2 : ℚ) ^ e.len.toNat)).sum = 1 := by
  have hmap := congrArg (List.map fun n : Nat => (1 / 2 : ℚ) ^ n) (builtTable_lengths h64)
  rw [List.map_map, List.map_map] at hmap
  exact (congrArg List.sum hmap).trans (huffmanCodes_kraft h2)

/-- In a well-formed code table only an entry's own code begins its code. -/
theorem CodeTableOk.bits_prefix {cfg : Config} {table : List CodeEntry} (h : CodeTableOk cfg table) {i j : Nat}
    (hi : i < table.length) (hj : j < table.length) (hp : table[i].bits <+: table[j].bits) : i = j := by
  have hnodup : table.Nodup := List.Nodup.of_map _ (distinctSymbols_iff.1 h.distinct)
  exact hnodup.getElem_inj_iff.1 (eq_of_bits_prefix h.apart (List.getElem_mem hi) (List.getElem_mem hj) hp)

theorem CodeTableOk.bits_nodup {cfg : Config} {table : List CodeEntry} (h : CodeTableOk cfg table) :
    (table.map CodeEntry.bits).Nodup := by
  refine List.Nodup.map_on (fun a ha b hb hab => ?_) (List.Nodup.of_map _ (distinctSymbols_iff.1 h.distinct))
  exact eq_of_bits_prefix h.apart ha hb (by rw [hab])

/-- Settles O31: the committed table is well-formed, and its lengths are those of the paths of one tree. -/
theorem buildGivesACompletePrefixCode : Obligations.BuildGivesACompletePrefixCode := by
  intro s t hs hexec herr
  obtain ⟨hfv, hfits, rfl⟩ := exec_build_succeeded hexec herr
  have htable : CodeTableOk s.cfg (builtTable (freqs s)) :=
    builtTable_ok (capacityBounds_of_wf hs.cfg) (hs.tables.freq hfv).distinct hfits
  have h64 := fits_entry hs hfits
  have hlen : ∀ k < s.kCnt.toNat, 1 ≤ ((builtState s).code.read k).len.toNat ∧
      ((builtState s).code.read k).len.toNat ≤ max 1 (s.kCnt.toNat - 1) := fun k hk => by
    have hmem : (builtState s).code.read k ∈ builtTable (freqs s) :=
      codes_builtState hs ▸ List.mem_map.2 ⟨k, List.mem_range.2 hk, rfl⟩
    simpa using builtTable_len_bounds h64 hmem
  rw [codes_builtState hs, builtState_kCnt]
  refine ⟨fun k hk => (hlen k hk).1, fun i hi j hj hij hp => ?_, fun h2 => ?_, fun h2 k hk => ?_, fun h1 => ?_,
    distinctSymbols_iff.1 htable.distinct, htable.bits_nodup⟩
  · rw [builtState_read_table hs hi, builtState_read_table hs hj] at hp
    exact hij (htable.bits_prefix _ _ hp)
  · exact builtTable_kraft h64 (by simpa using h2)
  · have := (hlen k hk).2
    omega
  · have := hlen 0 (by omega)
    omega

/-! ## Codes are paths (42_tree_builder.md R146) -/

/-- Following the path to leaf k ends at a leaf of the tree with sequence number k. -/
theorem descend_treePath {t : Tree} {k : Nat} {p : Bits} (h : treePath t k = some p) :
    ∃ x f, (x, f, k) ∈ treeLeaves t ∧ descend t p = some (.leaf x f k) := by
  induction t generalizing p with
  | leaf x f q =>
    unfold treePath at h
    split at h
    case isTrue hq =>
      cases h
      exact ⟨x, f, by simp [treeLeaves, hq], by rw [hq]; rfl⟩
    case isFalse => cases h
  | node f q l r ihl ihr =>
    rcases treePath_node h with ⟨p', hp', rfl⟩ | ⟨_, p', hp', rfl⟩
    · obtain ⟨x, g, hmem, hd⟩ := ihl hp'
      exact ⟨x, g, List.mem_append_left _ hmem, hd⟩
    · obtain ⟨x, g, hmem, hd⟩ := ihr hp'
      exact ⟨x, g, List.mem_append_right _ hmem, hd⟩

/-- Entry k's code leads from the root to the leaf of entry k. -/
theorem huffmanCodes_descend {table : List FreqEntry} (h2 : 2 ≤ table.length) :
    ∃ root, finalQueue table = [root] ∧ ∀ k (hk : k < table.length),
      descend root ((huffmanCodes table)[k]'(by simpa using hk)) = some (.leaf table[k].sym table[k].count.toNat k) := by
  obtain ⟨root, hroot, hok⟩ := finalQueue_root (table := table) (by rintro rfl; simp at h2)
  obtain ⟨root', hroot', -, -, hpath⟩ := huffmanCodes_paths h2
  obtain rfl : root' = root := by simpa [hroot] using hroot'.symm
  have hentries : (treeLeaves root').Perm (table.mapIdx (fun k e => (e.sym, e.count.toNat, k))) := by
    simpa using hok.entries
  refine ⟨root', hroot, fun k hk => ?_⟩
  obtain ⟨x, f, hmem, hd⟩ := descend_treePath (hpath k (by simpa using hk))
  obtain ⟨j, hj, he⟩ := List.mem_mapIdx.1 (hentries.mem_iff.1 hmem)
  cases he
  exact hd

/-- Settles O35: the committed codes are the paths, and each path ends at its entry's leaf. -/
theorem codesAreRootToLeafPaths : Obligations.CodesAreRootToLeafPaths := by
  intro s t hs h2 hexec herr
  obtain ⟨-, hfits, rfl⟩ := exec_build_succeeded hexec herr
  obtain ⟨root, hroot, hd⟩ := huffmanCodes_descend (table := freqs s) (by simpa using h2)
  refine ⟨root, hroot, fun k hk => ?_⟩
  rw [builtState_read hs hk, codeEntry_bits_of_le (fits_entry hs hfits _ (List.getElem_mem _)), hd k (by simpa using hk)]
  simp [freqs]

end Sys2Proof.Machine
end

section
/-! PACK: which of its checks decides, and the payload that it commits (43_bit_packer.md R170 to R177). -/

open Sys2Proof.Spec

namespace Sys2Proof.Machine

section
variable {s : State} {cs : List CodeEntry}

theorem codeTable_eq (s : State) : s.codeTable = codes s := rfl

/-! ## The entries of the input (43_bit_packer.md R171, R172) -/

/-- The entries name, for each input word in order, the entry of the code table that holds its symbol. -/
def EntriesOfInput (s : State) (cs : List CodeEntry) : Prop :=
  cs.length = s.nLen.toNat ∧ ∀ i (h : i < cs.length), cs[i] ∈ codes s ∧ cs[i].sym.setWidth 32 = s.sym.read i

/-- Symbols are distinct under CV = 1, so each lookup finds the entry named. -/
theorem EntriesOfInput.translate_eq (hcs : EntriesOfInput s cs) (hs : DataOk s) (hcv : s.cv = true) :
    translate s.codeTable 0 s.symbols = .ok (cs.flatMap CodeEntry.bits) := by
  obtain ⟨hlen, hentry⟩ := hcs
  refine translate_ok (List.ext_getElem (by simp [State.symbols, hlen]) fun i _ hi => ?_) 0
  obtain ⟨hmem, hsym⟩ := hentry i (by simpa using hi)
  simpa [State.symbols] using findBySym_of_mem (hs.tables.code hcv).distinct hmem hsym

/-- The index reported is the first whose word no entry of the table holds (R171). -/
theorem translate_of_unencodable {i : Nat} (hi : i < s.nLen.toNat)
    (hbad : ∀ e ∈ codes s, e.sym.setWidth 32 ≠ s.sym.read i)
    (hgood : ∀ j < i, ∃ e ∈ codes s, e.sym.setWidth 32 = s.sym.read j) :
    translate s.codeTable 0 s.symbols = .error i := by
  have hlen : i < s.symbols.length := by simpa [State.symbols] using hi
  rw [translate_error hlen, Nat.zero_add]
  · simpa [State.symbols, codeTable_eq] using findBySym_eq_none.2 hbad
  · intro j hj hnone
    obtain ⟨e, he, hsym⟩ := hgood j hj
    exact findBySym_eq_none.1 hnone e he (by simpa [State.symbols] using hsym)

/-! ## The checks, in order (43_bit_packer.md R170) -/

theorem packResult_of_noTable (hcv : s.cv = false) :
    packResult s = .error { code := .sequenceError, info := 0#32 } := by
  simp [packResult, hcv]

theorem packResult_of_empty (hcv : s.cv = true) (h0 : s.nLen = 0#32) :
    packResult s = .error { code := .emptyInput, info := 0#32 } := by
  simp [packResult, hcv, h0]

theorem packResult_of_overlong (hcv : s.cv = true) (hn : s.cfg.maxN < s.nLen.toNat) :
    packResult s = .error { code := .capacity, info := 0#32 } := by
  have h0 : s.nLen ≠ 0#32 := fun h => by simp [h] at hn
  simp [packResult, hcv, h0, hn]

section
variable (hcv : s.cv = true) (h0 : s.nLen ≠ 0#32) (hn : s.nLen.toNat ≤ s.cfg.maxN)
include hcv h0 hn

theorem packResult_of_translate_error {i : Nat} (ht : translate s.codeTable 0 s.symbols = .error i) :
    packResult s = .error { code := .unencodableSymbol, info := BitVec.ofNat 32 i } := by
  simp [packResult, hcv, h0, Nat.not_lt.2 hn, ht]

/-- Once the input is translated, only the length of the payload is left to check (R175). -/
theorem packResult_of_translate_ok {enc : Bits} (ht : translate s.codeTable 0 s.symbols = .ok enc) :
    packResult s =
      if s.cfg.maxPay < payloadLength enc.length then .error { code := .capacity, info := 0#32 } else .ok enc := by
  simp [packResult, hcv, h0, Nat.not_lt.2 hn, ht]

end

/-! ## The completion of PACK -/

theorem exec_pack_of_error {why : Reason} (h : packResult s = .error why) :
    exec .pack s = .next (failed (invalidated .pack s) 0x03#8 why.code.number why.info) := by
  rw [exec_eq, completionOf, runPack, stage_error h]; rfl

/-- The state that a successful PACK leaves. -/
def packedState (s : State) (enc : Bits) : State := succeeded (commitPack (invalidated .pack s) enc)

theorem exec_pack_of_ok {enc : Bits} (h : packResult s = .ok enc) : exec .pack s = .next (packedState s enc) := by
  rw [exec_eq, completionOf, runPack, stage_ok h]; rfl

/-! ## The payload committed (43_bit_packer.md R173, R174) -/

theorem packedState_pay (s : State) (enc : Bits) : (packedState s enc).pay = s.pay.writeFrom 0 (packBytes enc) := rfl

theorem payBytes_packedState (hs : DataOk s) (enc : Bits) :
    payBytes (packedState s enc) (payloadLength enc.length) = packBytes enc := by
  rw [← packBytes_length]
  exact Mem.slice_writeFrom hs.memories.pay.1 _

/-- PAY[0] is the padding count. -/
theorem packedState_header (hs : DataOk s) (enc : Bits) :
    ((packedState s enc).pay.read 0).toNat = paddingCount enc.length := by
  have hpos : 0 < (packBytes enc).length := by rw [packBytes_length, payloadLength]; omega
  have hread := Mem.read_writeFrom_inside hs.memories.pay.1 (base := 0) hpos
  have hle := (paddingCount_bounds enc.length).2.1
  rw [packedState_pay, hread]
  simp only [packBytes_cons, List.getElem_cons_zero, BitVec.toNat_ofNat]
  omega

theorem packedState_read_beyond {enc : Bits} {j : Nat} (hj : payloadLength enc.length ≤ j) :
    (packedState s enc).pay.read j = s.pay.read j :=
  Mem.read_writeFrom_outside (.inr (by rwa [packBytes_length, Nat.zero_add]))

/-- At least one whole byte follows the header. -/
theorem two_le_payloadLength (n : Nat) : 2 ≤ payloadLength n := by
  rw [payloadLength, paddingCount]; omega

end

/-- Settles O38: the translation is the concatenation of the codes named, and what is committed is its packed bytes. -/
theorem packTranslatesAndPads : Obligations.PackTranslatesAndPads := by
  intro s cs hs hcv h1 hn hlen hentry enc extra p
  obtain ⟨hpad1, hpad8, -⟩ := paddingCount_bounds enc.length
  refine ⟨hpad1, hpad8, two_le_payloadLength _, fun hfit => ?_⟩
  have h0 : s.nLen ≠ 0#32 := fun h => by simp [h] at h1
  have hcs : EntriesOfInput s cs := ⟨hlen, hentry⟩
  have hok : packResult s = .ok enc := by
    rw [packResult_of_translate_ok hcv h0 hn (hcs.translate_eq hs hcv)]
    exact if_neg (Nat.not_lt.2 hfit)
  obtain ⟨hpayLen, hpad, hencBits⟩ := commitPack_registers (invalidated .pack s) (enc := enc)
    (hfit.trans_lt (capacityBounds_of_wf hs.cfg).maxPay)
  have hbits : (payBytes (packedState s enc) p).flatMap bits8 =
      bits8 (BitVec.ofNat 8 extra) ++ enc ++ List.replicate extra false :=
    (congrArg (List.flatMap bits8) (payBytes_packedState hs enc)).trans (packBytes_bits enc)
  exact ⟨packedState s enc, exec_pack_of_ok hok, rfl, hpayLen, hpad, hencBits, packedState_header hs enc, hbits,
    fun _ hj => packedState_read_beyond hj⟩

/-- Settles O39, one clause for each check in the order of R170. -/
theorem packReportsTheFirstError : Obligations.PackReportsTheFirstError := by
  refine fun s _ => ⟨fun hcv => exec_pack_of_error (packResult_of_noTable hcv), fun hcv =>
    ⟨fun h0 => exec_pack_of_error (packResult_of_empty hcv h0),
      fun hn => exec_pack_of_error (packResult_of_overlong hcv hn),
      fun hn => ⟨fun i hi hbad hgood => ?_, fun cs hs h0 hlen hentry => ?_⟩⟩⟩
  · have h0 : s.nLen ≠ 0#32 := fun h => by simp [h] at hi
    exact exec_pack_of_error (packResult_of_translate_error hcv h0 hn (translate_of_unencodable hi hbad hgood))
  · intro n hlong
    have hcs : EntriesOfInput s cs := ⟨hlen, hentry⟩
    have hcap : packResult s = .error { code := .capacity, info := 0#32 } := by
      rw [packResult_of_translate_ok hcv h0 hn (hcs.translate_eq hs hcv)]
      exact if_pos hlong
    exact exec_pack_of_error hcap

end Sys2Proof.Machine
end

section
/-! UNPACK: which of its checks decides, the symbols that it commits, the loop that stops early, and the way back from PACK
(44_bit_unpacker.md R190 to R197). -/

open Sys2Proof.Spec

namespace Sys2Proof.Machine

/-! ## Stopping early (44_bit_unpacker.md R196) -/

section
variable {table : List CodeEntry} {bound : Nat} (hb : ∀ e ∈ table, e.len.toNat ≤ bound)
include hb

/-- No later hit is possible once the accumulator is longer than every code. -/
theorem decodeLoop_of_longAccumulator {acc : Bits} (hl : bound < acc.length) (maxN : Nat) (out : List Word) (rest : Bits) :
    decodeLoop table maxN acc out rest = .error .corruptContainer := by
  have hne : acc ++ rest ≠ [] := by
    rw [← List.length_pos_iff_ne_nil, List.length_append]; omega
  refine decodeLoop_leftover out hne fun e he ⟨_, hlonger⟩ => ?_
  have hle := hb e he
  rw [CodeEntry.bits_length] at hlonger
  omega

theorem decodeEarly_eq_decodeLoop (maxN : Nat) (acc : Bits) (out : List Word) (enc : Bits) :
    decodeEarly table maxN bound acc out enc = decodeLoop table maxN acc out enc := by
  induction enc generalizing acc out with
  | nil => rfl
  | cons b enc ih =>
    rw [decodeEarly, decodeLoop]
    cases findByCode table (acc ++ [b]) with
    | some e => simp only [ih]
    | none =>
      by_cases hl : bound < (acc ++ [b]).length
      · simp only [if_pos hl, decodeLoop_of_longAccumulator hb hl]
      · simp only [if_neg hl, ih]

end

/-- Settles O42, from any accumulator and output on. -/
theorem earlyStopIsUnobservable : Obligations.EarlyStopIsUnobservable :=
  fun _ maxN _ enc hb => decodeEarly_eq_decodeLoop hb maxN [] [] enc

section
variable {s : State}

/-! ## The payload, read back (44_bit_unpacker.md R190 to R192) -/

theorem payload_eq (s : State) : s.payload = payBytes s s.payLen.toNat := rfl

theorem payload_length (s : State) : s.payload.length = s.payLen.toNat := Mem.slice_length _ _

theorem payloadHeader_payload (h1 : 1 ≤ s.payLen.toNat) : payloadHeader s.payload = (s.pay.read 0).toNat := by
  obtain ⟨n, hn⟩ := Nat.exists_eq_add_of_le' h1
  simp [payloadHeader, State.payload, Mem.slice, hn, List.range_succ_eq_map]

theorem encodedBits_payload (h1 : 1 ≤ s.payLen.toNat) : encodedBits s.payload = codeBits s := by
  rw [encodedBits, payloadBits, payloadHeader_payload h1, payload_length, ← List.drop_one]
  rfl

/-! ## The checks, in order (44_bit_unpacker.md R190, R191) -/

theorem unpackResult_of_noPayload (h : s.cv = false ∨ s.pv = false) :
    unpackResult s = .error { code := .sequenceError, info := 0#32 } := by
  rcases h with h | h <;> simp [unpackResult, h]

section
variable (hcv : s.cv = true) (hpv : s.pv = true)
include hcv hpv

theorem unpackResult_of_badHeader (h1 : 1 ≤ s.payLen.toNat)
    (hbad : 8 < (s.pay.read 0).toNat ∨ 8 * (s.payLen.toNat - 1) < (s.pay.read 0).toNat) :
    unpackResult s = .error { code := .corruptContainer, info := 0#32 } := by
  have hbytes : unpackBytes s.codeTable s.cfg.maxN s.payload = .error .corruptContainer := by
    rw [unpackBytes, payloadHeader_payload h1, payload_length]
    rcases hbad with hbad | hbad <;> simp [hbad]
  simp [unpackResult, hcv, hpv, hbytes]

/-- Under the data invariant, once the header lies within the payload, the decode loop alone decides. -/
theorem unpackResult_of_header (hs : DataOk s) (hfit : (s.pay.read 0).toNat ≤ 8 * (s.payLen.toNat - 1)) :
    unpackResult s =
      (decodeLoop (codes s) s.cfg.maxN [] [] (codeBits s)).mapError fun c => { code := c, info := 0#32 } := by
  obtain ⟨-, h1, -, hpad, hpad8, -⟩ := hs.payload.valid hpv
  rw [hpad] at hpad8
  have hbytes : unpackBytes s.codeTable s.cfg.maxN s.payload = decodeLoop (codes s) s.cfg.maxN [] [] (codeBits s) := by
    rw [unpackBytes, payloadHeader_payload h1, payload_length, encodedBits_payload h1, if_neg (Nat.not_lt.2 hpad8),
      if_neg (Nat.not_lt.2 hfit), codeTable_eq]
  rw [unpackResult, hbytes]
  cases decodeLoop (codes s) s.cfg.maxN [] [] (codeBits s) <;> simp [hcv, hpv, Except.mapError]

end

/-! ## The completion of UNPACK -/

theorem exec_unpack_of_error {why : Reason} (h : unpackResult s = .error why) :
    exec .unpack s = .next (failed (invalidated .unpack s) 0x06#8 why.code.number why.info) := by
  rw [exec_eq, completionOf, runUnpack, stage_error h]; rfl

/-- The state that a successful UNPACK leaves. -/
def unpackedState (s : State) (ws : List Word) : State := succeeded ((invalidated .unpack s).commitOut ws)

theorem exec_unpack_of_ok {ws : List Word} (h : unpackResult s = .ok ws) :
    exec .unpack s = .next (unpackedState s ws) := by
  rw [exec_eq, completionOf, runUnpack, stage_ok h]; rfl

theorem outWords_unpackedState (hs : DataOk s) (ws : List Word) : outWords (unpackedState s ws) ws.length = ws :=
  Mem.slice_writeFrom hs.memories.out.1 ws

theorem unpackedState_outLen (hs : DataOk s) {ws : List Word} (hn : ws.length ≤ s.cfg.maxN) :
    (unpackedState s ws).outLen.toNat = ws.length :=
  toNat_ofNat_length (hn.trans_lt (capacityBounds_of_wf hs.cfg).maxN)

theorem unpackedState_read_beyond {ws : List Word} {j : Nat} (hj : ws.length ≤ j) :
    (unpackedState s ws).out.read j = s.out.read j :=
  Mem.read_writeFrom_outside (.inr (by rwa [Nat.zero_add]))

/-! ## Decoding under CV = 1 (44_bit_unpacker.md R193 to R195) -/

theorem CodeTableOk.len_val {cfg : Config} {table : List CodeEntry} (h : CodeTableOk cfg table) :
    ∀ e ∈ table, 1 ≤ e.len.toNat ∧ e.val.toNat < 2 ^ e.len.toNat := by
  intro e he
  obtain ⟨hpos, -, hval⟩ := h.entries e he
  exact ⟨hpos, hval⟩

/-- The words that UNPACK emits for a sequence of codes (R193). -/
def symbolWords (es : List CodeEntry) : List Word := es.map fun e => e.sym.setWidth 32

@[simp] theorem symbolWords_length (es : List CodeEntry) : (symbolWords es).length = es.length := List.length_map _

section
variable {cfg : Config} {table es : List CodeEntry} (ht : CodeTableOk cfg table) (hes : ∀ e ∈ es, e ∈ table)
include ht hes

/-- Codes that fit are decoded in order, and the loop goes on with the bits after them. -/
theorem CodeTableOk.decode_codes {maxN : Nat} (hn : es.length ≤ maxN) (rest : Bits) :
    decodeLoop table maxN [] [] (es.flatMap CodeEntry.bits ++ rest) = decodeLoop table maxN [] (symbolWords es) rest :=
  decodeLoop_codes ht.apart ht.len_val hes [] rest (by simpa using hn)

theorem CodeTableOk.decode_all {maxN : Nat} (hn : es.length ≤ maxN) :
    decodeLoop table maxN [] [] (es.flatMap CodeEntry.bits) = .ok (symbolWords es) := by
  simpa [decodeLoop] using ht.decode_codes hes hn []

theorem CodeTableOk.decode_leftover {maxN : Nat} (hn : es.length ≤ maxN) {rest : Bits} (hne : rest ≠ [])
    (hno : ∀ e ∈ table, ¬ e.bits <+: rest) :
    decodeLoop table maxN [] [] (es.flatMap CodeEntry.bits ++ rest) = .error .corruptContainer := by
  rw [ht.decode_codes hes hn]
  exact decodeLoop_leftover _ hne fun e he ⟨hprefix, _⟩ => hno e he hprefix

end

end

/-- Settles O40: the loop decodes all the code bits, and what is committed is the symbols it emits. -/
theorem unpackDecodesCodeSequences : Obligations.UnpackDecodesCodeSequences := by
  intro s es hs hcv hpv hheader hes hbits hn
  have ht : CodeTableOk s.cfg (codes s) := hs.tables.code hcv
  have hok : unpackResult s = .ok (symbolWords es) := by
    rw [unpackResult_of_header hcv hpv hs hheader, hbits, ht.decode_all hes hn]
    rfl
  have hlen := symbolWords_length es
  refine ⟨unpackedState s (symbolWords es), exec_unpack_of_ok hok, rfl, ?_, ?_, fun j hj => ?_⟩
  · rw [unpackedState_outLen hs (by rwa [hlen]), hlen]
  · rw [← hlen]
    exact outWords_unpackedState hs _
  · exact unpackedState_read_beyond (by rwa [hlen])

/-- Settles O41, one clause for each check in the order of R190, R191, R194 and R195. -/
theorem unpackReportsTheFirstError : Obligations.UnpackReportsTheFirstError := by
  refine fun s => ⟨fun hv => exec_unpack_of_error (unpackResult_of_noPayload hv), fun hcv hpv =>
    ⟨fun h1 hbad => exec_unpack_of_error (unpackResult_of_badHeader hcv hpv h1 hbad),
      fun hs hheader es rest hes hbits => ?_⟩⟩
  have ht : CodeTableOk s.cfg (codes s) := hs.tables.code hcv
  have hresult {c : ErrCode} (hloop : decodeLoop (codes s) s.cfg.maxN [] [] (codeBits s) = .error c) :
      unpackResult s = .error { code := c, info := 0#32 } := by
    rw [unpackResult_of_header hcv hpv hs hheader, hloop]
    rfl
  rw [hbits] at hresult
  constructor
  · intro hn hne hno
    exact exec_unpack_of_error (hresult (ht.decode_leftover hes hn hne hno))
  · intro hn
    exact exec_unpack_of_error
      (hresult (decodeLoop_overrun ht.apart ht.len_val hes [] rest (Nat.zero_le _) (by simp [hn])))

/-! ## UNPACK right after PACK (44_bit_unpacker.md R197) -/

section
variable {s : State} {enc : Bits}

/-- A PACK that reports no error translated the input. -/
theorem exec_pack_succeeded {t : State} (h : exec .pack s = .next t) (herr : t.err = false) :
    ∃ enc, packResult s = .ok enc ∧ t = packedState s enc := by
  cases hr : packResult s with
  | error why =>
    rw [exec_pack_of_error hr] at h
    cases h
    cases herr
  | ok enc =>
    rw [exec_pack_of_ok hr] at h
    cases h
    exact ⟨enc, rfl, rfl⟩

/-- What PACK translated are the codes of the entries of the input. -/
theorem packResult_entries (h : packResult s = .ok enc) :
    ∃ es, EntriesOfInput s es ∧ enc = es.flatMap CodeEntry.bits := by
  obtain ⟨-, -, -, -, htranslate⟩ := packResult_eq_ok h
  obtain ⟨es, hmap, henc⟩ := translate_inv htranslate
  have hlen : es.length = s.nLen.toNat := by simpa [State.symbols] using (congrArg List.length hmap).symm
  refine ⟨es, ⟨hlen, fun i hi => findBySym_some ?_⟩, henc⟩
  simpa [State.symbols, codeTable_eq, hi, hlen ▸ hi] using congrArg (·[i]?) hmap

theorem EntriesOfInput.symbolWords_eq {es : List CodeEntry} (h : EntriesOfInput s es) : symbolWords es = s.symbols := by
  obtain ⟨hlen, hentry⟩ := h
  refine List.ext_getElem (by simp [State.symbols, hlen]) fun i hi _ => ?_
  obtain ⟨-, hsym⟩ := hentry i (by simpa using hi)
  simpa [State.symbols, symbolWords] using hsym

theorem EntriesOfInput.mem_codes {es : List CodeEntry} (h : EntriesOfInput s es) : ∀ e ∈ es, e ∈ codes s := by
  intro e he
  obtain ⟨-, hentry⟩ := h
  obtain ⟨i, hi, rfl⟩ := List.mem_iff_getElem.1 he
  exact (hentry i hi).1

section
variable (hs : DataOk s) (h : packResult s = .ok enc)
include hs h

theorem packedState_dataOk : DataOk (packedState s enc) := by
  obtain ⟨hcv, -, -, hfit, -⟩ := packResult_eq_ok h
  have hcommit : DataOk (commitPack (invalidated .pack s) enc) := hs.invalidatePay.commitPack hcv hfit
  exact DataOk.complete (c := { state := _, failure := none }) hcommit

theorem packedState_payLen : (packedState s enc).payLen.toNat = payloadLength enc.length := by
  obtain ⟨-, -, -, hfit, -⟩ := packResult_eq_ok h
  exact (commitPack_registers (invalidated .pack s) (hfit.trans_lt (capacityBounds_of_wf hs.cfg).maxPay)).1

/-- UNPACK reads back the bits that PACK packed (R192). -/
theorem codeBits_packedState : codeBits (packedState s enc) = enc := by
  have hlen := packedState_payLen hs h
  have h2 := two_le_payloadLength enc.length
  rw [← encodedBits_payload (by omega), payload_eq, hlen, payBytes_packedState hs, encodedBits_packBytes]

theorem packedState_header_fits :
    ((packedState s enc).pay.read 0).toNat ≤ 8 * ((packedState s enc).payLen.toNat - 1) := by
  have hle := (paddingCount_bounds enc.length).2.1
  have h2 := two_le_payloadLength enc.length
  rw [packedState_header hs, packedState_payLen hs h]
  omega

end

end

/-- Settles O43: the committed payload holds the codes of the input, so O40 gives the input's words back. -/
theorem packThenUnpackGivesTheInputBack : Obligations.PackThenUnpackGivesTheInputBack := by
  intro s t hs hpack herr
  obtain ⟨enc, hok, rfl⟩ := exec_pack_succeeded hpack herr
  obtain ⟨hcv, -, hn, -, -⟩ := packResult_eq_ok hok
  obtain ⟨es, hes, rfl⟩ := packResult_entries hok
  have hlen : es.length = s.nLen.toNat := hes.1
  obtain ⟨u, hexec, hu, houtLen, hout, -⟩ :=
    unpackDecodesCodeSequences _ es (packedState_dataOk hs hok) hcv rfl (packedState_header_fits hs hok) hes.mem_codes
      (codeBits_packedState hs hok) (hlen.trans_le hn)
  have hwords : u.out.slice s.nLen.toNat = s.sym.slice s.nLen.toNat := by
    rw [← hlen]
    exact hout.trans (hes.symbolWords_eq.trans (congrArg s.sym.slice hlen.symm))
  refine ⟨u, hexec, by rw [hu]; rfl, by rw [hu]; rfl, BitVec.eq_of_toNat_eq (houtLen.trans hlen), fun m hm => ?_⟩
  exact List.map_inj_left.1 hwords m (List.mem_range.2 hm)

end Sys2Proof.Machine
end

section
/-! SERIALIZE's checks in their order, how PARSE ends, and its first checks, which refuse a changed and a shortened
container (45_container.md R210 to R213, R220 to R222, R227). -/

open Sys2Proof.Spec

namespace Sys2Proof.Machine

theorem DataOk.exec {s t : State} (hs : DataOk s) {i : Instr} (h : exec i s = .next t) : DataOk t := by
  rw [exec_eq] at h
  cases h
  exact (hs.completionOf i).complete

/-! ## SERIALIZE's checks, in order (45_container.md R210, R212, R213) -/

section
variable {s : State}

theorem containerOf_length (s : State) :
    (containerOf s).length = containerLength (if s.tag = 0x01#8 then 1 else 0) (codes s) s.payLen.toNat := by
  rw [containerOf, withCheckByte_containerBody_length, payload_length, codeTable_eq]

theorem serializeResult_of_noResult (h : s.cv = false ∨ s.pv = false) :
    serializeResult s = .error { code := .sequenceError, info := 0#32 } := by
  rcases h with h | h <;> simp [serializeResult, h]

section
variable (hcv : s.cv = true) (hpv : s.pv = true)
include hcv hpv

theorem serializeResult_of_unknownTag (ht : ¬ tagKnown s) :
    serializeResult s = .error { code := .unsupportedFormat, info := 0#32 } := by
  simp [serializeResult, hcv, hpv, knownTag_iff, ht]

/-- The index reported is the first whose symbol the tag does not allow (45_container.md R212). -/
theorem serializeResult_of_untyped (ht : tagKnown s) {k : Nat} (hk : k < s.kCnt.toNat)
    (hbad : ¬ typedSymbol s.tag (s.code.read k).sym) (hgood : ∀ j < k, typedSymbol s.tag (s.code.read j).sym) :
    serializeResult s = .error { code := .invalidSymbol, info := BitVec.ofNat 32 k } := by
  have hfind : s.codeTable.findIdx? (fun e => !validSymbol s.tag e.sym) = some k := by
    rw [List.findIdx?_eq_some_iff_getElem]
    refine ⟨by simpa [State.codeTable] using hk, ?_, fun j hj => ?_⟩
    · simpa [State.codeTable, ← validSymbol_iff] using hbad
    · simpa [State.codeTable, validSymbol_iff] using hgood j hj
  simp [serializeResult, hcv, hpv, knownTag_iff.2 ht, hfind]

/-- With a valid table and tag, the length alone decides (45_container.md R213). -/
theorem serializeResult_of_overlong (ht : tagKnown s) (hsym : ∀ e ∈ codes s, typedSymbol s.tag e.sym)
    (hlong : s.cfg.maxCont < (containerOf s).length) :
    serializeResult s = .error { code := .capacity, info := 0#32 } := by
  have hfind : s.codeTable.findIdx? (fun e => !validSymbol s.tag e.sym) = none := by
    rw [List.findIdx?_eq_none_iff]
    exact fun e he => by simp [validSymbol_iff.2 (hsym e he)]
  simp [serializeResult, hcv, hpv, knownTag_iff.2 ht, hfind, hlong]

end

/-! ## The completion of SERIALIZE -/

theorem exec_serialize_of_error {why : Reason} (h : serializeResult s = .error why) :
    exec .serialize s = .next (failed (invalidated .serialize s) 0x04#8 why.code.number why.info) := by
  rw [exec_eq, completionOf, runSerialize, stage_error h]; rfl

/-- The state that a successful SERIALIZE leaves. -/
def serializedState (s : State) : State := succeeded (s.commitCont (containerOf s))

theorem exec_serialize_of_ok {bs : List Byte} (h : serializeResult s = .ok bs) :
    exec .serialize s = .next (serializedState s) := by
  obtain ⟨-, -, -, -, -, rfl⟩ := serializeResult_eq_ok h
  rw [exec_eq, completionOf, runSerialize, stage_ok h]; rfl

/-- A SERIALIZE that reports no error passed all its checks. -/
theorem exec_serialize_succeeded {t : State} (h : exec .serialize s = .next t) (herr : t.err = false) :
    serializeResult s = .ok (containerOf s) ∧ t = serializedState s := by
  cases hr : serializeResult s with
  | error why =>
    rw [exec_serialize_of_error hr] at h
    cases h
    cases herr
  | ok bs =>
    obtain ⟨-, -, -, -, -, rfl⟩ := serializeResult_eq_ok hr
    rw [exec_serialize_of_ok hr] at h
    cases h
    exact ⟨rfl, rfl⟩

/-- After SERIALIZE, CONT_LEN announces exactly the container. -/
theorem container_serializedState (hs : DataOk s) (hfit : (containerOf s).length ≤ s.cfg.maxCont) :
    (serializedState s).container = containerOf s :=
  slice_writeFrom_register hs.memories.cont.1 (hfit.trans_lt (capacityBounds_of_wf hs.cfg).maxCont)

end

/-- Settles O45, one clause for each check in the order of R210. -/
theorem serializeReportsTheFirstError : Obligations.SerializeReportsTheFirstError := by
  intro s _
  refine ⟨fun hv => exec_serialize_of_error (serializeResult_of_noResult hv), fun hcv hpv => ⟨fun ht => ?_,
    fun k hk htag hbad hgood => ?_, fun ht hsym hlong => ?_⟩⟩
  · exact exec_serialize_of_error (serializeResult_of_unknownTag hcv hpv ht)
  · exact exec_serialize_of_error (serializeResult_of_untyped hcv hpv (.inl htag) hk
      (fun h => absurd (h htag) (Nat.not_le.2 hbad)) fun j hj _ => hgood j hj)
  · exact exec_serialize_of_error (serializeResult_of_overlong hcv hpv ht (fun e he h => hsym h e he)
      (by rwa [containerOf_length]))

/-! ## PARSE's first checks (45_container.md R220, R221) -/

section
variable {s : State}

theorem container_eq (s : State) : s.container = contBytes s s.contLen.toNat := rfl

theorem container_length (s : State) : s.container.length = s.contLen.toNat := Mem.slice_length _ _

theorem parseResult_of_overlong (h : s.cfg.maxCont < s.contLen.toNat) :
    parseResult s = .error { code := .capacity, info := 0#32 } := by
  simp [parseResult, h]

section
variable (hfit : s.contLen.toNat ≤ s.cfg.maxCont)
include hfit

/-- Within the capacity the container alone decides. -/
theorem parseResult_of_container_ok {r : Parsed} (h : parseContainer s.cfg s.container = .ok r) :
    parseResult s = .ok r := by
  simp [parseResult, Nat.not_lt.2 hfit, h]

theorem parseResult_of_container_error {c : ErrCode} (h : parseContainer s.cfg s.container = .error c) :
    parseResult s = .error { code := c, info := 0#32 } := by
  simp [parseResult, Nat.not_lt.2 hfit, h]

theorem parseResult_of_badCheck (h : s.contLen = 0#32 ∨ contXor s s.contLen.toNat ≠ 0#8) :
    parseResult s = .error { code := .corruptContainer, info := 0#32 } := by
  refine parseResult_of_container_error hfit (if_pos (h.imp (fun h0 => ?_) id))
  rw [← List.length_eq_zero_iff, container_length, h0]
  rfl

end

/-- A right check byte leaves the bytes before it to decide. -/
theorem parseContainer_of_goodCheck (h1 : 1 ≤ s.contLen.toNat) (hx : contXor s s.contLen.toNat = 0#8) (cfg : Config) :
    parseContainer cfg s.container = parseBody cfg (contBytes s (s.contLen.toNat - 1)) := by
  obtain ⟨n, hn⟩ := Nat.exists_eq_add_of_le' h1
  have hsplit : s.container = contBytes s n ++ [s.cont.read n] := by
    rw [container_eq, hn]
    exact Mem.slice_succ s.cont n
  have hne : s.container ≠ [] := by simp [hsplit]
  have hgood : ¬ (s.container = [] ∨ xorBytes s.container ≠ 0#8) := not_or.2 ⟨hne, not_not.2 hx⟩
  rw [parseContainer, if_neg hgood, hsplit, List.dropLast_concat, hn, Nat.add_sub_cancel]

/-! ## The completion of PARSE -/

theorem exec_parse_of_error {why : Reason} (h : parseResult s = .error why) :
    exec .parse s = .next (failed (invalidated .parse s) 0x05#8 why.code.number why.info) := by
  rw [exec_eq, completionOf, runParse, stage_error h]; rfl

/-- The state that a successful PARSE leaves. -/
def parsedState (s : State) (r : Parsed) : State := succeeded (commitParsed (invalidated .parse s) r)

theorem exec_parse_of_ok {r : Parsed} (h : parseResult s = .ok r) : exec .parse s = .next (parsedState s r) := by
  rw [exec_eq, completionOf, runParse, stage_ok h]; rfl

/-- PARSE ends in one of two ways. -/
theorem exec_parse_cases {t : State} (h : exec .parse s = .next t) :
    (∃ why, parseResult s = .error why ∧ t = failed (invalidated .parse s) 0x05#8 why.code.number why.info) ∨
      ∃ r, parseResult s = .ok r ∧ t = parsedState s r := by
  cases hr : parseResult s with
  | error why =>
    rw [exec_parse_of_error hr] at h
    cases h
    exact .inl ⟨why, rfl, rfl⟩
  | ok r =>
    rw [exec_parse_of_ok hr] at h
    cases h
    exact .inr ⟨r, rfl, rfl⟩

theorem exec_parse_succeeded {t : State} (h : exec .parse s = .next t) (herr : t.err = false) :
    ∃ r, parseResult s = .ok r ∧ t = parsedState s r := by
  rcases exec_parse_cases h with ⟨_, -, rfl⟩ | hr
  · cases herr
  · exact hr

end

/-- Settles O48, by the two ways in which PARSE ends. -/
theorem parseAlwaysClearsCountsAndKeepsOutput : Obligations.ParseAlwaysClearsCountsAndKeepsOutput := by
  intro s t h
  rcases exec_parse_cases h with ⟨_, -, rfl⟩ | ⟨_, -, rfl⟩
  · exact ⟨rfl, rfl, rfl, rfl, rfl, nofun, fun _ => ⟨rfl, rfl, rfl, rfl, rfl, rfl, rfl, rfl, rfl⟩⟩
  · exact ⟨rfl, rfl, rfl, rfl, rfl, fun _ => ⟨rfl, rfl⟩, nofun⟩

/-! ## Changed and shortened containers (45_container.md R221, R222) -/

/-- Writing one byte changes the XOR by what the byte changes. -/
theorem xorBytes_slice_write {m : Mem Byte} (hm : m.wf) {j n : Nat} (hj : j < n) (v : Byte) :
    xorBytes ((m.write j v).slice n) = xorBytes (m.slice n) ^^^ (m.read j ^^^ v) := by
  induction n with
  | zero => exact absurd hj (Nat.not_lt_zero j)
  | succ n ih =>
    simp only [Mem.slice_succ, xorBytes_append, xorBytes_singleton]
    rcases Nat.lt_succ_iff_lt_or_eq.1 hj with hjn | rfl
    · rw [ih hjn, Mem.read_write_other (Nat.ne_of_gt hjn)]
      ac_rfl
    · have hslice : (m.write j v).slice j = m.slice j :=
        List.map_congr_left fun i hi => Mem.read_write_other (Nat.ne_of_lt (List.mem_range.1 hi))
      rw [hslice, Mem.read_write_same hm, BitVec.xor_assoc, ← BitVec.xor_assoc (m.read j), BitVec.xor_self,
        BitVec.zero_xor]

/-- What PARSE accepts has at least one byte and a right check byte. -/
theorem parseResult_check {s : State} {r : Parsed} (h : parseResult s = .ok r) :
    s.contLen.toNat ≤ s.cfg.maxCont ∧ 1 ≤ s.contLen.toNat ∧ contXor s s.contLen.toNat = 0#8 := by
  obtain ⟨hfit, hr⟩ := parseResult_eq_ok h
  unfold parseContainer at hr
  split at hr
  case isTrue => cases hr
  case isFalse hc =>
    obtain ⟨hne, hx⟩ := not_or.1 hc
    rw [← container_length]
    exact ⟨by rwa [container_length], List.length_pos_iff.2 hne, by rw [container_length]; exact not_not.1 hx⟩

/-- Settles O49: a flipped bit flips a bit of the XOR, which was 0. -/
theorem singleBitFlipsAreRejected : Obligations.SingleBitFlipsAreRejected := by
  refine ⟨fun s h => exec_parse_of_error (parseResult_of_overlong h),
    fun s hfit h => exec_parse_of_error (parseResult_of_badCheck hfit h), ?_⟩
  intro s t u j b hs h herr hj hb hu
  obtain ⟨r, hr, -⟩ := exec_parse_succeeded h herr
  obtain ⟨hfit, -, hx⟩ := parseResult_check hr
  have hbit : ∀ b < 8, 1#8 <<< b ≠ 0#8 := by decide
  have hflip : contXor u u.contLen.toNat = 1#8 <<< b := by
    calc contXor u u.contLen.toNat
        = contXor s s.contLen.toNat ^^^ (s.cont.read j ^^^ (s.cont.read j ^^^ (1#8 <<< b))) := by
          rw [hu]; exact xorBytes_slice_write hs.memories.cont.1 hj _
      _ = 1#8 <<< b := by rw [hx, BitVec.zero_xor, ← BitVec.xor_assoc, BitVec.xor_self, BitVec.zero_xor]
  have hfit' : u.contLen.toNat ≤ u.cfg.maxCont := by rw [hu]; exact hfit
  exact exec_parse_of_error (parseResult_of_badCheck hfit' (.inr (by rw [hflip]; exact hbit b hb)))

theorem Mem.slice_prefix {α : Type} [Inhabited α] (m : Mem α) {k n : Nat} (h : k ≤ n) : m.slice k <+: m.slice n := by
  rw [Mem.slice, Mem.slice, ← Nat.min_eq_left h, ← List.take_range]
  exact (List.take_prefix k _).map _

/-- Settles O50: the check byte fails, or the bytes before it are a shorter beginning of an accepted body. -/
theorem truncatedContainersAreRejected : Obligations.TruncatedContainersAreRejected := by
  rintro s t u n h herr hn rfl
  obtain ⟨r, hr, -⟩ := exec_parse_succeeded h herr
  obtain ⟨hfit, h1, hx⟩ := parseResult_check hr
  let u : State := { s with contLen := BitVec.ofNat 32 n }
  have hlen : u.contLen.toNat = n := toNat_ofNat_length (hn.trans s.contLen.isLt)
  have hfit' : u.contLen.toNat ≤ u.cfg.maxCont := by rw [hlen]; exact hn.le.trans hfit
  suffices parseResult u = .error { code := .corruptContainer, info := 0#32 } from exec_parse_of_error this
  by_cases hcheck : u.contLen = 0#32 ∨ contXor u u.contLen.toNat ≠ 0#8
  · exact parseResult_of_badCheck hfit' hcheck
  · obtain ⟨h0, hx'⟩ := not_or.1 hcheck
    have hbody := (parseResult_eq_ok hr).2
    rw [parseContainer_of_goodCheck h1 hx] at hbody
    have h1' : 1 ≤ u.contLen.toNat := Nat.pos_of_ne_zero fun h => h0 (BitVec.eq_of_toNat_eq h)
    refine parseResult_of_container_error hfit' ?_
    rw [parseContainer_of_goodCheck h1' (not_not.1 hx')]
    rw [hlen] at h1' ⊢
    refine parseBody_truncated hbody (Mem.slice_prefix s.cont (by omega)) fun he => ?_
    have := congrArg List.length he
    simp [contBytes] at this
    omega

end Sys2Proof.Machine
end

section
/-! PARSE accepts exactly the containers in the layout, and the way back from SERIALIZE and COMPRESS
(45_container.md R220 to R229). -/

open Sys2Proof.Spec

namespace Sys2Proof.Machine

/-! ## Containers in the layout (30_encoding.md R99, R105) -/

/-- Bytes whose XOR is 0 end in the check byte of those before. -/
theorem withCheckByte_of_xor_eq_zero {body : List Byte} {b : Byte} (h : xorBytes (body ++ [b]) = 0#8) :
    body ++ [b] = withCheckByte body := by
  rw [xorBytes_append, xorBytes_singleton] at h
  rw [withCheckByte, BitVec.xor_eq_zero_iff.1 h]

section
variable {s : State} {tag : Byte} {w h c : Word} {table : List CodeEntry} {payload : List Byte}

theorem container_of_holdsContainer (hc : HoldsContainer s tag w h c table payload) :
    s.container = withCheckByte (containerBody tag w h c table payload) := by
  obtain ⟨-, hlen, hbody, hcheck⟩ := hc
  rw [layoutBody_eq_containerBody] at hlen hbody
  rw [hlen, Nat.add_sub_cancel] at hbody
  have hsplit : s.container = containerBody tag w h c table payload ++ [s.cont.read (s.contLen.toNat - 1)] := by
    rw [State.container, hlen, Mem.slice_succ, Nat.add_sub_cancel]
    exact congrArg (· ++ _) hbody
  rw [hsplit]
  exact withCheckByte_of_xor_eq_zero (hsplit ▸ hcheck)

theorem holdsContainer_of_container (hfit : s.contLen.toNat ≤ s.cfg.maxCont)
    (hc : s.container = withCheckByte (containerBody tag w h c table payload)) :
    HoldsContainer s tag w h c table payload := by
  have hlen : s.contLen.toNat = (containerBody tag w h c table payload).length + 1 := by
    rw [← container_length, hc, withCheckByte, List.length_append]; rfl
  have hslice := hc
  rw [State.container, hlen] at hslice
  refine ⟨hfit, ?_, ?_, ?_⟩
  · rw [hlen, layoutBody_eq_containerBody]
  · rw [hlen, Nat.add_sub_cancel, layoutBody_eq_containerBody]
    exact (Mem.slice_body_check hslice).1
  · exact (congrArg xorBytes hc).trans (xorBytes_withCheckByte _)

end

/-! ## The fields that PARSE commits (45_container.md R227) -/

theorem knownTag_eq_true_iff {x : Byte} : knownTag x = true ↔ x = 0x00#8 ∨ x = 0x01#8 := by
  simp [knownTag, tagText, tagPixels]

/-- The header that PARSE reads: the shape of a text container is (0, 0, 0). -/
def headerRead (tag padf : Byte) (w h c : Word) : Header where
  tag := tag
  padf := padf
  shape0 := shapeRead tag w
  shape1 := shapeRead tag h
  shape2 := shapeRead tag c

/-- The fields that PARSE reads from a container in the layout. -/
def parsedFields (tag : Byte) (w h c : Word) (table : List CodeEntry) (payload : List Byte) : Parsed where
  header := headerRead tag (payload.headD 0#8) w h c
  table := table
  payload := payload

theorem parsedOk_of_acceptable {cfg : Config} (hcfg : CapacityBounds cfg) {tag : Byte} {table : List CodeEntry}
    {payload : List Byte} (ha : Acceptable cfg tag table payload) (w h c : Word) :
    ParsedOk cfg (parsedFields tag w h c table payload) := by
  have hK := hcfg.maxK
  have hP := hcfg.maxPay
  obtain ⟨hknown, hcodes, ⟨hk1, hk⟩, htyped, ⟨hp1, hp⟩, hheader⟩ := ha
  have hk32 : table.length < 2 ^ 32 := by omega
  have hp32 : payload.length < 2 ^ 32 := by omega
  refine ⟨?_, fun ht => ?_, hheader, ⟨hk1, hk, hk32⟩, fun e he => ?_, hcodes.distinct, hcodes.apart, ⟨hp1, hp, hp32⟩,
    rfl⟩
  · exact knownTag_eq_true_iff.2 hknown
  · exact ⟨if_neg ht, if_neg ht, if_neg ht⟩
  · obtain ⟨hpos, hle, hval⟩ := hcodes.entries e he
    exact ⟨validSymbol_iff.2 fun h => htyped h e he, hpos, hle, hle.trans hcfg.maxCodeLen, hval⟩

theorem ParsedOk.acceptable {cfg : Config} {r : Parsed} (hr : ParsedOk cfg r) :
    Acceptable cfg r.header.tag r.table r.payload := by
  obtain ⟨hknown, -, hpad, ⟨hk1, hk, -⟩, hread, hdistinct, hapart, ⟨hp1, hp, -⟩, hheader⟩ := hr
  refine ⟨knownTag_eq_true_iff.1 hknown, ⟨fun e he => ?_, hdistinct, hapart⟩, ⟨hk1, hk⟩, fun htext e he => ?_,
    ⟨hp1, hp⟩, by rwa [hheader]⟩
  · exact ⟨(hread e he).pos, (hread e he).le, (hread e he).val⟩
  · exact validSymbol_iff.1 (hread e he).valid htext

section
variable {s : State} {r : Parsed} (hs : DataOk s) (hr : ParsedOk s.cfg r)

theorem parsedState_code_beyond {k : Nat} (hk : r.table.length ≤ k) : (parsedState s r).code.read k = s.code.read k :=
  Mem.read_writeFrom_outside (.inr (by rwa [Nat.zero_add]))

theorem parsedState_pay_beyond {j : Nat} (hj : r.payload.length ≤ j) : (parsedState s r).pay.read j = s.pay.read j :=
  Mem.read_writeFrom_outside (.inr (by rwa [Nat.zero_add]))

include hr

theorem parsedState_kCnt : (parsedState s r).kCnt.toNat = r.table.length := toNat_ofNat_length hr.entries.2.2

theorem parsedState_payLen : (parsedState s r).payLen.toNat = r.payload.length := toNat_ofNat_length hr.payload.2.2

include hs

theorem codes_parsedState : codes (parsedState s r) = r.table :=
  slice_writeFrom_register hs.memories.code.1 hr.entries.2.2

theorem payBytes_parsedState : payBytes (parsedState s r) (parsedState s r).payLen.toNat = r.payload :=
  slice_writeFrom_register hs.memories.pay.1 hr.payload.2.2

end

/-- The field readers read an acceptable container in the layout, field by field. -/
theorem parseResult_of_acceptable {s : State} (hcfg : CapacityBounds s.cfg) {tag : Byte} {w h c : Word}
    {table : List CodeEntry} {payload : List Byte} (ha : Acceptable s.cfg tag table payload)
    (hc : HoldsContainer s tag w h c table payload) :
    parseResult s = .ok (parsedFields tag w h c table payload) := by
  refine parseResult_of_container_ok hc.fits ?_
  rw [container_of_holdsContainer hc]
  exact parseContainer_layout (parsedOk_of_acceptable hcfg ha w h c) w h c rfl rfl rfl

/-- Settles O46: the fields are read back from the layout, and what is committed is the fields. -/
theorem parseReadsAcceptableContainers : Obligations.ParseReadsAcceptableContainers := by
  intro s tag w h c table payload hs ha hc
  have hcfg := capacityBounds_of_wf hs.cfg
  have hr := parsedOk_of_acceptable hcfg ha w h c
  have hpay := payBytes_parsedState hs hr
  rw [parsedState_payLen hr] at hpay
  exact ⟨_, exec_parse_of_ok (parseResult_of_acceptable hcfg ha hc), rfl, parsedState_kCnt hr, codes_parsedState hs hr,
    parsedState_payLen hr, hpay, fun _ hk => parsedState_code_beyond hk, fun _ hj => parsedState_pay_beyond hj⟩

/-- Settles O47: a container that the field readers accept is the layout of what they read. -/
theorem parseAcceptsOnlyTheLayout : Obligations.ParseAcceptsOnlyTheLayout := by
  intro s t hs h herr
  obtain ⟨r, hok, rfl⟩ := exec_parse_succeeded h herr
  obtain ⟨hfit, hcont⟩ := parseResult_eq_ok hok
  obtain ⟨hbytes, hr⟩ := parseContainer_eq_ok hcont
  obtain ⟨-, -, -, hpad, -⟩ := (hs.exec h).payload.valid rfl
  rw [codes_parsedState hs hr, payBytes_parsedState hs hr]
  refine ⟨holdsContainer_of_container hfit hbytes, hr.acceptable, hpad, fun htext => hr.shape fun hpix => ?_⟩
  have : tagPixels = 0x00#8 := hpix.symm.trans htext
  exact absurd this (by decide)

/-! ## PARSE of what SERIALIZE wrote (45_container.md R228) -/

theorem payload_headD {s : State} (h1 : 1 ≤ s.payLen.toNat) : s.payload.headD 0#8 = s.pay.read 0 :=
  BitVec.eq_of_toNat_eq (payloadHeader_payload h1)

/-- Everything SERIALIZE writes satisfies what PARSE asks. -/
theorem acceptable_of_serializeResult {s : State} (hs : DataOk s) {bs : List Byte} (h : serializeResult s = .ok bs) :
    Acceptable s.cfg s.tag (codes s) s.payload := by
  obtain ⟨hcv, hpv, htag, hsym, -, -⟩ := serializeResult_eq_ok h
  obtain ⟨-, hp1, hp, hpad, hpad8, -⟩ := hs.payload.valid hpv
  have hk : (codes s).length = s.kCnt.toNat := Mem.slice_length _ _
  refine ⟨knownTag_iff.1 htag, hs.tables.code hcv, ?_, fun ht e he => validSymbol_iff.1 (hsym e he) ht, ?_, ?_⟩
  · rw [hk]; exact hs.tables.kCnt (.inr hcv)
  · rw [payload_length]; exact ⟨hp1, hp⟩
  · rw [payload_headD hp1, ← hpad]; exact hpad8

/-- `u` holds the results that SERIALIZE read in `s`: the shape for pixels only (45_container.md R228). -/
structure RestoresResults (s u : State) : Prop where
  cfg : u.cfg = s.cfg
  cv : u.cv = true
  pv : u.pv = true
  tag : u.tag = s.tag
  shape : s.tag = 0x01#8 → u.shape0 = s.shape0 ∧ u.shape1 = s.shape1 ∧ u.shape2 = s.shape2
  kCnt : u.kCnt = s.kCnt
  codes : codes u = codes s
  payLen : u.payLen = s.payLen
  pad : u.pad = s.pad
  payload : u.payload = s.payload

/-- PARSE of a container that SERIALIZE made restores the results, whatever else the state holds. -/
theorem exec_parse_of_serialized {s r : State} (hs : DataOk s) (hok : serializeResult s = .ok (containerOf s))
    (hr : DataOk r) (hcfg : r.cfg = s.cfg) (hc : r.container = containerOf s) :
    ∃ u, exec .parse r = .next u ∧ u.err = false ∧ RestoresResults s u := by
  obtain ⟨-, hpv, -, -, hfit, -⟩ := serializeResult_eq_ok hok
  obtain ⟨-, hp1, -, hpad, -⟩ := hs.payload.valid hpv
  have ha : Acceptable r.cfg s.tag (codes s) s.payload := hcfg ▸ acceptable_of_serializeResult hs hok
  have hfit' : r.contLen.toNat ≤ r.cfg.maxCont := by
    rw [← container_length, hc, hcfg]; exact hfit
  have hbounds := capacityBounds_of_wf hr.cfg
  have hfields := parsedOk_of_acceptable hbounds ha s.shape0 s.shape1 s.shape2
  have hkCnt := parsedState_kCnt (s := r) hfields
  have hpayLen := parsedState_payLen (s := r) hfields
  refine ⟨_, exec_parse_of_ok (parseResult_of_acceptable hbounds ha (holdsContainer_of_container hfit' hc)), rfl,
    hcfg, rfl, rfl, rfl, fun hpix => ⟨if_pos hpix, if_pos hpix, if_pos hpix⟩, BitVec.eq_of_toNat_eq ?_,
    codes_parsedState hr hfields, BitVec.eq_of_toNat_eq ?_, ?_, payBytes_parsedState hr hfields⟩
  · exact hkCnt.trans (Mem.slice_length _ _)
  · exact hpayLen.trans (payload_length s)
  · exact (payload_headD hp1).trans hpad.symm

/-- The container depends on the shape only for pixels. -/
theorem RestoresResults.containerOf_eq {s u : State} (h : RestoresResults s u) : containerOf u = containerOf s := by
  have hshape : shapeBytes s.tag u.shape0 u.shape1 u.shape2 = shapeBytes s.tag s.shape0 s.shape1 s.shape2 := by
    unfold shapeBytes
    split
    case isTrue hpix =>
      obtain ⟨h0, h1, h2⟩ := h.shape hpix
      rw [h0, h1, h2]
    case isFalse => rfl
  rw [containerOf, containerOf, containerBody, containerBody, codeTable_eq, codeTable_eq, h.tag, h.codes, h.payload,
    hshape]

/-- SERIALIZE of the restored results passes the same checks. -/
theorem RestoresResults.serializeResult_ok {s u : State} (h : RestoresResults s u) {bs : List Byte}
    (hok : serializeResult s = .ok bs) : serializeResult u = .ok (containerOf u) := by
  obtain ⟨-, -, htag, hsym, hfit, -⟩ := serializeResult_eq_ok hok
  refine Machine.serializeResult_ok h.cv h.pv (by rwa [h.tag]) ?_ (by rwa [h.containerOf_eq, h.cfg])
  rwa [codeTable_eq, h.codes, h.tag]

/-- Settles O52: PARSE restores the results, whose container is the same. -/
theorem serializeThenParseRestores : Obligations.SerializeThenParseRestores := by
  intro s t r hs h herr hr hcfg hlen hcont
  obtain ⟨hok, rfl⟩ := exec_serialize_succeeded h herr
  obtain ⟨-, -, -, -, hfit, -⟩ := serializeResult_eq_ok hok
  have hcontainer : r.container = containerOf s := by
    rw [← container_serializedState hs hfit, State.container, State.container, hlen]
    exact List.map_congr_left fun j hj => hcont j (List.mem_range.1 hj)
  obtain ⟨u, hu, huerr, hres⟩ := exec_parse_of_serialized hs hok hr hcfg hcontainer
  have hfitu : (containerOf u).length ≤ u.cfg.maxCont := by rwa [hres.containerOf_eq, hres.cfg]
  have hsame : (serializedState u).container = (serializedState s).container := by
    rw [container_serializedState (hr.exec hu) hfitu, container_serializedState hs hfit, hres.containerOf_eq]
  refine ⟨u, hu, huerr, hres.tag, hres.shape, hres.kCnt, hres.codes, hres.payLen, hres.pad, hres.payload,
    serializedState u, exec_serialize_of_ok (hres.serializeResult_ok hok), rfl, ?_, hsame⟩
  exact congrArg (fun bs => BitVec.ofNat 32 (List.length bs)) hres.containerOf_eq

/-! ## DECOMPRESS after COMPRESS (45_container.md R229) -/

/-- A chain of stages without a failure ran all of them. -/
theorem andThen_succeeded {c : Completion} {next : State → Completion} (h : (c.andThen next).failure = none) :
    c.failure = none ∧ c.andThen next = next c.state := by
  rcases andThen_cases c next with hc | ⟨hf, hc⟩
  · exact hc
  · exact absurd (hc ▸ h) hf

theorem complete_of_success {c : Completion} (h : c.failure = none) : complete c = succeeded c.state := by
  rw [complete, h]; rfl

/-- What a stage computes does not depend on the status fields that the completion before it would write, so a later
stage of a chain completes as the command does after that completion. -/
theorem exec_serialize_complete {c : Completion} (h : c.failure = none) :
    exec .serialize (complete c) = .next (complete (runSerialize c.state)) := by
  rw [complete_of_success h, exec_eq, completionOf, runSerialize, runSerialize,
    show serializeResult (succeeded c.state) = serializeResult c.state from rfl]
  cases serializeResult c.state <;> rfl

theorem exec_unpack_complete {c : Completion} (h : c.failure = none) :
    exec .unpack (complete c) = .next (complete (runUnpack c.state)) := by
  rw [complete_of_success h, exec_eq, completionOf, runUnpack, runUnpack,
    show unpackResult (succeeded c.state) = unpackResult c.state from rfl]
  cases unpackResult c.state <;> rfl

/-- A COMPRESS that reports no error ends in a PACK and a SERIALIZE, from a state `b` with the input, the tag and the
shape of the beginning (46_control.md R252). -/
theorem exec_compress_succeeded {s t : State} (hs : DataOk s) (h : exec .compress s = .next t) (herr : t.err = false) :
    ∃ b p, DataOk b ∧ HostSide s b ∧ EncodingFrame s b ∧ exec .pack b = .next p ∧ p.err = false ∧
      exec .serialize p = .next t := by
  rw [exec_eq] at h
  cases h
  obtain ⟨hpack, hrun⟩ := andThen_succeeded (complete_err_false.1 herr)
  obtain ⟨-, hrunPack⟩ := andThen_succeeded hpack
  let b := ((runCount s.invalidateCont).andThen runBuild).state
  have hframe : EncodingFrame s s.invalidateCont := by constructor <;> rfl
  have hside : HostSide s (runCount s.invalidateCont).state := (invalidateCont_hostSide s).trans (runCount_hostSide _)
  rw [hrunPack] at hpack
  have hchain : completionOf .compress s = runSerialize (runPack b).state := hrun.trans (by rw [hrunPack])
  refine ⟨b, complete (runPack b), ?_, ?_, ?_, exec_eq .pack b, complete_err_false.2 hpack, ?_⟩
  · exact andThen_keeps hs.invalidateCont.runCount fun _ _ ht => ht.runBuild
  · exact andThen_keeps hside fun _ t ht => ht.trans (runBuild_hostSide t)
  · exact andThen_keeps hframe.runCount fun _ _ ht => ht.runBuild
  · rw [exec_serialize_complete hpack, hchain]

/-- DECOMPRESS after a PARSE that reports no error is UNPACK of what PARSE left (46_control.md R253). -/
theorem exec_decompress_of_parse {s u : State} (h : exec .parse s.invalidateOut = .next u) (herr : u.err = false) :
    exec .decompress s = exec .unpack u := by
  rw [exec_eq] at h
  cases h
  have hparse := complete_err_false.1 herr
  rw [exec_eq, exec_unpack_complete hparse]
  show Host.Outcome.next (complete ((runParse s.invalidateOut).andThen runUnpack)) = _
  rw [Completion.andThen, show (runParse s.invalidateOut).failure = none from hparse]
  rfl

theorem exec_unpack_succeeded {s t : State} (h : exec .unpack s = .next t) (herr : t.err = false) :
    ∃ ws, unpackResult s = .ok ws ∧ t = unpackedState s ws := by
  cases hr : unpackResult s with
  | error why =>
    rw [exec_unpack_of_error hr] at h
    cases h
    cases herr
  | ok ws =>
    rw [exec_unpack_of_ok hr] at h
    cases h
    exact ⟨ws, rfl, rfl⟩

theorem unpackedState_read {s : State} (hs : DataOk s) {ws : List Word} {m : Nat} (hm : m < ws.length) :
    (unpackedState s ws).out.read m = ws[m] := by
  have hread := Mem.read_writeFrom_inside hs.memories.out.1 (base := 0) hm
  rwa [Nat.zero_add] at hread

/-- UNPACK computes the same from the restored results. -/
theorem RestoresResults.unpackResult_eq {s u : State} (h : RestoresResults s u) (hcv : s.cv = true)
    (hpv : s.pv = true) : unpackResult u = unpackResult s := by
  simp only [unpackResult, h.cv, h.pv, hcv, hpv, h.cfg, codeTable_eq, h.codes, h.payload]

/-- Settles O58: PARSE restores what PACK left (O52's lemma), and UNPACK of that gives the input back (O43). -/
theorem compressThenDecompressGivesTheInputBack : Obligations.CompressThenDecompressGivesTheInputBack := by
  intro s t hs h herr
  obtain ⟨b, p, hb, hside, hframe, hpack, hperr, hserialize⟩ := exec_compress_succeeded hs h herr
  have hp : DataOk p := hb.exec hpack
  have hencoding : EncodingFrame s p := by
    obtain ⟨enc, -, rfl⟩ := exec_pack_succeeded hpack hperr
    exact { hframe with }
  obtain ⟨hok, rfl⟩ := exec_serialize_succeeded hserialize herr
  obtain ⟨hcv, hpv, -, -, hfit, -⟩ := serializeResult_eq_ok hok
  have ht : DataOk (serializedState p) := hp.exec hserialize
  obtain ⟨u, hu, huerr, hres⟩ :=
    exec_parse_of_serialized hp hok ht.invalidateOut rfl (container_serializedState hp hfit)
  have hudata : DataOk u := ht.invalidateOut.exec hu
  obtain ⟨v, hv, hverr, -, houtLen, hout⟩ := packThenUnpackGivesTheInputBack b p hb hpack hperr
  obtain ⟨ws, hws, rfl⟩ := exec_unpack_succeeded hv hverr
  have hlen : ws.length = s.nLen.toNat := by
    rw [← unpackedState_outLen hp (unpackResult_output hws).1, houtLen, hside.nLen]
  refine ⟨unpackedState u ws, ?_, rfl, rfl, houtLen.trans hside.nLen, ?_, fun hpix => ?_, fun m hm => ?_⟩
  · rw [exec_decompress_of_parse hu huerr, exec_unpack_of_ok ((hres.unpackResult_eq hcv hpv).trans hws)]
  · exact hres.tag.trans hencoding.tag
  · obtain ⟨h0, h1, h2⟩ := hres.shape (hencoding.tag.trans hpix)
    exact ⟨h0.trans hencoding.shape0, h1.trans hencoding.shape1, h2.trans hencoding.shape2⟩
  · have hm' : m < ws.length := by omega
    rw [unpackedState_read hudata hm', ← unpackedState_read hp hm', hout m (by rw [hside.nLen]; exact hm), hside.sym]

end Sys2Proof.Machine
end

section
/-! PARSE fails exactly if the bytes before the check byte fail a check, and reports the first
(45_container.md R220, R222 to R226). -/

open Sys2Proof.Spec

namespace Sys2Proof.Machine

/-! ## The header checks, in order (45_container.md R222, R223) -/

/-- A field that must equal `f` is refused if the bytes do not begin with `f`: too few or others. -/
theorem bind_takeBytes_of_not_prefix {α : Type} {f bs : List Byte} {n : Nat} (h : ¬ f <+: bs)
    {next : List Byte × List Byte → Except ErrCode α}
    (hnext : ∀ g rest, g.length = n → g ≠ f → next (g, rest) = .error .corruptContainer) :
    (takeBytes n bs >>= next) = .error .corruptContainer := by
  by_cases hl : bs.length < n
  · rw [takeBytes_short hl]; rfl
  · have hsplit := List.take_append_drop n bs
    have hlen : (bs.take n).length = n := by rw [List.length_take]; omega
    rw [← hsplit, takeBytes_append hlen, except_bind_ok]
    exact hnext _ _ hlen fun he => h (he ▸ List.take_prefix n bs)

@[simp] theorem takeBytes_one_nil : takeBytes 1 [] = .error .corruptContainer := rfl

@[simp] theorem takeBytes_one_cons (b : Byte) (bs : List Byte) : takeBytes 1 (b :: bs) = .ok ([b], bs) :=
  takeBytes_append (f := [b]) rfl bs

@[simp] theorem takeBytes_magic (bs : List Byte) :
    takeBytes 4 (0x48#8 :: 0x55#8 :: 0x46#8 :: 0x5A#8 :: bs) = .ok (magicBytes, bs) :=
  takeBytes_append (f := magicBytes) rfl bs

theorem parseHeader_of_magic {body : List Byte} (h : ¬ magicBytes <+: body) :
    parseHeader body = .error .corruptContainer :=
  bind_takeBytes_of_not_prefix h fun g rest _ hne => by simp [beq_eq_false_iff_ne.2 hne]

section
variable {rest : List Byte}

theorem parseHeader_of_version (h : ¬ [0x01#8] <+: rest) :
    parseHeader ([0x48#8, 0x55#8, 0x46#8, 0x5A#8] ++ rest) = .error .corruptContainer := by
  simp only [parseHeader, List.cons_append, List.nil_append, takeBytes_magic, except_bind_ok, beq_self_eq_true,
    requireThat_true]
  exact bind_takeBytes_of_not_prefix h fun g rest _ hne => by simp [containerVersion, beq_eq_false_iff_ne.2 hne]

theorem parseHeader_of_noTag :
    parseHeader [0x48#8, 0x55#8, 0x46#8, 0x5A#8, 0x01#8] = .error .corruptContainer := rfl

theorem parseHeader_of_unknownTag {x : Byte} (h : ¬ knownTag x = true) :
    parseHeader ([0x48#8, 0x55#8, 0x46#8, 0x5A#8, 0x01#8, x] ++ rest) = .error .unsupportedFormat := by
  simp [parseHeader, containerVersion, h]

/-- The header from FLAGS on. -/
def parseFlags (tag : Byte) (bs : List Byte) : Except ErrCode (Header × List Byte) := do
  let (flagsField, bs) ← takeBytes 1 bs
  let flags := flagsField.headD 0#8
  requireThat (flags.extractLsb' 1 7 == 0#7) .corruptContainer
  requireThat (flags.getLsbD 0 == (tag == tagPixels)) .corruptContainer
  let (padField, bs) ← takeBytes 1 bs
  let padf := padField.headD 0#8
  requireThat (decide (padf.toNat ≤ 8)) .corruptContainer
  let ((w, h, c), bs) ← parseShape tag bs
  .ok ({ tag := tag, padf := padf, shape0 := BitVec.ofNat 32 w, shape1 := BitVec.ofNat 32 h,
         shape2 := BitVec.ofNat 32 c }, bs)

/-- Past a known tag, the fields from FLAGS on decide. -/
theorem parseHeader_of_knownTag {x : Byte} (hx : knownTag x = true) :
    parseHeader ([0x48#8, 0x55#8, 0x46#8, 0x5A#8, 0x01#8, x] ++ rest) = parseFlags x rest := by
  simp only [parseHeader, List.cons_append, List.nil_append, takeBytes_magic, except_bind_ok, beq_self_eq_true,
    requireThat_true, takeBytes_one_cons, containerVersion, List.headD_cons, hx]
  rfl

section
variable {x : Byte}

theorem parseFlags_of_flags (h : ¬ [shapeFlag x] <+: rest) : parseFlags x rest = .error .corruptContainer := by
  refine bind_takeBytes_of_not_prefix h fun g rest hg hne => ?_
  obtain ⟨b, rfl⟩ := List.length_eq_one_iff.1 hg
  have hb := mt (shapeFlag_iff x b).1 fun he => hne (by rw [he])
  simp only [List.headD_cons]
  cases h7 : b.extractLsb' 1 7 == 0#7 with
  | false => rfl
  | true =>
    have h0 : (b.getLsbD 0 == (x == tagPixels)) = false := by simpa using fun h0 => hb ⟨h7, h0⟩
    simp only [h0]
    rfl

/-- Past the right flags, PADF and SHAPE decide. -/
theorem parseFlags_of_padding (padf : Byte) :
    parseFlags x (shapeFlag x :: padf :: rest) =
      requireThat (decide (padf.toNat ≤ 8)) .corruptContainer >>= fun _ => parseShape x rest >>= fun y =>
        .ok ({ tag := x, padf := padf, shape0 := BitVec.ofNat 32 y.1.1, shape1 := BitVec.ofNat 32 y.1.2.1,
               shape2 := BitVec.ofNat 32 y.1.2.2 }, y.2) := by
  obtain ⟨f1, f2⟩ := (shapeFlag_iff x (shapeFlag x)).2 rfl
  simp only [parseFlags, takeBytes_one_cons, except_bind_ok, List.headD_cons, f1, f2, requireThat_true]
  rfl

theorem parseFlags_of_badPadding {padf : Byte} (hp : 8 < padf.toNat) :
    parseFlags x (shapeFlag x :: padf :: rest) = .error .corruptContainer := by
  rw [parseFlags_of_padding, requireThat_of_not (Nat.not_le.2 hp)]
  rfl

theorem parseFlags_of_noPadding : parseFlags x [shapeFlag x] = .error .corruptContainer := by
  obtain ⟨f1, f2⟩ := (shapeFlag_iff x (shapeFlag x)).2 rfl
  simp only [parseFlags, takeBytes_one_cons, except_bind_ok, List.headD_cons, f1, f2, requireThat_true,
    takeBytes_one_nil, except_bind_error]

end
end

/-- Enough bytes begin with a field. -/
theorem exists_field_append {n : Nat} {bs : List Byte} (h : n ≤ bs.length) :
    ∃ f rest, f.length = n ∧ bs = f ++ rest :=
  ⟨bs.take n, bs.drop n, List.length_take_of_le h, (List.take_append_drop n bs).symm⟩

theorem exists_beBytes_append {n : Nat} {bs : List Byte} (h : n ≤ bs.length) :
    ∃ v rest, v < 256 ^ n ∧ bs = beBytes n v ++ rest := by
  obtain ⟨f, rest, rfl, rfl⟩ := exists_field_append h
  exact ⟨beVal f, rest, beVal_lt f, by rw [beBytes_beVal]⟩

theorem parseShape_of_short {rest : List Byte} (h : rest.length < 12) :
    parseShape tagPixels rest = .error .corruptContainer := by
  unfold parseShape
  rw [if_pos rfl]
  by_cases h1 : rest.length < 4
  · rw [takeNat_short h1]; rfl
  · obtain ⟨v, rest, hv, rfl⟩ := exists_beBytes_append (Nat.not_lt.1 h1)
    rw [takeNat_beBytes hv]
    simp only [except_bind_ok]
    rw [List.length_append, beBytes_length] at h
    by_cases h2 : rest.length < 4
    · rw [takeNat_short h2]; rfl
    · obtain ⟨v, rest, hv, rfl⟩ := exists_beBytes_append (Nat.not_lt.1 h2)
      rw [takeNat_beBytes hv]
      simp only [except_bind_ok]
      rw [List.length_append, beBytes_length] at h
      rw [takeNat_short (by omega)]
      rfl

/-! ## The stages after the header (45_container.md R224 to R226) -/

/-- PARSE from P on. -/
def parsePayload (cfg : Config) (hd : Header) (table : List CodeEntry) (bs : List Byte) : Except ErrCode Parsed := do
  let (p, bs) ← takeNat 4 bs
  requireThat (decide (p ≠ 0)) .corruptContainer
  requireThat (decide (p ≤ cfg.maxPay)) .capacity
  let (payload, bs) ← takeBytes p bs
  requireThat (payload.headD 0#8 == hd.padf) .corruptContainer
  requireThat bs.isEmpty .corruptContainer
  .ok { header := hd, table := table, payload := payload }

/-- PARSE from the code entries on. -/
def parseTable (cfg : Config) (hd : Header) (k : Nat) (bs : List Byte) : Except ErrCode Parsed := do
  let (table, bs) ← parseEntries cfg.maxCodeLen hd.tag k bs
  requireThat (distinctSymbols table) .corruptContainer
  requireThat (prefixFree table) .corruptContainer
  parsePayload cfg hd table bs

/-- PARSE from K on. -/
def parseCount (cfg : Config) (hd : Header) (bs : List Byte) : Except ErrCode Parsed := do
  let (k, bs) ← takeNat 4 bs
  requireThat (decide (k ≠ 0)) .corruptContainer
  requireThat (decide (k ≤ cfg.maxK)) .capacity
  parseTable cfg hd k bs

theorem parseBody_eq_stages (cfg : Config) (bs : List Byte) :
    parseBody cfg bs = parseHeader bs >>= fun x => parseCount cfg x.1 x.2 := rfl

theorem parseBody_of_header_error {cfg : Config} {bs : List Byte} {c : ErrCode} (h : parseHeader bs = .error c) :
    parseBody cfg bs = .error c := by
  rw [parseBody_eq_stages, h]; rfl

theorem layoutHead_eq (x padf : Byte) (w h c : Word) (k : Nat) :
    layoutHead x padf w h c k =
      magicBytes ++ [containerVersion, x, shapeFlag x, padf] ++ shapeBytes x w h c ++ beBytes 4 k := by
  simp only [layoutHead, bigEndian_eq_beBytes]
  rfl

section
variable {cfg : Config} {x padf : Byte} {w h c : Word} {k : Nat}

/-- Past the header, K decides. -/
theorem parseBody_of_head (hx : x = 0x00#8 ∨ x = 0x01#8) (hp : padf.toNat ≤ 8) (rest : List Byte) :
    parseBody cfg (magicBytes ++ [containerVersion, x, shapeFlag x, padf] ++ shapeBytes x w h c ++ rest) =
      parseCount cfg (headerRead x padf w h c) rest := by
  rw [parseBody_eq_stages, parseHeader_layout (knownTag_eq_true_iff.2 hx) hp]
  rfl

theorem parseBody_of_count (hx : x = 0x00#8 ∨ x = 0x01#8) (hp : padf.toNat ≤ 8) (hk : k < 2 ^ 32)
    (rest : List Byte) :
    parseBody cfg (layoutHead x padf w h c k ++ rest) =
      requireThat (decide (k ≠ 0)) .corruptContainer >>= fun _ =>
      requireThat (decide (k ≤ cfg.maxK)) .capacity >>= fun _ =>
        parseTable cfg (headerRead x padf w h c) k rest := by
  rw [layoutHead_eq, List.append_assoc, parseBody_of_head hx hp, parseCount, takeNat_beBytes (n := 4) hk]
  rfl

/-- Enough bytes for the tag begin with a SHAPE field. -/
theorem exists_shapeBytes_append {bs : List Byte} (hl : (if x = 0x01#8 then 12 else 0) ≤ bs.length) :
    ∃ w h c rest, bs = shapeBytes x w h c ++ rest := by
  by_cases hx : x = 0x01#8
  · rw [if_pos hx] at hl
    obtain ⟨w, b1, hw, rfl⟩ := exists_beBytes_append (n := 4) (bs := bs) (by omega)
    rw [List.length_append, beBytes_length] at hl
    obtain ⟨h, b2, hh, rfl⟩ := exists_beBytes_append (n := 4) (bs := b1) (by omega)
    rw [List.length_append, beBytes_length] at hl
    obtain ⟨c, b3, hc, rfl⟩ := exists_beBytes_append (n := 4) (bs := b2) (by omega)
    refine ⟨BitVec.ofNat 32 w, BitVec.ofNat 32 h, BitVec.ofNat 32 c, b3, ?_⟩
    rw [shapeBytes, if_pos (show x = tagPixels from hx), toNat_ofNat_length hw, toNat_ofNat_length hh,
      toNat_ofNat_length hc]
    simp only [List.append_assoc]
  · exact ⟨0#32, 0#32, 0#32, bs, by rw [shapeBytes, if_neg (show ¬ x = tagPixels from hx), List.nil_append]⟩

theorem parseBody_of_shapeCut (hx : x = 0x00#8 ∨ x = 0x01#8) (hp : padf.toNat ≤ 8) {rest : List Byte}
    (hl : rest.length < if x = 0x01#8 then 16 else 4) :
    parseBody cfg ([0x48#8, 0x55#8, 0x46#8, 0x5A#8, 0x01#8, x, shapeFlag x, padf] ++ rest) =
      .error .corruptContainer := by
  by_cases hs : (if x = 0x01#8 then 12 else 0) ≤ rest.length
  · obtain ⟨w, h, c, rest, rfl⟩ := exists_shapeBytes_append hs
    have hshort : rest.length < 4 := by
      rw [List.length_append, shapeBytes_length] at hl
      split at hl <;> omega
    have hhead := parseBody_of_head (cfg := cfg) (w := w) (h := h) (c := c) hx hp rest
    rw [List.append_assoc] at hhead
    refine hhead.trans ?_
    rw [parseCount, takeNat_short hshort]
    rfl
  · have hpix : x = tagPixels := by
      by_contra hne
      exact hs (by rw [if_neg (show ¬ x = 0x01#8 from hne)]; omega)
    have hshort : rest.length < 12 := by rw [if_pos (show x = 0x01#8 from hpix)] at hs; omega
    have hflags : parseFlags x (shapeFlag x :: padf :: rest) = .error .corruptContainer := by
      rw [parseFlags_of_padding, requireThat_of hp, hpix, parseShape_of_short hshort]
      rfl
    exact parseBody_of_header_error ((parseHeader_of_knownTag (knownTag_eq_true_iff.2 hx)).trans hflags)

variable {es : List CodeEntry}

theorem readable_of_began (hb : Began cfg x padf k es) : ∀ e ∈ es, EntryReadable cfg.maxCodeLen x e := by
  intro e he
  obtain ⟨⟨hpos, hle, hval⟩, h64, htyped⟩ := hb.entries e he
  exact ⟨validSymbol_iff.2 htyped, hpos, hle, h64, hval⟩

/-- Past a right K, the entries decide. -/
theorem parseBody_of_began (hb : Began cfg x padf k es) (rest : List Byte) :
    parseBody cfg (layoutHead x padf w h c k ++ rest) = parseTable cfg (headerRead x padf w h c) k rest := by
  obtain ⟨h1, hk, hk32⟩ := hb.count
  rw [parseBody_of_count hb.known hb.padding hk32, requireThat_of (by omega), except_bind_ok, requireThat_of hk,
    except_bind_ok]

theorem layoutEntries_eq (es : List CodeEntry) : es.flatMap layoutEntry = es.flatMap entryBytes := by
  rw [funext layoutEntry_eq_entryBytes]

/-- Readable entries are read, and the others follow. -/
theorem parseEntries_append {m : Nat} (hes : ∀ e ∈ es, EntryReadable m x e) (n : Nat) (rest : List Byte) :
    parseEntries m x (es.length + n) (es.flatMap layoutEntry ++ rest) =
      parseEntries m x n rest >>= fun y => .ok (es ++ y.1, y.2) := by
  induction es with
  | nil =>
    rw [List.length_nil, Nat.zero_add]
    show parseEntries m x n rest = _
    cases parseEntries m x n rest <;> rfl
  | cons e es ih =>
    obtain ⟨hvalid, hpos, hle, h64, hval⟩ := hes e List.mem_cons_self
    rw [List.length_cons, Nat.add_right_comm, parseEntries, List.flatMap_cons, List.append_assoc,
      layoutEntry_eq_entryBytes, parseEntry_entryBytes hvalid hpos hle h64 hval]
    simp only [except_bind_ok, ih fun e he => hes e (List.mem_cons_of_mem _ he)]
    cases parseEntries m x n rest <;> rfl

/-- The first unreadable entry decides. -/
theorem parseBody_of_badEntry (w h c : Word) (hb : Began cfg x padf k es) (hk : es.length < k) {body rest : List Byte}
    {code : ErrCode} (he : parseEntry cfg.maxCodeLen x rest = .error code)
    (hbody : body = layoutHead x padf w h c k ++ (es.flatMap layoutEntry ++ rest) := by
      simp only [List.append_assoc]) :
    parseBody cfg body = .error code := by
  obtain ⟨n, rfl⟩ := Nat.exists_eq_add_of_lt hk
  have hentries := parseEntries_append (readable_of_began hb) (n + 1) rest
  rw [hbody, parseBody_of_began hb, parseTable, Nat.add_assoc]
  show (parseEntries cfg.maxCodeLen x _ _ >>= _) = _
  rw [hentries, parseEntries, he]
  rfl

/-! ## One entry (45_container.md R224) -/

variable {m : Nat} {y : Symbol} {rest : List Byte}

theorem parseEntry_of_symbolCut (hr : rest.length < 3) : parseEntry m x rest = .error .corruptContainer := by
  rw [parseEntry, takeNat_short hr]; rfl

theorem exists_symbol_append {bs : List Byte} (h : 3 ≤ bs.length) :
    ∃ (y : Symbol) (rest : List Byte), bs = bigEndian 3 y.toNat ++ rest := by
  obtain ⟨v, rest, hv, rfl⟩ := exists_beBytes_append h
  refine ⟨BitVec.ofNat 24 v, rest, ?_⟩
  rw [bigEndian_eq_beBytes, BitVec.toNat_ofNat, Nat.mod_eq_of_lt (show v < 2 ^ 24 from hv)]

theorem takeNat_symbol (y : Symbol) (rest : List Byte) :
    takeNat 3 (bigEndian 3 y.toNat ++ rest) = .ok (y.toNat, rest) := by
  rw [bigEndian_eq_beBytes, takeNat_beBytes (n := 3) y.isLt]

theorem parseEntry_of_symbol (hy : ¬ typedSymbol x y) :
    parseEntry m x (bigEndian 3 y.toNat ++ rest) = .error .corruptContainer := by
  rw [parseEntry, takeNat_symbol]
  simp [mt validSymbol_iff.1 hy]

theorem parseEntry_of_lengthCut (hy : typedSymbol x y) :
    parseEntry m x (bigEndian 3 y.toNat) = .error .corruptContainer := by
  rw [← List.append_nil (bigEndian 3 y.toNat), parseEntry, takeNat_symbol]
  simp [validSymbol_iff.2 hy]
  rfl

/-- An entry from its code bytes on. -/
def parseCode (y : Symbol) (n : Nat) (bs : List Byte) : Except ErrCode (CodeEntry × List Byte) := do
  let (v, bs) ← takeNat (ceilDiv8 n) bs
  requireThat (decide (v % 2 ^ (8 * ceilDiv8 n - n) = 0)) .corruptContainer
  .ok ({ sym := y, len := BitVec.ofNat 7 n, val := BitVec.ofNat 64 (v / 2 ^ (8 * ceilDiv8 n - n)) }, bs)

/-- Past the symbol, the length and the code bytes decide. -/
theorem parseEntry_of_length (hy : typedSymbol x y) (n : Byte) :
    parseEntry m x (bigEndian 3 y.toNat ++ ([n] ++ rest)) =
      requireThat (decide (n.toNat ≠ 0) && decide (n.toNat ≤ 64)) .corruptContainer >>= fun _ =>
      requireThat (decide (n.toNat ≤ m)) .capacity >>= fun _ => parseCode y n.toNat rest := by
  have hn : beVal [n] = n.toNat := by simp [beVal_cons]
  rw [parseEntry, takeNat_symbol]
  simp only [except_bind_ok, BitVec.ofNat_toNat, BitVec.setWidth_eq, validSymbol_iff.2 hy, requireThat_true]
  rw [takeNat_append (n := 1) (f := [n]) rfl, hn]
  rfl

theorem parseEntry_of_badLength (hy : typedSymbol x y) {n : Byte} (hn : n = 0x00#8 ∨ 64 < n.toNat) :
    parseEntry m x (bigEndian 3 y.toNat ++ ([n] ++ rest)) = .error .corruptContainer := by
  have hbad : (decide (n.toNat ≠ 0) && decide (n.toNat ≤ 64)) = false := by
    rcases hn with rfl | hn
    · rfl
    · simp [Nat.not_le.2 hn]
  rw [parseEntry_of_length hy, hbad]
  rfl

/-- Past a length that an entry can hold, MAX_CODE_LEN and the code bytes decide. -/
theorem parseEntry_of_heldLength (hy : typedSymbol x y) {n : Byte} (h1 : 1 ≤ n.toNat) (h64 : n.toNat ≤ 64) :
    parseEntry m x (bigEndian 3 y.toNat ++ ([n] ++ rest)) =
      requireThat (decide (n.toNat ≤ m)) .capacity >>= fun _ => parseCode y n.toNat rest := by
  rw [parseEntry_of_length hy, decide_eq_true (show n.toNat ≠ 0 by omega), decide_eq_true h64]
  rfl

theorem parseCode_of_cut {n : Nat} (hr : rest.length < ceilDiv8 n) :
    parseCode y n rest = .error .corruptContainer := by
  rw [parseCode, takeNat_short hr]
  rfl

theorem bitsVal_eq_zero_iff {c : Bits} : bitsVal c = 0 ↔ true ∉ c := by
  induction c with
  | nil => simp
  | cons b c ih => cases b <;> simp [bitsVal_cons, ih]

/-- The bits of a field below its first n are 0 exactly if its number is a multiple of their weight. -/
theorem beVal_mod_eq_zero_iff {f : List Byte} {n : Nat} (h : n ≤ 8 * f.length) :
    beVal f % 2 ^ (8 * f.length - n) = 0 ↔ true ∉ (f.flatMap bits8).drop n := by
  have hbits : f.flatMap bits8 =
      codeOf n (beVal f / 2 ^ (8 * f.length - n)) ++ codeOf (8 * f.length - n) (beVal f) := by
    rw [← codeOf_append, Nat.add_sub_cancel' h, ← flatMap_beBytes, beBytes_beVal]
  rw [hbits, List.drop_left' (codeOf_length _ _), ← bitsVal_eq_zero_iff, bitsVal_codeOf]

/-- Enough code bytes decide by their trailing bits. -/
theorem parseCode_of_bytes {n : Nat} {f : List Byte} (hf : f.length = ceilDiv8 n) :
    parseCode y n (f ++ rest) =
      requireThat (decide (true ∉ (f.flatMap bits8).drop n)) .corruptContainer >>= fun _ =>
        .ok ({ sym := y, len := BitVec.ofNat 7 n, val := BitVec.ofNat 64 (beVal f / 2 ^ (8 * ceilDiv8 n - n)) },
          rest) := by
  have hmod := beVal_mod_eq_zero_iff (f := f) (n := n) (by rw [hf]; exact (ceilDiv8_bounds n).1)
  rw [hf] at hmod
  rw [← decide_eq_decide.2 hmod, parseCode, takeNat_append hf]
  rfl

/-! ## The table checks (45_container.md R224) -/

/-- The two checks of the whole table find exactly the clashes. -/
theorem tableChecks_iff {es : List CodeEntry} :
    distinctSymbols es = true ∧ prefixFree es = true ↔
      ∀ i j (hi : i < es.length) (hj : j < es.length), i ≠ j → ¬ clash es[i] es[j] := by
  rw [distinctSymbols_iff, prefixFree_iff, List.Nodup, List.pairwise_map, List.pairwise_iff_getElem,
    List.pairwise_iff_getElem]
  constructor
  · rintro ⟨hsym, hbits⟩ i j hi hj hij hc
    rcases Nat.lt_or_gt_of_ne hij with hlt | hlt
    · exact hc.elim (hsym i j hi hj hlt) (hbits i j hi hj hlt).1
    · exact hc.elim (fun he => hsym j i hj hi hlt he.symm) (hbits j i hj hi hlt).2
  · intro h
    exact ⟨fun i j hi hj hlt he => h i j hi hj hlt.ne (.inl he), fun i j hi hj hlt =>
      ⟨fun hp => h i j hi hj hlt.ne (.inr hp), fun hp => h j i hj hi hlt.ne' (.inr hp)⟩⟩

/-- Past the entries, the table checks and the payload decide. -/
theorem parseBody_of_entries (hb : Began cfg x padf k es) (hk : es.length = k) :
    parseBody cfg (layoutHead x padf w h c k ++ es.flatMap layoutEntry ++ rest) =
      requireThat (distinctSymbols es) .corruptContainer >>= fun _ => requireThat (prefixFree es) .corruptContainer >>=
        fun _ => parsePayload cfg (headerRead x padf w h c) es rest := by
  have hread : parseEntries cfg.maxCodeLen (headerRead x padf w h c).tag k (es.flatMap layoutEntry ++ rest) =
      .ok (es, rest) := by
    rw [← hk, layoutEntries_eq]
    exact parseEntries_entryBytes (readable_of_began hb) rest
  rw [List.append_assoc, parseBody_of_began hb, parseTable, hread]
  rfl

theorem parseBody_of_clash (hb : Began cfg x padf k es) (hk : es.length = k) {i j : Nat} (hi : i < es.length)
    (hj : j < es.length) (hij : i ≠ j) (hc : clash es[i] es[j]) :
    parseBody cfg (layoutHead x padf w h c k ++ es.flatMap layoutEntry ++ rest) = .error .corruptContainer := by
  rw [parseBody_of_entries hb hk]
  cases hd : distinctSymbols es with
  | false => rfl
  | true =>
    cases hp : prefixFree es with
    | false => rfl
    | true => exact absurd hc (tableChecks_iff.1 ⟨hd, hp⟩ i j hi hj hij)

/-- Past a right table, the payload decides. -/
theorem parseBody_of_table (ht : TableRead cfg x padf k es) :
    parseBody cfg (layoutHead x padf w h c k ++ es.flatMap layoutEntry ++ rest) =
      parsePayload cfg (headerRead x padf w h c) es rest := by
  obtain ⟨hd, hp⟩ := tableChecks_iff.2 ht.apart
  rw [parseBody_of_entries ht.began ht.all, hd, hp]
  rfl

/-! ## The payload (45_container.md R225, R226) -/

section
variable {hd : Header}

theorem parsePayload_of_cut (hr : rest.length < 4) : parsePayload cfg hd es rest = .error .corruptContainer := by
  rw [parsePayload, takeNat_short hr]; rfl

theorem parsePayload_of_zero : parsePayload cfg hd es (bigEndian 4 0 ++ rest) = .error .corruptContainer := by
  rw [bigEndian_eq_beBytes, parsePayload, takeNat_beBytes (by omega)]; rfl

variable {p : Nat} (h1 : 1 ≤ p) (hp32 : p < 2 ^ 32)
include h1 hp32

theorem parsePayload_of_overlong (hp : cfg.maxPay < p) :
    parsePayload cfg hd es (bigEndian 4 p ++ rest) = .error .capacity := by
  rw [bigEndian_eq_beBytes, parsePayload, takeNat_beBytes (n := 4) hp32, except_bind_ok]
  simp only [requireThat_of (show p ≠ 0 by omega), requireThat_of_not (Nat.not_le.2 hp)]
  rfl

/-- Past a right P, the bytes of the payload and those after it decide. -/
theorem parsePayload_of_length (hp : p ≤ cfg.maxPay) :
    parsePayload cfg hd es (bigEndian 4 p ++ rest) =
      takeBytes p rest >>= fun z => requireThat (z.1.headD 0#8 == hd.padf) .corruptContainer >>= fun _ =>
        requireThat z.2.isEmpty .corruptContainer >>= fun _ => .ok { header := hd, table := es, payload := z.1 } := by
  rw [bigEndian_eq_beBytes, parsePayload, takeNat_beBytes (n := 4) hp32, except_bind_ok]
  simp only [requireThat_of (show p ≠ 0 by omega), requireThat_of hp]
  rfl

theorem parsePayload_of_payloadCut (hp : p ≤ cfg.maxPay) (hr : rest.length < p) :
    parsePayload cfg hd es (bigEndian 4 p ++ rest) = .error .corruptContainer := by
  rw [parsePayload_of_length h1 hp32 hp, takeBytes_short hr]
  rfl

end

theorem parsePayload_of_payload {hd : Header} {payload : List Byte} (h1 : 1 ≤ payload.length)
    (hp : payload.length ≤ cfg.maxPay) (hp32 : payload.length < 2 ^ 32) :
    parsePayload cfg hd es (bigEndian 4 payload.length ++ (payload ++ rest)) =
      requireThat (payload.headD 0#8 == hd.padf) .corruptContainer >>= fun _ =>
        requireThat rest.isEmpty .corruptContainer >>= fun _ =>
          .ok { header := hd, table := es, payload := payload } := by
  rw [parsePayload_of_length h1 hp32 hp, takeBytes_append rfl]
  rfl

end

end Sys2Proof.Machine
end

section
/-! Each check of R220 reports its code, and bytes that fail none are a container. -/

open Sys2Proof.Spec

namespace Sys2Proof.Machine

theorem toNat_pos_of_ne_zero {n : Byte} (h : n ≠ 0x00#8) : 1 ≤ n.toNat :=
  Nat.pos_of_ne_zero fun h0 => h (BitVec.eq_of_toNat_eq h0)

/-- Bytes that fail a check make PARSE fail with the check's code. -/
theorem parseBody_of_rejects {cfg : Config} {bs : List Byte} {code : BitVec 4} (hr : Rejects cfg bs code) :
    ∃ e, parseBody cfg bs = .error e ∧ e.number = code := by
  cases hr with
  | magic _ h => exact ⟨_, parseBody_of_header_error (parseHeader_of_magic h), rfl⟩
  | version _ h => exact ⟨_, parseBody_of_header_error (parseHeader_of_version h), rfl⟩
  | noTag => exact ⟨_, parseBody_of_header_error parseHeader_of_noTag, rfl⟩
  | tag x _ h0 h1 =>
    have hx := mt knownTag_eq_true_iff.1 (not_or.2 ⟨h0, h1⟩)
    exact ⟨_, parseBody_of_header_error (parseHeader_of_unknownTag hx), rfl⟩
  | flags x rest hx h =>
    have hknown := parseHeader_of_knownTag (rest := rest) (knownTag_eq_true_iff.2 hx)
    exact ⟨_, parseBody_of_header_error (hknown.trans (parseFlags_of_flags h)), rfl⟩
  | noPadding x hx =>
    have hknown := parseHeader_of_knownTag (rest := [shapeFlag x]) (knownTag_eq_true_iff.2 hx)
    exact ⟨_, parseBody_of_header_error (hknown.trans parseFlags_of_noPadding), rfl⟩
  | padding x padf rest hx h =>
    have hknown := parseHeader_of_knownTag (rest := shapeFlag x :: padf :: rest) (knownTag_eq_true_iff.2 hx)
    exact ⟨_, parseBody_of_header_error (hknown.trans (parseFlags_of_badPadding h)), rfl⟩
  | shapeOrCount x padf rest hx hp h => exact ⟨_, parseBody_of_shapeCut hx hp h, rfl⟩
  | countZero x padf w h c rest hx hp =>
    exact ⟨.corruptContainer, by rw [parseBody_of_count hx hp (by omega)]; rfl, rfl⟩
  | countCapacity x padf w h c k rest hx hp hk hk32 =>
    refine ⟨.capacity, ?_, rfl⟩
    rw [parseBody_of_count hx hp hk32, requireThat_of (by omega), requireThat_of_not (Nat.not_le.2 hk)]
    rfl
  | symbolCut x padf w h c k es rest hb hk hr =>
    exact ⟨_, parseBody_of_badEntry w h c hb hk (parseEntry_of_symbolCut hr), rfl⟩
  | symbol x padf w h c k es y rest hb hk hy =>
    have he := parseEntry_of_symbol (m := cfg.maxCodeLen) (rest := rest) hy
    exact ⟨_, parseBody_of_badEntry w h c hb hk he, rfl⟩
  | lengthCut x padf w h c k es y hb hk hy =>
    exact ⟨_, parseBody_of_badEntry w h c hb hk (parseEntry_of_lengthCut hy), rfl⟩
  | length x padf w h c k es y n rest hb hk hy hn =>
    have he := parseEntry_of_badLength (m := cfg.maxCodeLen) (rest := rest) hy hn
    exact ⟨_, parseBody_of_badEntry w h c hb hk he, rfl⟩
  | lengthCapacity x padf w h c k es y n rest hb hk hy hn h64 h0 =>
    have he := parseEntry_of_heldLength (m := cfg.maxCodeLen) (rest := rest) hy (toNat_pos_of_ne_zero h0) h64
    rw [requireThat_of_not (Nat.not_le.2 hn), except_bind_error] at he
    exact ⟨_, parseBody_of_badEntry w h c hb hk he, rfl⟩
  | codeCut x padf w h c k es y n rest hb hk hy hn hr =>
    obtain ⟨h1, h64, hm⟩ := hn
    have he := parseEntry_of_heldLength (m := cfg.maxCodeLen) (rest := rest) hy h1 h64
    rw [requireThat_of hm, except_bind_ok, parseCode_of_cut hr] at he
    exact ⟨_, parseBody_of_badEntry w h c hb hk he, rfl⟩
  | trailingBits x padf w h c k es y n f rest hb hk hy hn hf ht =>
    obtain ⟨h1, h64, hm⟩ := hn
    have he := parseEntry_of_heldLength (m := cfg.maxCodeLen) (rest := f ++ rest) hy h1 h64
    rw [requireThat_of hm, except_bind_ok, parseCode_of_bytes hf, requireThat_of_not (not_not.2 ht),
      except_bind_error] at he
    exact ⟨_, parseBody_of_badEntry w h c hb hk he, rfl⟩
  | table x padf w h c k es rest i j hb hk hi hj hij hc => exact ⟨_, parseBody_of_clash hb hk hi hj hij hc, rfl⟩
  | payloadLengthCut x padf w h c k es rest ht hr =>
    exact ⟨_, (parseBody_of_table ht).trans (parsePayload_of_cut hr), rfl⟩
  | payloadZero x padf w h c k es rest ht =>
    rw [List.append_assoc _ (bigEndian 4 0)]
    exact ⟨_, (parseBody_of_table ht).trans parsePayload_of_zero, rfl⟩
  | payloadCapacity x padf w h c k es p rest ht hp hp32 h0 =>
    rw [List.append_assoc _ (bigEndian 4 p)]
    exact ⟨_, (parseBody_of_table ht).trans (parsePayload_of_overlong (Nat.pos_of_ne_zero h0) hp32 hp), rfl⟩
  | payloadCut x padf w h c k es p rest ht hp hr =>
    obtain ⟨h1, hp, hp32⟩ := hp
    rw [List.append_assoc _ (bigEndian 4 p)]
    exact ⟨_, (parseBody_of_table ht).trans (parsePayload_of_payloadCut h1 hp32 hp hr), rfl⟩
  | payloadHeader x padf w h c k es payload rest ht hp hh =>
    obtain ⟨h1, hp, hp32⟩ := hp
    have hne : (payload.headD 0#8 == padf) = false := beq_eq_false_iff_ne.2 hh
    refine ⟨.corruptContainer, ?_, rfl⟩
    rw [List.append_assoc, List.append_assoc, parseBody_of_table ht, parsePayload_of_payload h1 hp hp32, headerRead,
      hne]
    rfl
  | trailingBytes x padf w h c k es payload rest ht hp hh hr =>
    obtain ⟨h1, hp, hp32⟩ := hp
    refine ⟨.corruptContainer, ?_, rfl⟩
    rw [List.append_assoc, List.append_assoc, parseBody_of_table ht, parsePayload_of_payload h1 hp hp32, headerRead, hh,
      List.isEmpty_eq_false_iff.2 hr, beq_self_eq_true]
    rfl

/-! ## Bytes that fail no check (45_container.md R220) -/

/-- The bytes fail a check. -/
def Rejected (cfg : Config) (bs : List Byte) : Prop := ∃ code, Rejects cfg bs code

theorem rejected_or_head (cfg : Config) (bs : List Byte) :
    Rejected cfg bs ∨ ∃ x padf w h c k rest, (x = 0x00#8 ∨ x = 0x01#8) ∧ padf.toNat ≤ 8 ∧ k < 2 ^ 32 ∧
      bs = layoutHead x padf w h c k ++ rest := by
  by_cases hm : [0x48#8, 0x55#8, 0x46#8, 0x5A#8] <+: bs
  case neg => exact .inl ⟨_, .magic bs hm⟩
  obtain ⟨rest, rfl⟩ := hm
  by_cases hv : [0x01#8] <+: rest
  case neg => exact .inl ⟨_, .version rest hv⟩
  obtain ⟨rest, rfl⟩ := hv
  obtain _ | ⟨x, rest⟩ := rest
  case nil => exact .inl ⟨_, .noTag⟩
  by_cases hx : x = 0x00#8 ∨ x = 0x01#8
  case neg => exact .inl ⟨_, .tag x rest (not_or.1 hx).1 (not_or.1 hx).2⟩
  by_cases hf : [if x = 0x01#8 then 0x01#8 else 0x00#8] <+: rest
  case neg => exact .inl ⟨_, .flags x rest hx hf⟩
  obtain ⟨rest, rfl⟩ := hf
  obtain _ | ⟨padf, rest⟩ := rest
  case nil => exact .inl ⟨_, .noPadding x hx⟩
  by_cases hp : padf.toNat ≤ 8
  case neg => exact .inl ⟨_, .padding x padf rest hx (Nat.not_le.1 hp)⟩
  by_cases hl : rest.length < if x = 0x01#8 then 16 else 4
  case pos => exact .inl ⟨_, .shapeOrCount x padf rest hx hp hl⟩
  have hshape : (if x = 0x01#8 then 12 else 0) ≤ rest.length := by split_ifs at hl ⊢ <;> omega
  obtain ⟨w, h, c, rest, rfl⟩ := exists_shapeBytes_append hshape
  have hlen : 4 ≤ rest.length := by
    rw [List.length_append, shapeBytes_length] at hl
    split at hl <;> omega
  obtain ⟨k, rest, hk, rfl⟩ := exists_beBytes_append hlen
  refine .inr ⟨x, padf, w, h, c, k, rest, hx, hp, hk, ?_⟩
  rw [layoutHead_eq, List.append_assoc, List.append_assoc]
  rfl

section
variable {cfg : Config} {x padf : Byte} {w h c : Word} {k : Nat} {es : List CodeEntry}

theorem began_append {e : CodeEntry} (hb : Began cfg x padf k es) (he : EntryReadable cfg.maxCodeLen x e) :
    Began cfg x padf k (es ++ [e]) := by
  obtain ⟨hknown, hpad, hcount, hes⟩ := hb
  refine ⟨hknown, hpad, hcount, fun d hd => ?_⟩
  rcases List.mem_append.1 hd with hd | hd
  · exact hes d hd
  · rw [List.mem_singleton.1 hd]
    exact ⟨⟨he.pos, he.le, he.val⟩, he.held, validSymbol_iff.1 he.valid⟩

/-- The next entry fails a check or is read. -/
theorem rejected_or_entry (hb : Began cfg x padf k es) (hk : es.length < k) (bs : List Byte) :
    Rejected cfg (layoutHead x padf w h c k ++ es.flatMap layoutEntry ++ bs) ∨
      ∃ e rest, bs = layoutEntry e ++ rest ∧ Began cfg x padf k (es ++ [e]) := by
  by_cases h3 : bs.length < 3
  case pos => exact .inl ⟨_, .symbolCut x padf w h c k es bs hb hk h3⟩
  obtain ⟨y, bs, rfl⟩ := exists_symbol_append (Nat.not_lt.1 h3)
  rw [← List.append_assoc]
  by_cases hy : typedSymbol x y
  case neg => exact .inl ⟨_, .symbol x padf w h c k es y bs hb hk hy⟩
  obtain _ | ⟨n, bs⟩ := bs
  case nil => exact .inl ⟨_, by rw [List.append_nil]; exact .lengthCut x padf w h c k es y hb hk hy⟩
  rw [← List.singleton_append, ← List.append_assoc]
  by_cases hn : n = 0x00#8 ∨ 64 < n.toNat
  case pos => exact .inl ⟨_, .length x padf w h c k es y n bs hb hk hy hn⟩
  obtain ⟨h0, h64⟩ := not_or.1 hn
  have h1 := toNat_pos_of_ne_zero h0
  by_cases hm : n.toNat ≤ cfg.maxCodeLen
  case neg =>
    exact .inl ⟨_, .lengthCapacity x padf w h c k es y n bs hb hk hy (Nat.not_le.1 hm) (Nat.not_lt.1 h64) h0⟩
  have hbounds := And.intro h1 (And.intro (Nat.not_lt.1 h64) hm)
  by_cases hc : bs.length < ceilDiv8 n.toNat
  case pos => exact .inl ⟨_, .codeCut x padf w h c k es y n bs hb hk hy hbounds hc⟩
  obtain ⟨f, bs, hf, rfl⟩ := exists_field_append (Nat.not_lt.1 hc)
  rw [← List.append_assoc]
  by_cases ht : true ∈ (f.flatMap bits8).drop n.toNat
  case pos => exact .inl ⟨_, .trailingBits x padf w h c k es y n f bs hb hk hy hbounds hf ht⟩
  have hread := parseEntry_of_heldLength (m := cfg.maxCodeLen) (rest := f ++ bs) hy h1 (Nat.not_lt.1 h64)
  rw [requireThat_of hm, except_bind_ok, parseCode_of_bytes hf, requireThat_of ht, except_bind_ok] at hread
  obtain ⟨hbs, hvalid, hpos, hle, hheld, hval⟩ := parseEntry_eq_ok hread
  rw [← layoutEntry_eq_entryBytes] at hbs
  exact .inr ⟨_, bs, by simpa only [List.append_assoc] using hbs, began_append hb ⟨hvalid, hpos, hle, hheld, hval⟩⟩

/-- The entries still to come fail a check or are all read. -/
theorem rejected_or_entries (n : Nat) : ∀ {es : List CodeEntry}, Began cfg x padf k es → es.length + n = k →
    ∀ bs, Rejected cfg (layoutHead x padf w h c k ++ es.flatMap layoutEntry ++ bs) ∨
      ∃ ds rest, es.flatMap layoutEntry ++ bs = ds.flatMap layoutEntry ++ rest ∧ Began cfg x padf k ds ∧
        ds.length = k := by
  induction n with
  | zero => exact fun {es} hb hk bs => .inr ⟨es, bs, rfl, hb, hk⟩
  | succ n ih =>
    intro es hb hk bs
    rcases rejected_or_entry (w := w) (h := h) (c := c) hb (by omega) bs with hr | ⟨e, rest, rfl, hb'⟩
    · exact .inl hr
    · have hnext := ih hb' (by rw [List.length_append, List.length_singleton]; omega) rest
      simpa only [List.flatMap_append, List.flatMap_singleton, List.append_assoc] using hnext

/-- Past a right table, the payload fails a check or is the rest. -/
theorem rejected_or_payload (ht : TableRead cfg x padf k es) (bs : List Byte) :
    Rejected cfg (layoutHead x padf w h c k ++ es.flatMap layoutEntry ++ bs) ∨
      ∃ r, parsePayload cfg (headerRead x padf w h c) es bs = .ok r := by
  by_cases h4 : bs.length < 4
  case pos => exact .inl ⟨_, .payloadLengthCut x padf w h c k es bs ht h4⟩
  obtain ⟨p, bs, hp32, rfl⟩ := exists_beBytes_append (Nat.not_lt.1 h4)
  rw [← bigEndian_eq_beBytes, ← List.append_assoc]
  by_cases h0 : p = 0
  case pos =>
    subst h0
    exact .inl ⟨_, .payloadZero x padf w h c k es bs ht⟩
  have h1 := Nat.pos_of_ne_zero h0
  by_cases hp : p ≤ cfg.maxPay
  case neg => exact .inl ⟨_, .payloadCapacity x padf w h c k es p bs ht (Nat.not_le.1 hp) hp32 h0⟩
  by_cases hl : bs.length < p
  case pos => exact .inl ⟨_, .payloadCut x padf w h c k es p bs ht ⟨h1, hp, hp32⟩ hl⟩
  obtain ⟨payload, rest, rfl, rfl⟩ := exists_field_append (Nat.not_lt.1 hl)
  rw [← List.append_assoc]
  by_cases hh : payload.headD 0#8 = padf
  case neg => exact .inl ⟨_, .payloadHeader x padf w h c k es payload rest ht ⟨h1, hp, hp32⟩ hh⟩
  by_cases hr : rest = []
  case neg => exact .inl ⟨_, .trailingBytes x padf w h c k es payload rest ht ⟨h1, hp, hp32⟩ hh hr⟩
  refine .inr ⟨{ header := headerRead x padf w h c, table := es, payload := payload }, ?_⟩
  rw [parsePayload_of_payload h1 hp hp32, headerRead, hh, hr, beq_self_eq_true]
  rfl

end

/-- Bytes that fail no check are accepted. -/
theorem rejected_or_accepted (cfg : Config) (bs : List Byte) : Rejected cfg bs ∨ ∃ r, parseBody cfg bs = .ok r := by
  obtain hr | ⟨x, padf, w, h, c, k, rest, hx, hp, hk32, rfl⟩ := rejected_or_head cfg bs
  case inl => exact .inl hr
  by_cases h0 : k = 0
  case pos =>
    subst h0
    exact .inl ⟨_, .countZero x padf w h c rest hx hp⟩
  by_cases hk : k ≤ cfg.maxK
  case neg => exact .inl ⟨_, .countCapacity x padf w h c k rest hx hp (Nat.not_le.1 hk) hk32⟩
  have hb : Began cfg x padf k [] := ⟨hx, hp, ⟨Nat.pos_of_ne_zero h0, hk, hk32⟩, by simp⟩
  obtain hr | ⟨es, bs, hbs, hb, hall⟩ := rejected_or_entries (w := w) (h := h) (c := c) k hb (Nat.zero_add k) rest
  case inl => exact .inl (by simpa using hr)
  rw [List.flatMap_nil, List.nil_append] at hbs
  rw [hbs, ← List.append_assoc]
  by_cases ha : ∀ i j (hi : i < es.length) (hj : j < es.length), i ≠ j → ¬ clash es[i] es[j]
  case neg =>
    simp only [not_forall, not_not] at ha
    obtain ⟨i, j, hi, hj, hij, hc⟩ := ha
    exact .inl ⟨_, .table x padf w h c k es bs i j hb hall hi hj hij hc⟩
  have ht : TableRead cfg x padf k es := ⟨hb, hall, ha⟩
  rw [parseBody_of_table ht]
  exact rejected_or_payload ht bs

/-- Settles O51: each check reports its code, and a container that fails none is accepted. -/
theorem parseReportsTheFirstError : Obligations.ParseReportsTheFirstError := by
  intro s h1 hfit hx
  have hbody := parseContainer_of_goodCheck h1 hx s.cfg
  refine ⟨fun code hr => ?_, fun t h herr => ?_⟩
  · obtain ⟨e, he, rfl⟩ := parseBody_of_rejects hr
    exact exec_parse_of_error (parseResult_of_container_error hfit (hbody.trans he))
  · obtain ⟨code, hr⟩ | ⟨r, hr⟩ := rejected_or_accepted s.cfg (contBytes s (s.contLen.toNat - 1))
    · obtain ⟨e, he, rfl⟩ := parseBody_of_rejects hr
      rw [exec_parse_of_error (parseResult_of_container_error hfit (hbody.trans he))] at h
      cases h
      exact hr
    · rw [exec_parse_of_ok (parseResult_of_container_ok hfit (hbody.trans hr))] at h
      cases h
      cases herr

end Sys2Proof.Machine
end

section
/-! The control commands: NOP, CLEAR and what ends the state it leaves, and the macros as runs of their stage commands
(46_control.md R250 to R253). -/

open Sys2Proof.Spec

namespace Sys2Proof.Machine

/-- Settles O53: NOP is a completion without a failure. -/
theorem nopOnlyCompletes : Obligations.NopOnlyCompletes := fun s =>
  (exec_eq .nop s).trans (congrArg _ (complete_of_success rfl))

/-! ## The macros as runs of their stages (46_control.md R252, R253) -/

theorem exec_build_complete {c : Completion} (h : c.failure = none) :
    exec .build (complete c) = .next (complete (runBuild c.state)) := by
  rw [complete_of_success h, exec_eq, completionOf, runBuild, runBuild,
    show buildResult (succeeded c.state) = buildResult c.state from rfl]
  cases buildResult c.state <;> rfl

theorem exec_pack_complete {c : Completion} (h : c.failure = none) :
    exec .pack (complete c) = .next (complete (runPack c.state)) := by
  rw [complete_of_success h, exec_eq, completionOf, runPack, runPack,
    show packResult (succeeded c.state) = packResult c.state from rfl]
  cases packResult c.state <;> rfl

theorem thenIfOk_of_ok {t : State} (h : t.err = false) (next : State → Host.Outcome State Fault Refusal) :
    thenIfOk (.next t) next = next t := by
  simp [thenIfOk, h]

/-- Commands run one after the other complete as the chain of their stages, if the second runs after a completion as its
stage does before it. -/
theorem thenIfOk_complete {c : Completion} {next : State → Host.Outcome State Fault Refusal} {run : State → Completion}
    (h : c.failure = none → next (complete c) = .next (complete (run c.state))) :
    thenIfOk (.next (complete c)) next = .next (complete (c.andThen run)) := by
  rcases andThen_cases c run with ⟨hc, e⟩ | ⟨hc, e⟩ <;> rw [e]
  · rw [thenIfOk_of_ok (complete_err_false.2 hc), h hc]
  · rw [thenIfOk, complete_err, if_pos (Option.isSome_iff_ne_none.2 hc)]

/-- Settles O55: each stage computes the same before and after the completion of the one before it. -/
theorem macrosRunTheirStages : Obligations.MacrosRunTheirStages := by
  refine fun s => ⟨?_, ?_⟩
  · rw [exec_eq .count, thenIfOk_complete exec_build_complete, thenIfOk_complete exec_pack_complete,
      thenIfOk_complete exec_serialize_complete, exec_eq]
    rfl
  · rw [exec_eq .parse, thenIfOk_complete exec_unpack_complete, exec_eq]
    rfl

/-! ## CLEAR (46_control.md R251) -/

theorem exec_clear (s : State) : exec .clear s = .next (succeeded (invalidated .clear s)) :=
  (exec_eq .clear s).trans (congrArg _ (complete_of_success rfl))

/-- The views of the result memories show nothing while no result is valid. -/
theorem windowView_masked {s : State} (hfv : s.fv = false) (hcv : s.cv = false) (hpv : s.pv = false)
    (hov : s.ov = false) (hsel : s.winSel ∈ [1#3, 2#3, 3#3, 5#3]) : s.windowView = 0#32 := by
  obtain ⟨-, hfreq, hcode, hpay, -, hout, -⟩ := windowView_of_winSel s
  simp only [List.mem_cons, List.not_mem_nil, or_false] at hsel
  rcases hsel with h | h | h | h
  · rw [hfreq h, viewFreq_masked (.inl hfv)]
  · rw [hcode h, viewCode_masked (.inl hcv)]
  · rw [hpay h, viewPay, hpv]; rfl
  · rw [hout h, viewOut, hov]; rfl

/-- No result that a command could read is valid: FV, CV and PV are all 0. -/
structure NoResult (s : State) : Prop where
  fv : s.fv = false
  cv : s.cv = false
  pv : s.pv = false

/-- The commands that need a result. -/
theorem NoResult.exec_of_reader {s : State} (h : NoResult s) {i : Instr}
    (hi : i ∈ [Instr.build, .pack, .serialize, .unpack]) :
    exec i s = .next (failed (invalidated i s) (opcode i) 7#4 0#32) := by
  simp only [List.mem_cons, List.not_mem_nil, or_false] at hi
  rcases hi with rfl | rfl | rfl | rfl
  · exact exec_build_of_error (buildResult_of_noTable h.fv)
  · exact exec_pack_of_error (packResult_of_noTable h.cv)
  · exact exec_serialize_of_error (serializeResult_of_noResult (.inl h.cv))
  · exact exec_unpack_of_error (unpackResult_of_noPayload (.inl h.cv))

theorem NoResult.of_sameResults {s t : State} (h : NoResult s) (hst : SameResults s t) : NoResult t :=
  ⟨hst.fv.trans h.fv, hst.cv.trans h.cv, hst.pv.trans h.pv⟩

/-! ## What ends the state that CLEAR leaves -/

/-- A frequency table, or nothing: what COUNT leaves, and what the later stages of COMPRESS keep. -/
def CountedOrNone (s : State) : Prop := s.fv = true ∨ NoResult s

theorem runCount_countedOrNone (s : State) : CountedOrNone (runCount s).state :=
  stage_keeps (.inr ⟨rfl, rfl, rfl⟩) fun _ _ => .inl rfl

section
variable {s : State} (h : CountedOrNone s)
include h

theorem CountedOrNone.runBuild : CountedOrNone (runBuild s).state :=
  stage_keeps (h.imp id fun hn => ⟨hn.fv, rfl, rfl⟩) fun _ ht => .inl (buildResult_eq_ok ht).1

theorem CountedOrNone.runPack : CountedOrNone (runPack s).state := by
  refine stage_keeps (h.imp id fun hn => ⟨hn.fv, hn.cv, rfl⟩) fun _ ht => ?_
  obtain ⟨hcv, -⟩ := packResult_eq_ok ht
  exact .inl (h.resolve_right fun hn => by simp [hn.cv] at hcv)

theorem CountedOrNone.runSerialize : CountedOrNone (runSerialize s).state :=
  stage_keeps (h.imp id fun hn => { hn with }) fun _ _ => h.imp id fun hn => { hn with }

end

/-- COMPRESS leaves a frequency table or nothing, whichever of its stages fails. -/
theorem runCompress_countedOrNone (s : State) : CountedOrNone (runCompress s).state := by
  refine andThen_keeps (andThen_keeps (andThen_keeps (runCount_countedOrNone _) ?_) ?_) ?_
  · exact fun _ _ h => h.runBuild
  · exact fun _ _ h => h.runPack
  · exact fun _ _ h => h.runSerialize

/-- A code table with a payload, or nothing: what PARSE leaves, and what UNPACK keeps. -/
def ParsedOrNone (s : State) : Prop := (s.cv = true ∧ s.pv = true) ∨ NoResult s

theorem runParse_parsedOrNone (s : State) : ParsedOrNone (runParse s).state :=
  stage_keeps (.inr ⟨rfl, rfl, rfl⟩) fun _ _ => .inl ⟨rfl, rfl⟩

theorem ParsedOrNone.runUnpack {s : State} (h : ParsedOrNone s) : ParsedOrNone (runUnpack s).state :=
  stage_keeps (h.imp id fun hn => { hn with }) fun _ _ => h.imp id fun hn => { hn with }

theorem runDecompress_parsedOrNone (s : State) : ParsedOrNone (runDecompress s).state :=
  andThen_keeps (runParse_parsedOrNone _) fun _ _ h => h.runUnpack

/-- The state holds what COUNT or PARSE leaves when it succeeds, and one of them or their macros ran. -/
def EndedBy (i : Instr) (t : State) : Prop :=
  i ∈ [Instr.count, .parse, .compress, .decompress] ∧ (t.fv = true ∨ (t.cv = true ∧ t.pv = true))

/-- From a state without a result a command leads to another, or it is one that makes a result. -/
theorem NoResult.exec {s t : State} (h : NoResult s) {i : Instr} (ht : exec i s = .next t) :
    NoResult t ∨ EndedBy i t := by
  have reader (hi : i ∈ [Instr.build, .pack, .serialize, .unpack]) (hkeep : NoResult (invalidated i s)) :
      NoResult t := by
    rw [h.exec_of_reader hi] at ht
    cases ht
    exact { hkeep with }
  have maker (hi : i ∈ [Instr.count, .parse, .compress, .decompress])
      (hc : ((completionOf i s).state.fv = true ∨
        ((completionOf i s).state.cv = true ∧ (completionOf i s).state.pv = true)) ∨
          NoResult (completionOf i s).state) : NoResult t ∨ EndedBy i t := by
    rw [exec_eq] at ht
    cases ht
    rcases hc with hres | hn
    · exact .inr ⟨hi, by rwa [complete_fv, complete_cv, complete_pv]⟩
    · exact .inl (hn.of_sameResults (complete_sameResults _))
  cases i with
  | nop => cases ht; exact .inl { h with }
  | clear => cases ht; exact .inl ⟨rfl, rfl, rfl⟩
  | build => exact .inl (reader (by simp) ⟨h.fv, rfl, rfl⟩)
  | pack => exact .inl (reader (by simp) ⟨h.fv, h.cv, rfl⟩)
  | serialize => exact .inl (reader (by simp) { h with })
  | unpack => exact .inl (reader (by simp) { h with })
  | count => exact maker (by simp) ((runCount_countedOrNone s).imp .inl id)
  | compress => exact maker (by simp) ((runCompress_countedOrNone s).imp .inl id)
  | parse => exact maker (by simp) ((runParse_parsedOrNone s).imp .inr id)
  | decompress => exact maker (by simp) ((runDecompress_parsedOrNone s).imp .inr id)

/-- The engine ends the state only by completing such a command. -/
theorem NoResult.engineStep {s t : State} (h : NoResult s) (ht : engineStep s = .next t) :
    NoResult t ∨ ∃ i, s.busy = true ∧ decode s.pend = .ok i ∧ EndedBy i t := by
  rcases engineStep_cases s with ⟨-, e⟩ | ⟨hb, i, hd, e⟩ | ⟨-, -, e⟩ <;> rw [e] at ht
  · cases ht; exact .inl h
  · exact (h.exec (i := i) (by rwa [exec_eq])).imp id fun hend => ⟨i, hb, hd, hend⟩
  · cases ht; exact .inl ⟨h.fv, h.cv, h.pv⟩

/-- Host accesses and resets do not end it. -/
theorem NoResult.step {s t : State} (h : NoResult s) (ht : step s = .next t) :
    NoResult t ∨ ∃ i, s.busy = true ∧ decode s.pend = .ok i ∧ EndedBy i t := by
  rcases step_cases s with ⟨-, e⟩ | ⟨rest, -, e⟩ | ⟨a, rest, -, e⟩ | ⟨c, rest, -, e⟩ <;> rw [e] at ht
  · exact h.engineStep ht
  · exact NoResult.engineStep (s := { s with input := rest }) { h with } ht
  · cases ht
    exact .inl (NoResult.of_sameResults (s := { s with input := rest }) { h with } (hostStep_sameResults _ a).1)
  · cases ht
    exact .inl ⟨rfl, rfl, rfl⟩

/-- Settles O54: CLEAR leaves a known state, whose views are masked; from a state without a result the readers fail, and
only a completion of COUNT, PARSE or their macros leads out of such states. -/
theorem clearForgetsEveryResult : Obligations.ClearForgetsEveryResult := by
  refine fun s => ⟨exec_clear s, fun t ht => ?_, fun hfv hcv hpv => ?_⟩
  · rw [exec_clear] at ht
    cases ht
    refine ⟨fun hsel => ?_, rfl, rfl, rfl⟩
    rw [hostStep_read_winData_idle rfl rfl]
    exact windowView_masked rfl rfl rfl rfl hsel
  · have h : NoResult s := ⟨hfv, hcv, hpv⟩
    refine ⟨fun i hi => h.exec_of_reader hi, fun t ht hvalid => ?_⟩
    rcases h.step ht with hn | ⟨i, hb, hd, hi, hres⟩
    · simp [hn.fv, hn.cv, hn.pv] at hvalid
    · exact ⟨i, hi, hb, hd, hres⟩

end Sys2Proof.Machine
end

section
/-! DECOMPRESS of an acceptable container (46_control.md R253, 45_container.md R227, 44_bit_unpacker.md R193). -/

open Sys2Proof.Spec

namespace Sys2Proof.Machine

/-- Settles O57: PARSE commits the container's fields (O46), and UNPACK decodes the payload that it commits (O40). -/
theorem decompressDecodesAcceptableContainers : Obligations.DecompressDecodesAcceptableContainers := by
  intro s tag w h c table es payload hs ha hc hheader hes hbits hn
  obtain ⟨u, hparse, hu, -, hcodes, hpayLen, hpay, -, -⟩ :=
    parseReadsAcceptableContainers s.invalidateOut tag w h c table payload hs.invalidateOut ha { hc with }
  have herr : u.err = false := by rw [hu]; rfl
  have hcv : u.cv = true := by rw [hu]; rfl
  have hpv : u.pv = true := by rw [hu]; rfl
  have hpayload : u.payload = payload := by rw [payload_eq, hpayLen, hpay]
  have h1 : 1 ≤ u.payLen.toNat := hpayLen ▸ ha.bytes.1
  have hhead : u.pay.read 0 = payload.headD 0#8 := by rw [← payload_headD h1, hpayload]
  have hcodeBits : codeBits u = es.flatMap CodeEntry.bits := by
    rw [← encodedBits_payload h1, hpayload]
    exact hbits
  have hmaxN : u.cfg = s.cfg := by rw [hu]; rfl
  obtain ⟨t, hunpack, ht, houtLen, hout, -⟩ :=
    unpackDecodesCodeSequences u es (hs.invalidateOut.exec hparse) hcv hpv (by rwa [hhead, hpayLen])
      (by rwa [hcodes]) hcodeBits (by rwa [hmaxN])
  refine ⟨t, (exec_decompress_of_parse hparse herr).trans hunpack, ?_, houtLen, hout, ?_⟩
  · rw [ht, hu]; rfl
  · rw [ht, hu]; rfl

end Sys2Proof.Machine
end

section
/-! COMPRESS of a valid input that fits (46_control.md R252): what its stages commit is computed from the input's
frequency table. -/

open Sys2Proof.Spec

namespace Sys2Proof.Machine

/-- A command's frame: the host's side, and what its sets do not name (10_state.md R48). -/
theorem exec_frames {s t : State} {i : Instr} (h : exec i s = .next t) : HostSide s t ∧ CommandFrame i s t := by
  rw [exec_eq] at h
  cases h
  exact ⟨(completionOf_hostSide i s).trans (HostSide.complete _), (completionOf_frame i s).complete⟩

/-! ## The tally of an input is its table (41_frequency.md R122, R123) -/

theorem mem_firstOccurrences {xs : List Symbol} {y : Symbol} : y ∈ firstOccurrences xs ↔ y ∈ xs := by
  induction xs with
  | nil => simp [firstOccurrences]
  | cons x xs ih =>
    simp only [firstOccurrences, List.mem_cons, List.mem_filter, ih, decide_eq_true_eq]
    tauto

theorem firstOccurrences_nodup (xs : List Symbol) : (firstOccurrences xs).Nodup := by
  induction xs with
  | nil => simp [firstOccurrences]
  | cons x xs ih => simpa [firstOccurrences] using ih.filter _

theorem firstOccurrences_perm_dedup (xs : List Symbol) : (firstOccurrences xs).Perm xs.dedup :=
  (List.perm_ext_iff_of_nodup (firstOccurrences_nodup xs) xs.nodup_dedup).2 fun x => by
    rw [mem_firstOccurrences, List.mem_dedup]

/-- The distinct symbols stand in the order of their first occurrences. -/
theorem firstOccurrences_order (xs : List Symbol) : ((firstOccurrences xs).map xs.idxOf).Pairwise (· < ·) := by
  induction xs with
  | nil => simp [firstOccurrences]
  | cons x xs ih =>
    rw [List.pairwise_map] at ih
    rw [firstOccurrences, List.map_cons, List.pairwise_cons, List.pairwise_map, List.idxOf_cons_self]
    have hlater {y : Symbol} (hy : y ∈ (firstOccurrences xs).filter fun y => decide (y ≠ x)) :
        (x :: xs).idxOf y = xs.idxOf y + 1 :=
      List.idxOf_cons_ne _ (Ne.symm (by simpa using (List.mem_filter.1 hy).2))
    refine ⟨fun n hn => ?_, (ih.filter _).imp_of_mem fun ha hb hlt => ?_⟩
    · obtain ⟨y, hy, rfl⟩ := List.mem_map.1 hn
      rw [hlater hy]
      exact Nat.succ_pos _
    · rw [hlater ha, hlater hb]
      exact Nat.succ_lt_succ hlt

/-- The symbols of a tally are the distinct symbols in the order of first occurrence. -/
theorem TallyOf.syms_eq {xs : List Symbol} {t : List FreqEntry} (h : TallyOf xs t) :
    t.map (·.sym) = firstOccurrences xs := by
  have hperm : (t.map (·.sym)).Perm (firstOccurrences xs) :=
    (List.perm_ext_iff_of_nodup h.nodup (firstOccurrences_nodup xs)).2 fun x => by rw [h.mem, mem_firstOccurrences]
  have horder : (t.map (·.sym)).Pairwise (fun a b => xs.idxOf a < xs.idxOf b) := by
    simpa [List.pairwise_map] using h.order
  have horder' := firstOccurrences_order xs
  rw [List.pairwise_map] at horder'
  exact hperm.eq_of_pairwise (fun a b _ _ hab hba => absurd (hab.trans hba) (lt_irrefl _)) horder horder'

/-- The table that COUNT makes is the one computed from the input. -/
theorem TallyOf.eq_inputTable {s : State} {t : List FreqEntry} (h : TallyOf (inputSymbols s) t) : t = inputTable s := by
  rw [inputTable, ← h.syms_eq, List.map_map]
  refine (List.map_id t).symm.trans (List.map_congr_left fun e he => ?_)
  have hcount : BitVec.ofNat 32 ((inputSymbols s).count e.sym) = e.count := by
    rw [← h.count e he, BitVec.ofNat_toNat, BitVec.setWidth_eq]
  show e = { sym := e.sym, count := BitVec.ofNat 32 ((inputSymbols s).count e.sym) }
  rw [hcount]

theorem inputTable_length (s : State) : (inputTable s).length = (inputSymbols s).dedup.length := by
  rw [inputTable, List.length_map, (firstOccurrences_perm_dedup _).length_eq]

/-! ## Valid inputs (41_frequency.md R121) -/

/-- A word whose upper byte is 0 is its symbol, zero-extended (30_encoding.md R94). -/
theorem setWidth_of_high_zero {w : Word} (h : w.extractLsb' 24 8 = 0#8) : (w.extractLsb' 0 24).setWidth 32 = w := by
  have hnat := congrArg BitVec.toNat h
  rw [BitVec.extractLsb'_toNat, Nat.shiftRight_eq_div_pow, BitVec.toNat_ofNat] at hnat
  refine BitVec.eq_of_toNat_eq ?_
  rw [BitVec.toNat_setWidth, BitVec.extractLsb'_toNat, Nat.shiftRight_zero]
  omega

/-- An input that passes COUNT's checks of R121 but the last. -/
structure ValidInput (s : State) : Prop where
  tag : tagKnown s
  pos : 1 ≤ s.nLen.toNat
  le : s.nLen.toNat ≤ s.cfg.maxN
  valid : ∀ i < s.nLen.toNat, validAt s i

section
variable {s : State} (hv : ValidInput s)
include hv

theorem ValidInput.of_hostSide {t : State} (h : HostSide s t) (htag : t.tag = s.tag) : ValidInput t := by
  obtain ⟨ht, hpos, hle, hvalid⟩ := hv
  constructor <;> simpa only [tagKnown, validAt, h.cfg, h.nLen, h.sym, htag]

theorem ValidInput.nLen_ne : s.nLen ≠ 0#32 := fun h => by simpa [h] using hv.pos

theorem ValidInput.countResult (hk : (inputTable s).length ≤ s.cfg.maxK) :
    countResult s = .ok (inputTable s) ∧ TallyOf (inputSymbols s) (inputTable s) := by
  rw [inputTable_length] at hk
  rcases countResult_of_valid hv.tag hv.nLen_ne hv.le hv.valid with ⟨t, hok, -⟩ | ⟨-, hgt⟩
  · obtain ⟨htally, -⟩ := countResult_tally hok
    rw [← inputSymbols_eq] at htally
    rw [← htally.eq_inputTable]
    exact ⟨hok, htally⟩
  · exact absurd hgt (Nat.not_lt.2 hk)

theorem ValidInput.symbol_setWidth {i : Nat} (hi : i < s.nLen.toNat) :
    ((s.sym.read i).extractLsb' 0 24).setWidth 32 = s.sym.read i :=
  setWidth_of_high_zero (hv.valid i hi).1

theorem ValidInput.typed {x : Symbol} (hx : x ∈ inputSymbols s) : typedSymbol s.tag x := by
  obtain ⟨i, hi, rfl⟩ := List.mem_map.1 hx
  exact (hv.valid i (List.mem_range.1 hi)).2

end

/-! ## The codes of a tally's symbols -/

section
variable {xs : List Symbol} {table : List FreqEntry} (h : TallyOf xs table)
include h

/-- Each symbol counted has an entry in the built table, and each entry's symbol was counted. -/
theorem TallyOf.mem_builtTable (x : Symbol) : (∃ e ∈ builtTable table, e.sym = x) ↔ x ∈ xs := by
  rw [← h.mem, ← builtTable_sym, List.mem_map]

/-- The entries of the built table for the symbols counted, in order. -/
theorem TallyOf.exists_entries : ∃ es : List CodeEntry, es.map (·.sym) = xs ∧ ∀ e ∈ es, e ∈ builtTable table := by
  have hex : ∀ x, ∃ e, x ∈ xs → e ∈ builtTable table ∧ e.sym = x := fun x => by
    by_cases hx : x ∈ xs
    · obtain ⟨e, he⟩ := (h.mem_builtTable x).2 hx
      exact ⟨e, fun _ => he⟩
    · exact ⟨default, fun hx' => absurd hx' hx⟩
  choose f hf using hex
  refine ⟨xs.map f, ?_, fun e he => ?_⟩
  · rw [List.map_map]
    exact (List.map_congr_left fun x hx => (hf x hx).2).trans (List.map_id xs)
  · obtain ⟨x, hx, rfl⟩ := List.mem_map.1 he
    exact (hf x hx).1

end

/-- A sum over entries of a table of distinct symbols, grouped by entry. -/
theorem sum_map_eq_sum_count {table es : List CodeEntry} (hd : (table.map (·.sym)).Nodup) (hes : ∀ e ∈ es, e ∈ table)
    (g : CodeEntry → Nat) :
    (es.map g).sum = (table.map fun e => (es.map (·.sym)).count e.sym * g e).sum := by
  have hcount {e : CodeEntry} (he : e ∈ table) : (es.map (·.sym)).count e.sym = es.count e := by
    rw [List.count, List.countP_map, List.count]
    refine List.countP_congr fun d hd' => ?_
    simp only [Function.comp, beq_iff_eq]
    exact ⟨fun hsym => List.inj_on_of_nodup_map hd (hes d hd') he hsym, congrArg _⟩
  have hgroup : table.map (fun e => (es.map (·.sym)).count e.sym * g e) = table.map fun e => es.count e • g e :=
    List.map_congr_left fun e he => by rw [hcount he, smul_eq_mul]
  rw [hgroup, Finset.sum_list_map_count, ← List.sum_toFinset _ (List.Nodup.of_map _ hd)]
  refine Finset.sum_subset (fun e he => by simpa using hes e (by simpa using he)) fun e _ hno => ?_
  rw [List.count_eq_zero_of_not_mem (by simpa using hno), zero_smul]

/-- The number of code bits that a frequency table's input takes: each count times its code's length. -/
def encodedLength (table : List FreqEntry) : Nat :=
  (List.zipWith (fun e c => e.count.toNat * c.length) table (huffmanCodes table)).sum

/-- The codes of the symbols counted take as many bits as the table says. -/
theorem TallyOf.encoded_length {xs : List Symbol} {table : List FreqEntry} (h : TallyOf xs table)
    (h64 : ∀ c ∈ huffmanCodes table, c.length ≤ 64) {es : List CodeEntry} (hsym : es.map (·.sym) = xs)
    (hes : ∀ e ∈ es, e ∈ builtTable table) : (es.flatMap CodeEntry.bits).length = encodedLength table := by
  have hd : ((builtTable table).map (·.sym)).Nodup := builtTable_sym table ▸ h.nodup
  simp only [List.length_flatMap, CodeEntry.bits_length]
  rw [sum_map_eq_sum_count hd hes fun e => e.len.toNat, hsym, encodedLength]
  refine congrArg List.sum (List.ext_getElem (by simp) fun k hk _ => ?_)
  have hk' : k < table.length := by simpa using hk
  rw [List.getElem_map, List.getElem_zipWith, builtTable_getElem hk', codeEntry_len (h64 _ (List.getElem_mem _)),
    h.count _ (List.getElem_mem hk')]
  rfl

/-! ## COUNT and BUILD (41_frequency.md R122, 42_tree_builder.md R148) -/

/-- The state that COUNT leaves for a valid input. -/
def countedState (s : State) : State := succeeded ((invalidated .count s).commitFreq (inputTable s))

theorem ValidInput.exec_count {s : State} (hv : ValidInput s) (hk : (inputTable s).length ≤ s.cfg.maxK) :
    exec .count s = .next (countedState s) :=
  exec_count_of_ok (hv.countResult hk).1

/-- A valid input, its frequency table, and the code table that BUILD makes of it, its codes fitting CODE's entries. -/
structure CodedInput (s : State) (table : List FreqEntry) : Prop where
  input : ValidInput s
  tally : TallyOf (inputSymbols s) table
  fv : s.fv = true
  cv : s.cv = true
  kCnt : s.kCnt.toNat = table.length
  freqs : freqs s = table
  holds : codes s = builtTable table
  fits : ∀ c ∈ huffmanCodes table, c.length ≤ 64

section
variable {s : State} (hs : DataOk s) (hk : (inputTable s).length ≤ s.cfg.maxK)
include hs hk

theorem inputTable_length_lt : (inputTable s).length < 2 ^ 32 := by
  have := (capacityBounds_of_wf hs.cfg).maxK
  omega

theorem countedState_kCnt : (countedState s).kCnt.toNat = (inputTable s).length :=
  toNat_ofNat_length (inputTable_length_lt hs hk)

theorem freqs_countedState : freqs (countedState s) = inputTable s :=
  slice_writeFrom_register hs.memories.freq.1 (inputTable_length_lt hs hk)

variable (hshort : ∀ c ∈ huffmanCodes (inputTable s), c.length ≤ s.cfg.maxCodeLen)
include hshort

theorem exec_build_countedState : exec .build (countedState s) = .next (builtState (countedState s)) :=
  exec_build_of_fits rfl (by rwa [freqs_countedState hs hk])

variable (hv : ValidInput s)
include hv

theorem codedInput_builtState : CodedInput (builtState (countedState s)) (inputTable s) where
  input := { hv with }
  tally := (hv.countResult hk).2
  fv := rfl
  cv := rfl
  kCnt := countedState_kCnt hs hk
  freqs := freqs_countedState hs hk
  holds := by rw [codes_builtState (hs.exec (hv.exec_count hk)), freqs_countedState hs hk]
  fits := fun c hc => (hshort c hc).trans (capacityBounds_of_wf hs.cfg).maxCodeLen

/-- COUNT and BUILD succeed, and leave the input with its tables. -/
theorem exists_codedInput : ∃ b, thenIfOk (exec .count s) (exec .build) = .next b ∧ b.err = false ∧ b.cfg = s.cfg ∧
    b.tag = s.tag ∧ DataOk b ∧ CodedInput b (inputTable s) := by
  have hcount := hv.exec_count hk
  have hbuild := exec_build_countedState hs hk hshort
  refine ⟨builtState (countedState s), ?_, rfl, rfl, rfl, (hs.exec hcount).exec hbuild,
    codedInput_builtState hs hk hshort hv⟩
  rw [hcount, thenIfOk_of_ok (t := countedState s) rfl, hbuild]

end

/-! ## PACK and SERIALIZE (43_bit_packer.md R172, R175, 45_container.md R210, R213) -/

section
variable {s : State} {table : List FreqEntry} (h : CodedInput s table)
include h

theorem CodedInput.bits : (codes s).map CodeEntry.bits = huffmanCodes table := by
  rw [h.holds]
  refine List.ext_getElem (by simp) fun k hk _ => ?_
  rw [List.getElem_map, builtTable_getElem (by simpa using hk), codeEntry_bits_of_le (h.fits _ (List.getElem_mem _))]

/-- The entries that hold the input's symbols are those that PACK looks up. -/
theorem CodedInput.entriesOfInput {es : List CodeEntry} (hsym : es.map (·.sym) = inputSymbols s)
    (hes : ∀ e ∈ es, e ∈ builtTable table) : EntriesOfInput s es := by
  have hlen : es.length = s.nLen.toNat := by rw [← inputSymbols_length, ← hsym, List.length_map]
  refine ⟨hlen, fun i hi => ⟨h.holds ▸ hes _ (List.getElem_mem hi), ?_⟩⟩
  have hi' : es[i].sym = (s.sym.read i).extractLsb' 0 24 := by
    have := congrArg (·[i]?) hsym
    simpa [inputSymbols, hi, hlen ▸ hi] using this
  rw [hi', h.input.symbol_setWidth (hlen ▸ hi)]

/-- PACK and SERIALIZE keep the input and the tables. -/
theorem CodedInput.after {t : State} {i : Instr} (hi : i ∈ [Instr.pack, .serialize]) (ht : exec i s = .next t) :
    CodedInput t table := by
  obtain ⟨hside, hframe⟩ := exec_frames ht
  have hno {l : List Instr} (hl : ∀ j ∈ l, j ∉ [Instr.pack, .serialize]) : i ∉ l := fun h => hl i h hi
  obtain ⟨htag, -⟩ := hframe.format (hno (by simp))
  obtain ⟨hfv, hkCnt⟩ := hframe.fv (hno (by simp))
  have hfreq := hframe.freq (hno (by simp))
  have hcode := hframe.code (hno (by simp))
  have hcv := hframe.cv (hno (by simp))
  refine ⟨h.input.of_hostSide hside htag, ?_, hfv.trans h.fv, hcv.trans h.cv, ?_, ?_, ?_, h.fits⟩
  · rw [inputSymbols, hside.nLen, hside.sym]; exact h.tally
  · rw [hkCnt]; exact h.kCnt
  · rw [Spec.freqs, hkCnt, hfreq]; exact h.freqs
  · rw [Spec.codes, hkCnt, hcode]; exact h.holds

theorem CodedInput.packResult (hs : DataOk s) (hfit : payloadLength (encodedLength table) ≤ s.cfg.maxPay) :
    ∃ enc, packResult s = .ok enc ∧ enc.length = encodedLength table := by
  obtain ⟨es, hsym, hes⟩ := h.tally.exists_entries
  have hlen := h.tally.encoded_length h.fits hsym hes
  refine ⟨_, ?_, hlen⟩
  have htranslate := (h.entriesOfInput hsym hes).translate_eq hs h.cv
  rw [packResult_of_translate_ok h.cv h.input.nLen_ne h.input.le htranslate, hlen]
  exact if_neg (Nat.not_lt.2 hfit)

/-- PACK succeeds if the payload fits, and keeps the tables. -/
theorem CodedInput.exec_pack (hs : DataOk s) (hfit : payloadLength (encodedLength table) ≤ s.cfg.maxPay) :
    ∃ t, exec .pack s = .next t ∧ t.err = false ∧ t.cfg = s.cfg ∧ t.tag = s.tag ∧ t.pv = true ∧
      t.payLen.toNat = payloadLength (encodedLength table) ∧ t.encBits.toNat = encodedLength table ∧
      CodedInput t table := by
  obtain ⟨enc, henc, hlen⟩ := h.packResult hs hfit
  have hfit32 : payloadLength enc.length < 2 ^ 29 := (hlen ▸ hfit).trans_lt (capacityBounds_of_wf hs.cfg).maxPay
  obtain ⟨hpayLen, -, hencBits⟩ := commitPack_registers (invalidated .pack s) hfit32
  have hpack := exec_pack_of_ok henc
  exact ⟨packedState s enc, hpack, rfl, rfl, rfl, rfl, hlen ▸ hpayLen, hlen ▸ hencBits, h.after (by simp) hpack⟩

theorem CodedInput.containerOf_length : (containerOf s).length =
    17 + 12 * (if s.tag = 0x01#8 then 1 else 0) + ((huffmanCodes table).map fun c => 4 + (c.length + 7) / 8).sum +
      s.payLen.toNat := by
  have hlengths := congrArg (List.map fun n => 4 + (n + 7) / 8) (builtTable_lengths h.fits)
  rw [List.map_map, List.map_map] at hlengths
  rw [Machine.containerOf_length, containerLength, h.holds]
  exact congrArg (fun l : List Nat => _ + l.sum + _) hlengths

theorem CodedInput.exec_serialize (hpv : s.pv = true) (hfit : (containerOf s).length ≤ s.cfg.maxCont) :
    exec .serialize s = .next (serializedState s) := by
  refine exec_serialize_of_ok (serializeResult_ok h.cv hpv (knownTag_iff.2 h.input.tag) (fun e he => ?_) hfit)
  rw [codeTable_eq, h.holds] at he
  exact validSymbol_iff.2 (h.input.typed ((h.tally.mem_builtTable _).1 ⟨e, he, rfl⟩))

end

/-! ## The run of the four stages -/

/-- A COMPRESS that reports no error changes only what its stages commit (10_state.md R48). -/
theorem exec_compress_frame {s t : State} (h : exec .compress s = .next t) (herr : t.err = false) (hfv : t.fv = true)
    (hcv : t.cv = true) (hpv : t.pv = true) :
    t = succeeded { s with
      freq := t.freq, code := t.code, pay := t.pay, cont := t.cont, kCnt := t.kCnt, payLen := t.payLen
      pad := t.pad, encBits := t.encBits, contLen := t.contLen, fv := true, cv := true, pv := true } := by
  rw [exec_eq] at h
  cases h
  rw [complete_of_success (complete_err_false.1 herr)] at hfv hcv hpv ⊢
  obtain ⟨hcfg, hovr, hpend, hen, hn, hsel, hidx, hsym, hrd, hin⟩ := completionOf_hostSide .compress s
  obtain ⟨htag, hshape0, hshape1, hshape2, hov, houtLen, hout⟩ := runCompress_frame s
  simp only [completionOf, succeeded] at *
  simp only [*]

/-- Settles O56: each stage's checks pass on what the stage before it left, and what each stage commits is computed from
the input's table. -/
theorem compressSucceedsOnValidInput : Obligations.CompressSucceedsOnValidInput := by
  intro s hs htag h1 hn hvalid table cs n p l hk hshort hp hl
  obtain ⟨b, hrun, hberr, hbcfg, hbtag, hb, hcoded⟩ :=
    exists_codedInput (s := s.invalidateCont) hs.invalidateCont hk hshort ⟨htag, h1, hn, hvalid⟩
  obtain ⟨c, hpack, hcerr, hccfg, hctag, hpv, hpayLen, hencBits, hc⟩ := hcoded.exec_pack hb (by rw [hbcfg]; exact hp)
  have hcfg : c.cfg = s.cfg := hccfg.trans hbcfg
  have hlen : (containerOf c).length = l := by rw [hc.containerOf_length, hpayLen, hctag, hbtag]; rfl
  have hserialize := hc.exec_serialize hpv (by rwa [hlen, hcfg])
  have hcompress : exec .compress s = .next (serializedState c) := by
    rw [(macrosRunTheirStages s).1]
    show thenIfOk (thenIfOk (thenIfOk (exec .count s.invalidateCont) (exec .build)) (exec .pack)) (exec .serialize) = _
    rw [hrun, thenIfOk_of_ok hberr, hpack, thenIfOk_of_ok hcerr, hserialize]
  have ht : CodedInput (serializedState c) table := hc.after (by simp) hserialize
  obtain ⟨-, hframe⟩ := exec_frames hserialize
  obtain ⟨hpv', hpayLen', -, hencBits'⟩ := hframe.pv (by simp)
  refine ⟨serializedState c, hcompress, exec_compress_frame hcompress rfl ht.fv ht.cv (hpv'.trans hpv), ht.kCnt,
    ht.freqs, ht.bits, ?_, ?_, ?_⟩
  · rw [hpayLen']; exact hpayLen
  · rw [hencBits']; exact hencBits
  · exact (toNat_ofNat_length (hlen ▸ hl.trans_lt (capacityBounds_of_wf hs.cfg).maxCont)).trans hlen

end Sys2Proof.Machine
end

section
/-! How a command ends: the interrupt that its completion raises (60_exceptions.md R276), and the failure that commits
nothing (60_exceptions.md R272). -/

open Sys2Proof.Spec

namespace Sys2Proof.Machine

/-! ## What drops irq (10_state.md R32 to R34, 60_exceptions.md R276) -/

theorem State.irq_eq_true {s : State} : s.irq = true ↔ s.donePend = true ∧ s.doneEn = true := Bool.and_eq_true_iff

/-- A completion sets DONE_PEND and leaves DONE_EN, so irq is then what DONE_EN is. -/
theorem complete_irq (c : Completion) : (complete c).irq = c.state.doneEn := by
  rw [State.irq, complete_donePend, complete_doneEn, Bool.true_and]

/-- The engine's step never drops irq: an idle block stays as it is, and a completion can only raise it. -/
theorem engineStep_keeps_irq {s t : State} (h : engineStep s = .next t) (hirq : s.irq = true) : t.irq = true := by
  obtain ⟨-, hen⟩ := State.irq_eq_true.1 hirq
  rcases engineStep_cases s with ⟨-, e⟩ | ⟨-, i, -, e⟩ | ⟨-, -, e⟩ <;> rw [e] at h <;> cases h
  · exact hirq
  · rw [complete_irq, (completionOf_hostSide i s).doneEn, hen]
  · rw [complete_irq, hen]

theorem busRead_irq (s : State) (off : BitVec 12) : (busRead s off).irq = s.irq := by
  rcases busRead_cases s off with ⟨-, -, h⟩ | ⟨-, _, h⟩ <;> rw [h] <;> rfl

/-- An accepted write of any register but IRQ_EN and IRQ_STAT leaves irq alone. -/
theorem writeReg_irq {s : State} {r : Reg} (hen : r ≠ .irqEn) (hstat : r ≠ .irqStat) (d : Word) :
    (writeReg s r d).irq = s.irq := by
  cases r
  case irqEn => exact absurd rfl hen
  case irqStat => exact absurd rfl hstat
  case winData =>
    rcases windowStore_cases s d with ⟨-, -, h⟩ | ⟨-, -, h⟩ | ⟨h, -, -⟩ <;> rw [writeReg, h] <;> rfl
  all_goals rfl

/-- A host write that drops irq: DONE_PEND acknowledged at IRQ_STAT, or DONE_EN cleared at IRQ_EN. -/
def DropsIrq (off : BitVec 12) (d : Word) : Prop :=
  (aligned off = 0x02C#12 ∧ d.getLsbD 0 = true) ∨ (aligned off = 0x028#12 ∧ d.getLsbD 0 = false)

/-- Every other write leaves a raised irq raised, by the register that it reaches. -/
theorem busWrite_keeps_irq {s : State} {off : BitVec 12} {d : Word} (hirq : s.irq = true) (hno : ¬ DropsIrq off d) :
    (busWrite s off d).irq = true := by
  obtain ⟨hpend, hen⟩ := State.irq_eq_true.1 hirq
  rcases busWrite_cases s off d with ⟨-, e⟩ | ⟨_, -, -, -, e⟩ | ⟨r, hr, -, e⟩ <;> rw [e]
  · exact hirq
  · exact hirq
  · have hoff : aligned off = r.offset := regAt_eq_some.1 hr
    by_cases hrEn : r = .irqEn
    · subst hrEn
      have hd : d.getLsbD 0 = true := Bool.of_not_eq_false fun h => hno (.inr ⟨hoff, h⟩)
      exact State.irq_eq_true.2 ⟨hpend, hd⟩
    by_cases hrStat : r = .irqStat
    · subst hrStat
      have hd : d.getLsbD 0 = false := Bool.of_not_eq_true fun h => hno (.inl ⟨hoff, h⟩)
      have hkept : (s.donePend && !d.getLsbD 0) = true := by rw [hpend, hd]; rfl
      exact State.irq_eq_true.2 ⟨hkept, hen⟩
    · rw [writeReg_irq hrEn hrStat, hirq]

theorem hostStep_keeps_irq {s : State} {a : HostAccess} (hirq : s.irq = true)
    (hno : ∀ off d, a = .write off d → ¬ DropsIrq off d) : (hostStep s a).irq = true := by
  cases a with
  | read off => exact (busRead_irq s off).trans hirq
  | write off d => exact busWrite_keeps_irq hirq (hno off d rfl)

/-- Settles O9: a completion sets DONE_PEND, and of the four kinds of step only such a write or a reset drops irq. -/
theorem irqStaysUntilTheHostClearsIt : Obligations.IrqStaysUntilTheHostClearsIt := by
  refine ⟨fun i s t ht => ?_, fun s d hd => ?_, fun s t ht hirq hlow => ?_⟩
  · rw [exec_eq] at ht
    cases ht
    rw [complete_irq, (completionOf_hostSide i s).doneEn]
  · have hwrite : hostStep s (.write 0x028#12 d) = { s with doneEn := d.getLsbD 0 } :=
      hostStep_write_unlocked (r := .irqEn) d rfl
    rw [hwrite, State.irq, hd, Bool.and_true]
  · have hne : t.irq ≠ true := by simp [hlow]
    rcases step_cases s with ⟨-, e⟩ | ⟨rest, -, e⟩ | ⟨a, rest, hin, e⟩ | ⟨c, rest, hin, -⟩
    · exact absurd (engineStep_keeps_irq (e ▸ ht) hirq) hne
    · exact absurd (engineStep_keeps_irq (s := { s with input := rest }) (e ▸ ht) hirq) hne
    · rw [e] at ht
      cases ht
      refine .inl (by_contra fun hnone => hne (hostStep_keeps_irq (s := { s with input := rest }) hirq ?_))
      rintro off d rfl hdrop
      exact hnone ⟨off, d, rest, hin, hdrop⟩
    · exact .inr ⟨c, rest, hin⟩

/-! ## What a failed command leaves (60_exceptions.md R272, 10_state.md R48) -/

theorem complete_of_failure {c : Completion} {f : Failure} (h : c.failure = some f) :
    complete c = failed c.state f.op f.why.code.number f.why.info := by
  rw [complete, h]; rfl

/-- A failed stage reports its own opcode, and has applied its invalidation set and nothing else. -/
theorem stage_of_failure {α : Type} {op : Byte} {inv : State → State} {r : Except Reason α}
    {commit : State → α → State} {s : State} {f : Failure} (h : (stage op inv r commit s).failure = some f) :
    f.op = op ∧ (stage op inv r commit s).state = inv s := by
  rcases stage_cases op inv r commit s with ⟨why, -, e⟩ | ⟨a, -, e⟩ <;> rw [e] at h ⊢ <;> cases h
  exact ⟨rfl, rfl⟩

/-- Every command but COMPRESS and DECOMPRESS is one stage, or it cannot fail. -/
theorem completionOf_of_failure {i : Instr} (hi : i ∉ [.compress, .decompress]) {s : State} {f : Failure}
    (h : (completionOf i s).failure = some f) : f.op = opcode i ∧ (completionOf i s).state = invalidated i s := by
  cases i with
  | nop => cases h
  | clear => cases h
  | compress => simp at hi
  | decompress => simp at hi
  | count => exact stage_of_failure h
  | build => exact stage_of_failure h
  | pack => exact stage_of_failure h
  | serialize => exact stage_of_failure h
  | parse => exact stage_of_failure h
  | unpack => exact stage_of_failure h

/-- Settles O24: ERR = 1 comes from a failure, and a command without further stages fails in its only one. -/
theorem failedCommandsCommitNothing : Obligations.FailedCommandsCommitNothing := by
  intro i s t hi ht herr
  rw [exec_eq] at ht
  cases ht
  obtain ⟨f, hf⟩ := Option.isSome_iff_exists.1 ((complete_err _).symm.trans herr)
  obtain ⟨hop, hstate⟩ := completionOf_of_failure hi hf
  rw [complete_of_failure hf, hop, hstate]
  exact ⟨rfl, f.why.code.number_pos⟩

end Sys2Proof.Machine
end

section
/-! Reset and hazards (70_reset_and_hazards.md): what a reset leaves, the memory contents it admits, and that the time of
the completion does not matter. -/

open Sys2Proof.Spec

namespace Sys2Proof.Machine

/-! ## The state after reset (10_state.md R55, 70_reset_and_hazards.md R300) -/

/-- Settles O59: every reset event gives the data part and the status part, and State.reset is what one of them leaves. -/
theorem resetMeetsTheInvariant : Obligations.ResetMeetsTheInvariant := by
  have hreset : ∀ (s : State) (c : Contents), s.cfg.wf = true → Inv (resetStep s c) :=
    fun s c hs => ⟨.resetStep hs c, .resetStep s c⟩
  have hinit : State.reset = resetStep State.reset ⟨[], [], [], [], [], []⟩ := rfl
  refine ⟨?_, hreset⟩
  rw [hinit]
  exact hreset _ _ (by decide)

@[simp] theorem statusWord_reset : State.reset.statusWord = 0#32 := rfl

@[simp] theorem statusWord_resetStep (s : State) (c : Contents) : (resetStep s c).statusWord = 0#32 := statusWord_reset

/-- After a reset only the identity and capacity constants and the window's data may read anything but 0. -/
theorem readReg_resetStep (s : State) (c : Contents) {r : Reg}
    (hr : r.offset ∉ [0x000#12, 0x004#12, 0x008#12, 0x00C#12, 0x010#12, 0x014#12, 0x018#12, 0x088#12]) :
    readReg (resetStep s c) r = 0#32 := by
  cases r
  case id | version | capN | capK | capClen | capPay | capCont | winData => exact absurd (by decide) hr
  case status => exact statusWord_resetStep s c
  all_goals rfl

/-- Settles O10: the reset event's state is known, field by field and read by read. -/
theorem resetClearsEveryRegister : Obligations.ResetClearsEveryRegister := by
  refine ⟨fun s c rest hin => ⟨_, step_of_reset hin, rfl, rfl, fun off hoff hconst => ?_⟩, rfl, rfl, statusWord_reset, rfl⟩
  obtain ⟨r, rfl⟩ := mem_registerOffsets.1 hoff
  rw [hostStep_read_rdata]
  exact readReg_resetStep _ c hconst

/-! ## The memory contents after reset (70_reset_and_hazards.md R302) -/

section
variable {α : Type}

/-- The elements 0 to n-1 of a memory that holds `f`, as the pairs of a reset event. -/
def elementsBelow (n : Nat) (f : Nat → α) : List (Nat × α) := (List.range n).map fun j => (j, f j)

theorem elementsBelow_succ (n : Nat) (f : Nat → α) : elementsBelow (n + 1) f = elementsBelow n f ++ [(n, f n)] := by
  simp [elementsBelow, List.range_succ]

variable [Inhabited α] [DecidableEq α]

theorem Mem.ofPairs_concat {cap i : Nat} (hi : i < cap) (l : List (Nat × α)) (v : α) :
    Mem.ofPairs cap (l ++ [(i, v)]) = Mem.write (Mem.ofPairs cap l) i v := by
  simp [Mem.ofPairs, hi]

theorem Mem.read_ofPairs_elementsBelow {cap n : Nat} (hn : n ≤ cap) (f : Nat → α) {j : Nat} (hj : j < n) :
    (Mem.ofPairs cap (elementsBelow n f)).read j = f j := by
  induction n with
  | zero => omega
  | succ n ih =>
    rw [elementsBelow_succ, Mem.ofPairs_concat hn, Mem.read_write (MemOk.ofPairs _ _).1]
    split_ifs with h
    · rw [h]
    · exact ih (by omega) (by omega)

end

/-- CONT_LEN is 0 after a reset, and an empty blob is no container; what PARSE invalidates is 0 already. -/
theorem exec_parse_resetStep (s : State) (c : Contents) :
    exec .parse (resetStep s c) = .next (failed (resetStep s c) 0x05#8 3#4 0#32) := by
  have hlen : (resetStep s c).contLen = 0#32 := rfl
  have hfit : (resetStep s c).contLen.toNat ≤ (resetStep s c).cfg.maxCont := Nat.zero_le _
  exact exec_parse_of_error (parseResult_of_badCheck hfit (.inl hlen))

/-- Settles O11: the reset event lists the wanted elements of SYM and CONT one by one. -/
theorem resetAdmitsAnyMemoryContents : Obligations.ResetAdmitsAnyMemoryContents := by
  refine ⟨fun s f g => ⟨⟨elementsBelow s.cfg.maxN f, [], [], [], elementsBelow s.cfg.maxCont g, []⟩, ?_, ?_⟩,
    exec_parse_resetStep⟩
  · exact fun j hj => Mem.read_ofPairs_elementsBelow le_rfl f hj
  · exact fun j hj => Mem.read_ofPairs_elementsBelow le_rfl g hj

/-! ## The time of the completion (70_reset_and_hazards.md R311) -/

/-- The state with OVR, the interrupt registers and the read data of another. -/
def State.withHostFields (h s : State) : State :=
  { s with ovr := h.ovr, doneEn := h.doneEn, donePend := h.donePend, rdata := h.rdata }

/-- The completion with a state of which OVR, the interrupt registers and the read data are another's. -/
def Completion.withHostFields (h : State) (c : Completion) : Completion := { c with state := h.withHostFields c.state }

/-- A stage or a chain of stages that neither reads nor writes OVR, the interrupt registers and the read data. -/
def IgnoresHostFields (run : State → Completion) : Prop :=
  ∀ h s, run (State.withHostFields h s) = (run s).withHostFields h

theorem IgnoresHostFields.stage {α : Type} {op : Byte} {inv : State → State} {result : State → Except Reason α}
    {commit : State → α → State} (hinv : ∀ h s, inv (State.withHostFields h s) = h.withHostFields (inv s))
    (hcommit : ∀ h s a, commit (State.withHostFields h s) a = h.withHostFields (commit s a))
    (hres : ∀ h s, result (State.withHostFields h s) = result s) :
    IgnoresHostFields fun s => stage op inv (result s) commit s := by
  intro h s
  simp only [hres h s]
  cases result s with
  | error why => rw [stage_error rfl, stage_error rfl, hinv]; rfl
  | ok a => rw [stage_ok rfl, stage_ok rfl, hinv, hcommit]; rfl

theorem IgnoresHostFields.andThen {run next : State → Completion} (hr : IgnoresHostFields run)
    (hn : IgnoresHostFields next) : IgnoresHostFields fun s => (run s).andThen next := by
  intro h s
  dsimp only
  rw [hr h s]
  obtain ⟨t, failure⟩ := run s
  cases failure with
  | none => exact hn h t
  | some f => rfl

theorem runCount_ignoresHostFields : IgnoresHostFields runCount :=
  .stage (fun _ _ => rfl) (fun _ _ _ => rfl) fun _ _ => rfl

theorem runBuild_ignoresHostFields : IgnoresHostFields runBuild :=
  .stage (fun _ _ => rfl) (fun _ _ _ => rfl) fun _ _ => rfl

theorem runPack_ignoresHostFields : IgnoresHostFields runPack :=
  .stage (fun _ _ => rfl) (fun _ _ _ => rfl) fun _ _ => rfl

theorem runSerialize_ignoresHostFields : IgnoresHostFields runSerialize :=
  .stage (fun _ _ => rfl) (fun _ _ _ => rfl) fun _ _ => rfl

theorem runParse_ignoresHostFields : IgnoresHostFields runParse :=
  .stage (fun _ _ => rfl) (fun _ _ _ => rfl) fun _ _ => rfl

theorem runUnpack_ignoresHostFields : IgnoresHostFields runUnpack :=
  .stage (fun _ _ => rfl) (fun _ _ _ => rfl) fun _ _ => rfl

/-- COMPRESS after its own invalidation is the chain of its four stages (46_control.md R252). -/
theorem runCompress_ignoresHostFields : IgnoresHostFields runCompress := fun h s =>
  ((runCount_ignoresHostFields.andThen runBuild_ignoresHostFields).andThen runPack_ignoresHostFields).andThen
    runSerialize_ignoresHostFields h s.invalidateCont

/-- DECOMPRESS after its own invalidation is the chain of its two stages (46_control.md R253). -/
theorem runDecompress_ignoresHostFields : IgnoresHostFields runDecompress := fun h s =>
  runParse_ignoresHostFields.andThen runUnpack_ignoresHostFields h s.invalidateOut

theorem completionOf_ignoresHostFields (i : Instr) : IgnoresHostFields (completionOf i) := by
  cases i with
  | nop => exact fun _ _ => rfl
  | clear => exact fun _ _ => rfl
  | count => exact runCount_ignoresHostFields
  | build => exact runBuild_ignoresHostFields
  | pack => exact runPack_ignoresHostFields
  | serialize => exact runSerialize_ignoresHostFields
  | parse => exact runParse_ignoresHostFields
  | unpack => exact runUnpack_ignoresHostFields
  | compress => exact runCompress_ignoresHostFields
  | decompress => exact runDecompress_ignoresHostFields

/-- The completion sets DONE_PEND, so of the four fields it keeps three. -/
theorem complete_withHostFields (h : State) (c : Completion) :
    complete (c.withHostFields h) = { complete c with ovr := h.ovr, doneEn := h.doneEn, rdata := h.rdata } := by
  obtain ⟨s, failure⟩ := c
  cases failure <;> rfl

/-- Settles O26: while a command is pending the host moves only fields that no command reads (O25). -/
theorem completionTimeDoesNotMatter : Obligations.CompletionTimeDoesNotMatter := by
  intro i s l hb
  have hpending : hostSteps s l = (hostSteps s l).withHostFields s := pendingCommandSeesTheAcceptedState s l hb
  have hrun : completionOf i (hostSteps s l) = (completionOf i s).withHostFields (hostSteps s l) := by
    conv_lhs => rw [hpending]
    exact completionOf_ignoresHostFields i _ s
  refine ⟨_, exec_eq i s, ?_⟩
  rw [exec_eq, hrun, complete_withHostFields]

end Sys2Proof.Machine
end
